-- ==== Sys2Proof/Word.lean ====
section
/-! DEFINITION. The word types of the engine. Every value is unsigned (spec 00 section 6). -/

namespace Sys2Proof

/-- One byte: every memory access of the engine moves exactly one (spec 20 R60). -/
abbrev Byte := BitVec 8

/-- `SIZE_W = 32` (spec 00 R12): sizes and the cursors IP and OP. -/
abbrev Size := BitVec 32

/-- `CURSOR_W = 16` (spec 00 R6): the ring write cursor. -/
abbrev Cursor := BitVec 16

/-- A ring index, already reduced with `MASK = 0x0FFF` (spec 00 R6, 20 R69). -/
abbrev RingIdx := BitVec 12

/-- A byte memory: the (address, byte) pairs that are listed, addresses strictly rising. -/
abbrev Memory := List (Nat × BitVec 8)

/-- `N = 4096`, the number of ring cells (spec 00 R6). -/
def ringSize : Nat := 4096

/-- One more than the largest size a 32-bit register expresses (spec 00 R12, 93 U18). -/
def sizeLimit : Nat := 4294967296

/-- `GROUP = 8`: one flag byte describes 8 tokens (spec 00 R8). -/
def groupSize : Nat := 8

end Sys2Proof
end

