-- ==== Sys2Proof/Machine/Memory.lean ====
section
/-! DEFINITION. Byte memories as lists of (address, byte) pairs in one canonical form: addresses
strictly rising, and no entry equal to what an unlisted address reads as. `dflt` is what an unlisted
address reads as: `some b`, or `none` where it has no value (log 5). -/

namespace Sys2Proof.Memory

/-- The byte listed at `a`. -/
def read? : Memory → Nat → Option Byte
  | [], _ => none
  | (k, v) :: m, a => if k = a then some v else read? m a

/-- The byte at `a`: the listed one, else what an unlisted address reads as. -/
def load (dflt : Option Byte) (m : Memory) (a : Nat) : Option Byte :=
  match read? m a with
  | some v => some v
  | none => dflt

/-- `m` with `v` listed at `a`, in address order. -/
def write : Memory → Nat → Byte → Memory
  | [], a, v => [(a, v)]
  | (k, w) :: m, a, v =>
    if a < k then (a, v) :: (k, w) :: m
    else if a = k then (a, v) :: m
    else (k, w) :: write m a v

/-- `m` with `a` not listed. -/
def erase : Memory → Nat → Memory
  | [], _ => []
  | (k, w) :: m, a => if k = a then erase m a else (k, w) :: erase m a

/-- `m` after the byte `v` is stored at `a`: storing what an unlisted address reads as unlists it. -/
def store (dflt : Option Byte) (m : Memory) (a : Nat) (v : Byte) : Memory :=
  if dflt = some v then erase m a else write m a v

/-- The bytes `bs` at consecutive addresses from `a`. -/
def ofBytesFrom : Nat → List Byte → Memory
  | _, [] => []
  | a, b :: bs => (a, b) :: ofBytesFrom (a + 1) bs

/-- The bytes `bs` at addresses 0, 1, …. -/
def ofBytes (bs : List Byte) : Memory := ofBytesFrom 0 bs

/-- The listed cells at or above `n`. -/
def above (n : Nat) : Memory → Memory
  | [] => []
  | (k, v) :: m => if k < n then above n m else (k, v) :: above n m

/-- `m` after the bytes `bs` are placed at 0, 1, …: every address beyond them stays as it was. For a
memory whose unlisted addresses have no value. -/
def placeBytes (m : Memory) (bs : List Byte) : Memory := ofBytes bs ++ above bs.length m

/-- `n` cells from `a` with the bytes `f`, less those that equal the default `d`. -/
def tabulate (d : Byte) (f : Nat → Byte) : Nat → Nat → Memory
  | 0, _ => []
  | n + 1, a => if f a = d then tabulate d f n (a + 1) else (a, f a) :: tabulate d f n (a + 1)

/-- The canonical form, for the listed addresses at or above `lo` and below `bound`. -/
def wfFrom (dflt : Option Byte) (bound : Nat) : Nat → Memory → Bool
  | _, [] => true
  | lo, (k, v) :: m => decide (lo ≤ k) && decide (k < bound) && decide (dflt ≠ some v) && wfFrom dflt bound (k + 1) m

/-- The canonical form: addresses strictly rising and below `bound`, no entry equal to the default. -/
def wf (dflt : Option Byte) (bound : Nat) (m : Memory) : Bool := wfFrom dflt bound 0 m

end Sys2Proof.Memory
end

