-- ==== Sys2Proof/Config.lean ====
section
/-! DEFINITION. What an implementation fixes: the configuration record of spec 00 section 4 and R18,
and the free values that stand for state the spec calls unspecified. The reference values of the
record are in `Machine/Params.lean`. Sizes that fix a register width (N, MASK, CURSOR_W, SIZE_W,
GROUP) are types and constants of `Word.lean` (log 30). -/

namespace Sys2Proof

/-- The comparison rule of the match search, a configuration field by spec 00 R18 and 90 C1. -/
inductive Matcher where
  /-- HIST of spec 41 R151: offsets at or beyond the distance read the input. -/
  | overlapAware
  /-- HIST' of spec 41 R161: the document's formula read literally. -/
  | literalFormula
  deriving DecidableEq, Repr

/-- The engine's parameters (spec 00 R6 to R11, R18). No rule depends on a value but by its name. -/
structure Config where
  /-- `WARM`, the initial write cursor (R6). -/
  warm : Cursor
  /-- `FILL`, the byte every ring cell holds after RING_INIT (R6). -/
  fill : Byte
  /-- `A_MIN_MATCH` (R7). -/
  aMinMatch : Nat
  /-- `A_MAX_MATCH` (R7). -/
  aMaxMatch : Nat
  /-- `A_MAX_DIST` (R7). -/
  aMaxDist : Nat
  /-- `A_LIT_FLAG` (R8); `A_MATCH_FLAG` is the other value. -/
  aLitFlag : Bool
  /-- The match comparison rule (R18, 90 C1). -/
  matcher : Matcher
  /-- `B_SHORT_MIN`, the least control byte of the short form (R9). -/
  bShortMin : Byte
  /-- `B_SHORT_LEN` (R9). -/
  bShortLen : Nat
  /-- `B_MIN_LEN` (R9). -/
  bMinLen : Nat
  /-- `B_MIN_SUPERLEN` (R9, 90 C6). -/
  bMinSuperLen : Nat
  /-- `B_COPY_BIAS` (R9, R18, 90 C4). -/
  bCopyBias : Nat
  /-- `B_MATCH_FLAG` (R9, R18, 90 C3); `B_LIT_FLAG` is the other value. -/
  bMatchFlag : Bool
  /-- `B_RELOAD` (R9). -/
  bReload : BitVec 16
  /-- `B_SUPER_CODE`, OPEN (R10, 92 D9). -/
  bSuperCode : BitVec 4
  /-- `A_MAGIC`, first byte most significant (R11, 93 U9). -/
  aMagic : BitVec 64
  /-- `B_MAGIC`, first byte most significant (R11, 93 U9). -/
  bMagic : BitVec 32
  /-- `B_MAX_DECLARED`, OPEN (R11, 92 D14). -/
  bMaxDeclared : Size
  deriving DecidableEq, Repr

/-- The parameter ranges in which the registers of spec 10 hold every value the rules give them:
a length minus its minimum fits 4 bits, BEST_LEN 5 bits, a distance its 12-bit field modulo 4096,
and LEN 9 bits (spec 10 R24, R25; 00 R7). The reference configuration meets it. -/
def Config.wf (c : Config) : Bool :=
  decide (1 ≤ c.aMinMatch) && decide (c.aMinMatch ≤ c.aMaxMatch) &&
  decide (c.aMaxMatch ≤ c.aMinMatch + 15) && decide (c.aMaxMatch ≤ 31) &&
  decide (c.aMaxDist ≤ 4096) && decide (c.bShortLen < 512) &&
  decide (c.bMinLen + 15 < 512) && decide (c.bMinSuperLen + 255 < 512)

/-- A free value of `w` bits: nothing is known of it. It stands for state the spec calls
unspecified (spec 60 R299, 10 R50; 93 "any value"); log 6. -/
opaque Config.freeValue (w n : Nat) : BitVec w

end Sys2Proof
end

