-- ==== Sys2Proof/Machine/Params.lean ====
section
/-! DEFINITION. The reference configuration: the default of every parameter of spec 00 section 4
and R18, with `B_SUPER_CODE = 5` (92 D9) and `B_MAX_DECLARED = 2^32 - 1` (92 D14); log 3, 21, 22. -/

namespace Sys2Proof

/-- The configuration of every test vector of spec 95 that names no other. -/
def Config.reference : Config where
  warm := 3822
  fill := 0
  aMinMatch := 3
  aMaxMatch := 18
  aMaxDist := 4096
  aLitFlag := true
  matcher := .overlapAware
  bShortMin := 0x60
  bShortLen := 2
  bMinLen := 3
  bMinSuperLen := 9
  bCopyBias := 1
  bMatchFlag := true
  bReload := 0xFF00
  bSuperCode := 5
  aMagic := 0x5652414D2D574144
  bMagic := 0x4C5A4E50
  bMaxDeclared := 0xFFFFFFFF

/-- `ENC_A_BOUND(n) = n + floor(n / 8) + 1` (spec 00 R12, 43 R207). -/
def encABound (n : Nat) : Nat := n + n / groupSize + 1

end Sys2Proof
end

