-- ==== Sys2Proof/Syntax.lean ====
section
/-! DEFINITION. The instructions: one constructor per row of spec/opcode_table.json, and the spaces
their encodings live in (spec 00 R14, 30). Field names are the table's. -/

namespace Sys2Proof

/-- An instruction of one of the three levels of spec 00 R14, or a container header (spec 46). -/
inductive Instr where
  /-- A.LIT: format A literal token (30 R92, 44 R224). -/
  | aLit (b : Byte)
  /-- A.MATCH: format A back-reference, fields H, L, D_lo (30 R93, 44 R225). -/
  | aMatch (h l : BitVec 4) (dLo : Byte)
  /-- B.LIT: format B literal token (30 R98, 45 R244). -/
  | bLit (b : Byte)
  /-- B.SHORT: format B short match, its control byte (30 R100, 45 R246). -/
  | bShort (c : Byte)
  /-- B.LONG: format B long match, fields S, H, D_lo (30 R101, 45 R248). -/
  | bLong (sel h : BitVec 4) (dLo : Byte)
  /-- B.SUPER: format B superlength match, fields H, D_lo, E; S is `B_SUPER_CODE` (30 R102, 45 R249). -/
  | bSuper (h : BitVec 4) (dLo e : Byte)
  /-- B.END: format B end sentinel, its selector S, which is not examined (30 R103, 45 R250). -/
  | bEnd (sel : BitVec 4)
  /-- ENC_A: the format A encode command (30 R115, 43 R200). -/
  | encA
  /-- DEC_A: the format A decode command (30 R115, 44 R220). -/
  | decA
  /-- DEC_B: the format B decode command (30 R115, 45 R240). -/
  | decB
  /-- NO_COMMAND: command code 0, which START refuses with BAD_COMMAND (30 R121, 60 R305). -/
  | noCommand
  /-- HDR_A: a format A container header (30 R110, 46 R272). -/
  | hdrA (compressedSize originalSize : Size)
  /-- HDR_B: a format B container header (30 R111, 46 R273). -/
  | hdrB (decompressedSize : Size)
  deriving DecidableEq, Repr

/-- Where an encoding lies. The bytes alone do not tell: the command chooses the format and the
flag bit the token class (spec 30 R120), and the host asks for a header (46). -/
inductive Space where
  /-- The 2-bit field OPSEL, as one byte. -/
  | command
  /-- The format A token stream, with the token's flag bit. -/
  | tokenA (flag : Bool)
  /-- The format B token stream, with the token's flag bit. -/
  | tokenB (flag : Bool)
  /-- The first 16 bytes of a format A file. -/
  | headerA
  /-- The first 8 bytes of a format B file. -/
  | headerB
  deriving DecidableEq, Repr

end Sys2Proof
end

