-- ==== Sys2Proof/Machine/State.lean ====
section
/-! DEFINITION. The machine's state as plain data, its fault and refusal reasons, and the state
right after reset. Every field names the rule of the spec that gives it. -/

namespace Sys2Proof.Machine

/-- The STATE register's values (spec 10 R38). -/
inductive Status where
  | idle
  | busy
  | done
  | fault
  deriving DecidableEq, Repr

/-- The CAUSE register's values but the reserved code 7, which is never written (spec 10 R39). -/
inductive Cause where
  | none
  | inputUnderrun
  | outputOverrun
  | backrefUnderflow
  | sizeMismatch
  | badCommand
  | formatError
  deriving DecidableEq, Repr

/-- What the host can do between commands (spec 10 section 5, 46 R270, 70 R330 to R335). -/
inductive HostAction where
  /-- Write `v` to the control or status register numbered `n` (10 R37). -/
  | writeReg (n : BitVec 3) (v : BitVec 32)
  /-- Place bytes in IN from index 0 (70 R335). -/
  | loadIn (bytes : List Byte)
  /-- Take a file as the image F (46 R275). -/
  | setFile (bytes : List Byte)
  /-- IN and IN_LEN from the file image, for compression (46 R275). -/
  | fileToIn
  /-- Place the buffers IN and OUT, overlapping or not (20 R72, 70 R335); both keep their contents
  (log 33). -/
  | place (overlap : Bool)
  /-- START (70 R332). -/
  | start
  /-- RESET (70 R330). -/
  | reset
  /-- WRAP_A on the finished command's OUT and IN_LEN (46 R271). -/
  | wrapA
  /-- UNWRAP_A on the file image (46 R272). -/
  | unwrapA
  /-- UNWRAP_B on the file image (46 R273). -/
  | unwrapB
  deriving DecidableEq, Repr

/-- Why the machine stops with a fault of the model. The engine's own faults are not these: raising
a cause of spec 60 is a next state. -/
inductive Fault where
  /-- The engine reads an index of IN below IN_LEN at which the host placed no byte, against its
  duty of spec 70 R335(a). Raised by every read of IN. Safe: hardware would read some byte (log 5). -/
  | inUnplaced
  /-- An index of OUT that nothing has written since command initialisation is read. Raised by
  GET_OUT and WRAP_A. No run of the engine reaches it. Safe (log 5). -/
  | outUnwritten
  deriving DecidableEq, Repr

/-- Why an instruction or a host action has no meaning in a state. -/
inductive Refusal where
  /-- The instruction has no meaning yet; raised by `exec` only. Safe. -/
  | notModelled (mnemonic : String)
  /-- A host action while STATE is BUSY, which is not offered (spec 70 R332, 93 U15). Raised by the
  commands and headers. Safe (log 10). -/
  | hostWhileBusy
  /-- A launch with IN and OUT overlapping, which a model refuses (spec 20 R72, 93 U10). Raised by
  the three codec commands. Safe (log 11). -/
  | inOutOverlap
  /-- A buffer of 2^32 bytes or more, which the 32-bit registers cannot express (spec 93 U18).
  Raised by HDR_B and by the host's filling of IN. Safe (log 13). -/
  | sizeTooLarge
  /-- WRAP_A with no finished command, whose operands would be unspecified (spec 46 R271, 60 R299).
  Raised by the host action WRAP_A. Safe (log 15). -/
  | noResult
  /-- STATE is BUSY while OPSEL selects no command: no rule gives the engine a move. Raised by `step`.
  No run reaches it. Safe (log 19). -/
  | busyWithoutCommand
  deriving DecidableEq, Repr

/-- The whole machine. -/
structure State where
  /-- The configuration record (spec 00 section 4, R18); written by no step (log 2). -/
  cfg : Config
  /-- RING, 4096 cells (10 R42). -/
  ring : Memory
  /-- IN (10 R43). -/
  inp : Memory
  /-- OUT (10 R44). -/
  out : Memory
  /-- WR, the ring write cursor (10 R20). -/
  wr : Cursor
  /-- RD, the read-back index of COPY_A (10 R21). -/
  rd : RingIdx
  /-- IP, the input cursor and program counter (10 R27). -/
  ip : Size
  /-- OP, the output cursor (10 R22). -/
  op : Size
  /-- DIST (10 R23). -/
  dist : BitVec 13
  /-- LEN (10 R24). -/
  len : BitVec 9
  /-- BEST_LEN (10 R25). -/
  bestLen : BitVec 5
  /-- BEST_DIST (10 R25). -/
  bestDist : BitVec 13
  /-- FA_ACC, the encoder's flag accumulator (10 R28). -/
  faAcc : BitVec 8
  /-- FA_CNT, the tokens of the current flag group (10 R29). -/
  faCnt : BitVec 4
  /-- FA_SLOT, the reserved flag slot (10 R30, R46). -/
  faSlot : Size
  /-- FR_BYTE, the format A decoder's flag byte (10 R31). -/
  frByte : BitVec 8
  /-- FR_REM, its remaining-bit counter (10 R32). -/
  frRem : BitVec 4
  /-- FB_REG, the format B flag register (10 R33). -/
  fbReg : BitVec 16
  /-- OPSEL (10 R35). -/
  opsel : BitVec 2
  /-- IN_LEN (10 R36). -/
  inLen : Size
  /-- OUT_CAP (10 R36). -/
  outCap : Size
  /-- DECL (10 R36). -/
  decl : Size
  /-- STATE (10 R38). -/
  status : Status
  /-- CAUSE (10 R39). -/
  cause : Cause
  /-- OUT_LEN (10 R40). -/
  outLen : Size
  /-- IN_POS (10 R40). -/
  inPos : Size
  /-- F, the container file image on the host's side (46). -/
  file : List Byte
  /-- Whether the host placed IN and OUT overlapping (20 R72). -/
  overlap : Bool
  /-- The host's pending actions, oldest first; the model's own (log 9). -/
  host : List HostAction
  /-- Index of the next free value; the model's own (log 6). -/
  freeCtr : Nat
  deriving DecidableEq, Repr

/-- The machine right after power-on reset: STATE, CAUSE and OPSEL as spec 10 R50 and 70 R330 give
them; every other register at 0, nothing in the memories (DESIGN CHOICE, unsafe: log 4, 5, 9, 11),
and the reference configuration (log 2, 3). -/
def State.reset : State where
  cfg := Config.reference
  ring := []
  inp := []
  out := []
  wr := 0
  rd := 0
  ip := 0
  op := 0
  dist := 0
  len := 0
  bestLen := 0
  bestDist := 0
  faAcc := 0
  faCnt := 0
  faSlot := 0
  frByte := 0
  frRem := 0
  fbReg := 0
  opsel := 0
  inLen := 0
  outCap := 0
  decl := 0
  status := .idle
  cause := .none
  outLen := 0
  inPos := 0
  file := []
  overlap := false
  host := []
  freeCtr := 0

end Sys2Proof.Machine
end

