-- ==== Sys2Proof/Machine/Ops.lean ====
section
/-! DEFINITION. The operations over memories and registers that every meaning shares: the accessors
of the three spaces, raising a fault cause, the checked access primitives of spec 20, the ring
micro-operations of spec 40, and the end of a command. -/

namespace Sys2Proof.Machine

/-- The engine's outcome type. -/
abbrev Result := Host.Outcome State Fault Refusal

/-- What a piece of a command's pseudocode does: go on with a value, or end the step. -/
inductive Flow (α : Type) where
  /-- The statements after this one run, in state `s`. -/
  | go (a : α) (s : State)
  /-- No statement after this one runs (spec 60 R298). -/
  | halt (r : Result)

/-- Sequential composition of pseudocode (spec 20 R73). -/
def Flow.bind {α β : Type} (x : Flow α) (f : α → State → Flow β) : Flow β :=
  match x with
  | .go a s => f a s
  | .halt r => .halt r

/-- The outcome of a step whose pseudocode this is. -/
def Flow.result {α : Type} : Flow α → Result
  | .go _ s => .next s
  | .halt r => r

/-! ## The three spaces -/

/-- The engine's disjoint byte spaces (spec 10 R45). -/
inductive MemSpace where
  | ring
  | inp
  | out
  deriving DecidableEq, Repr

/-- What an unlisted address of a space reads as: a ring cell `FILL` (spec 10 R51, R54), a byte of
IN or OUT no value (log 5). -/
def unlisted (c : Config) : MemSpace → Option Byte
  | .ring => some c.fill
  | .inp => none
  | .out => none

/-- `IN[a]`. -/
def readIn (s : State) (a : Nat) : Option Byte := s.inp.load (unlisted s.cfg .inp) a

/-- `OUT[a]`. -/
def readOut (s : State) (a : Nat) : Option Byte := s.out.load (unlisted s.cfg .out) a

/-- `OUT[a] <- v`. -/
def writeOut (a : Nat) (v : Byte) (s : State) : State :=
  { s with out := s.out.store (unlisted s.cfg .out) a v }

/-- RING_GET (spec 40 R133): the cell of an index already reduced with `MASK`. -/
def ringGet (s : State) (i : RingIdx) : Byte := (s.ring.load (unlisted s.cfg .ring) i.toNat).getD s.cfg.fill

/-- `x & 0x0FFF` of a cursor (spec 20 R69). -/
def ringIndex (w : Cursor) : RingIdx := w.setWidth 12

/-- RING_PUT (spec 40 R132): the write comes first, then WR advances modulo 65536. -/
def ringPut (b : Byte) (s : State) : State :=
  { s with
    ring := s.ring.store (unlisted s.cfg .ring) (ringIndex s.wr).toNat b
    wr := s.wr + 1 }

/-- RING_INIT (spec 40 R131): every cell `FILL`, that is, none listed, and WR at `WARM`. -/
def ringInit (s : State) : State := { s with ring := [], wr := s.cfg.warm }

/-- CAP, the effective capacity of OUT (spec 10 R36; OPSEL 0 runs no command, log 20). -/
def cap (s : State) : Size := if s.opsel = 1 then s.outCap else s.decl

/-! ## Unspecified state and raising a fault -/

/-- A ring of free bytes. -/
def freeRing (c : Config) (n : Nat) : Memory :=
  Memory.tabulate c.fill (fun i => Config.freeValue 8 (n + i)) ringSize 0

/-- The state in which RING, WR, OUT, OUT_LEN, IN_POS and every working and flag register are
unspecified: free values, and no value in OUT (spec 60 R299, 10 R50; log 6). -/
def scramble (s : State) : State :=
  { s with
    ring := freeRing s.cfg s.freeCtr
    out := []
    wr := Config.freeValue 16 (s.freeCtr + 4096)
    rd := Config.freeValue 12 (s.freeCtr + 4097)
    ip := Config.freeValue 32 (s.freeCtr + 4098)
    op := Config.freeValue 32 (s.freeCtr + 4099)
    dist := Config.freeValue 13 (s.freeCtr + 4100)
    len := Config.freeValue 9 (s.freeCtr + 4101)
    bestLen := Config.freeValue 5 (s.freeCtr + 4102)
    bestDist := Config.freeValue 13 (s.freeCtr + 4103)
    faAcc := Config.freeValue 8 (s.freeCtr + 4104)
    faCnt := Config.freeValue 4 (s.freeCtr + 4105)
    faSlot := Config.freeValue 32 (s.freeCtr + 4106)
    frByte := Config.freeValue 8 (s.freeCtr + 4107)
    frRem := Config.freeValue 4 (s.freeCtr + 4108)
    fbReg := Config.freeValue 16 (s.freeCtr + 4109)
    outLen := Config.freeValue 32 (s.freeCtr + 4110)
    inPos := Config.freeValue 32 (s.freeCtr + 4111)
    freeCtr := s.freeCtr + 4112 }

/-- `raise F` (spec 60 R298, R299): CAUSE and STATE are written and the command stops; the control
registers and IN keep their values and everything else is unspecified. Nothing is saved and there is
no handler, no vector and no return (R290, R311): the engine waits for START or RESET. -/
def raiseFault (f : Cause) (s : State) : State := { scramble s with cause := f, status := .fault }

/-- `raise F` inside pseudocode. -/
def raiseFlow {α : Type} (f : Cause) (s : State) : Flow α := .halt (.next (raiseFault f s))

/-- RESET (spec 70 R330): STATE, CAUSE and OPSEL are written, every other register of the engine is
unspecified. IN and the host's own side stay (log 8). -/
def powerOnReset (s : State) : State :=
  { scramble s with
    status := .idle
    cause := .none
    opsel := 0
    inLen := Config.freeValue 32 (s.freeCtr + 4112)
    outCap := Config.freeValue 32 (s.freeCtr + 4113)
    decl := Config.freeValue 32 (s.freeCtr + 4114)
    freeCtr := s.freeCtr + 4115 }

/-! ## The checked access primitives of spec 20 -/

/-- FETCH (spec 20 R66). -/
def fetch (s : State) : Flow Byte :=
  if s.ip < s.inLen then
    match readIn s s.ip.toNat with
    | some b => .go b { s with ip := s.ip + 1 }
    | none => .halt (.fault .inUnplaced)
  else raiseFlow .inputUnderrun s

/-- PUT_OUT (spec 20 R67). -/
def putOut (v : Byte) (s : State) : Flow Unit :=
  if s.op < cap s then .go () { writeOut s.op.toNat v s with op := s.op + 1 }
  else raiseFlow .outputOverrun s

/-- GET_OUT (spec 20 R68). -/
def getOut (d : Nat) (s : State) : Flow Byte :=
  if s.op.toNat < d then raiseFlow .backrefUnderflow s
  else match readOut s (s.op.toNat - d) with
    | some b => .go b s
    | none => .halt (.fault .outUnwritten)

/-- IP moves past `n` fetched bytes (spec 10 R27). -/
def consume (n : Nat) (s : State) : State := { s with ip := s.ip + BitVec.ofNat 32 n }

/-- Up to `n` placed bytes of IN from index `a`, below IN_LEN: what FETCH would return one after
another, and what the match search may look ahead at (spec 20 R66, R70). -/
def inRun (s : State) : Nat → Nat → List Byte
  | 0, _ => []
  | n + 1, a =>
    if a < s.inLen.toNat then
      match readIn s a with
      | some b => b :: inRun s n (a + 1)
      | none => []
    else []

/-! ## Registers the host sees -/

/-- The end of a command that reaches DONE (spec 10 R40). -/
def finish (s : State) : State := { s with outLen := s.op, inPos := s.ip, status := .done }

/-- The code of a STATE value (spec 10 R38). -/
def Status.code : Status → BitVec 2
  | .idle => 0
  | .busy => 1
  | .done => 2
  | .fault => 3

/-- The code of a CAUSE value (spec 10 R39). -/
def Cause.code : Cause → BitVec 3
  | .none => 0
  | .inputUnderrun => 1
  | .outputOverrun => 2
  | .backrefUnderflow => 3
  | .sizeMismatch => 4
  | .badCommand => 5
  | .formatError => 6

/-- The document's error kinds that can arise in the block; its other three arise only in the host
(spec 60 R291, R296). -/
inductive ErrorKind where
  | decodeSizeMismatch
  | outOfBounds
  | formatError
  deriving DecidableEq, Repr

/-- The document's kind of a cause (spec 60 R294, R295). BAD_COMMAND has none: UsageError, the nearest,
is a kind the engine never raises (R296). -/
def Cause.kind : Cause → Option ErrorKind
  | .none | .badCommand => Option.none
  | .inputUnderrun | .sizeMismatch => some .decodeSizeMismatch
  | .outputOverrun | .backrefUnderflow => some .outOfBounds
  | .formatError => some .formatError

/-- The tools' exit status (spec 60 R297): 0 for DONE, 1 for FAULT. -/
def exitStatus : Status → Option Nat
  | .done => some 0
  | .fault => some 1
  | .idle | .busy => none

/-- A host read of a register (spec 10 section 5). -/
def readReg (n : BitVec 3) (s : State) : BitVec 32 :=
  if n = 0 then s.opsel.setWidth 32
  else if n = 1 then s.inLen
  else if n = 2 then s.outCap
  else if n = 3 then s.decl
  else if n = 4 then s.status.code.setWidth 32
  else if n = 5 then s.cause.code.setWidth 32
  else if n = 6 then s.outLen
  else s.inPos

/-- A host write of a register (spec 10 R37): a write to a status register has no effect. Of a
value above 3 written to the 2-bit OPSEL the low 2 bits are kept (DESIGN CHOICE, unsafe: log 32). -/
def writeReg (n : BitVec 3) (v : BitVec 32) (s : State) : State :=
  if n = 0 then { s with opsel := v.setWidth 2 }
  else if n = 1 then { s with inLen := v }
  else if n = 2 then { s with outCap := v }
  else if n = 3 then { s with decl := v }
  else s

end Sys2Proof.Machine
end

