-- ==== Sys2Proof/Machine/Flags.lean ====
section
/-! DEFINITION. The flag-bit writer and the two flag-bit readers (spec 42). There are no other
flags: no arithmetic condition codes (spec 10 R34). -/

namespace Sys2Proof.Machine

/-- The deferred write `OUT[FA_SLOT] <- v`, which moves no cursor and needs no check (spec 42 R174). -/
def fillSlot (v : Byte) (s : State) : State := writeOut s.faSlot.toNat v s

/-- FLAGW_RESERVE (spec 42 R171): FA_SLOT takes the old OP, the placeholder `00` is appended. -/
def flagwReserve (s : State) : Flow Unit :=
  (putOut 0 { s with faSlot := s.op }).bind fun _ t => .go () { t with faAcc := 0, faCnt := 0 }

/-- FLAGW_PUT (spec 42 R172). -/
def flagwPut (f : Bool) (s : State) : State :=
  { s with faAcc := (s.faAcc <<< 1) ||| (BitVec.ofBool f).setWidth 8, faCnt := s.faCnt + 1 }

/-- FLAGW_CLOSE (spec 42 R173). -/
def flagwClose (s : State) : Flow Unit := flagwReserve (fillSlot s.faAcc s)

/-- The close after a token's bytes, if and only if its group is full (spec 43 R205). -/
def closeIfFull (s : State) : Flow Unit :=
  if s.faCnt.toNat = groupSize then flagwClose s else .go () s

/-- FLAGW_FINISH (spec 42 R175): the flags aligned to the top, low bits 0. -/
def flagwFinish (s : State) : State := fillSlot (s.faAcc <<< (groupSize - s.faCnt.toNat)) s

/-- The refill of FR_BYTE when no flag bits remain (spec 42 R180). -/
def frRefill (s : State) : Flow Unit :=
  if s.frRem = 0 then (fetch s).bind fun b t => .go () { t with frByte := b, frRem := 8 }
  else .go () s

/-- FLAGR_A_GET (spec 42 R180): the top bit of FR_BYTE, fetched lazily. -/
def flagrAGet (s : State) : Flow Bool :=
  (frRefill s).bind fun _ t =>
    .go t.frByte.msb { t with frRem := t.frRem - 1, frByte := t.frByte <<< 1 }

/-- FLAGR_B_GET (spec 42 R185): a right shift, a reload when the upper byte is zero, then bit 0. -/
def flagrBGet (s : State) : Flow Bool :=
  let r := s.fbReg >>> 1
  if r.extractLsb' 8 8 = 0 then
    (fetch { s with fbReg := r }).bind fun b t =>
      let r' := s.cfg.bReload ||| b.setWidth 16
      .go (r'.getLsbD 0) { t with fbReg := r' }
  else .go (r.getLsbD 0) { s with fbReg := r }

end Sys2Proof.Machine
end

