-- ==== Sys2Proof/Machine/Command.lean ====
section
/-! DEFINITION. The commands as START launches them (spec 70 R332): their initialisation. The loops
run as the steps that follow, one token or one pass each, while STATE is BUSY (92 D1; log 1). -/

namespace Sys2Proof.Machine

/-- What every command's initialisation writes, with the state the overview table of spec 10 calls
unspecified after it: free values, and no value in OUT (log 7). -/
def beginCommand (s : State) : State :=
  { s with
    cause := .none
    status := .busy
    ip := 0
    op := 0
    out := []
    rd := Config.freeValue 12 s.freeCtr
    dist := Config.freeValue 13 (s.freeCtr + 1)
    len := Config.freeValue 9 (s.freeCtr + 2)
    bestLen := Config.freeValue 5 (s.freeCtr + 3)
    bestDist := Config.freeValue 13 (s.freeCtr + 4)
    outLen := Config.freeValue 32 (s.freeCtr + 5)
    inPos := Config.freeValue 32 (s.freeCtr + 6)
    freeCtr := s.freeCtr + 7 }

/-- A codec command is launched when STATE is not BUSY and IN and OUT are disjoint (spec 70 R332,
20 R72). -/
def launch (s : State) (k : State → Result) : Result :=
  if s.status = .busy then .refused .hostWhileBusy
  else if s.overlap then .refused .inOutOverlap
  else k s

/-- ENC_A's initialisation before its first FLAGW_RESERVE (spec 10 R51). -/
def encInit (s : State) : State := { ringInit (beginCommand s) with faAcc := 0, faCnt := 0 }

/-- ENC_A (spec 10 R51, 43 R201): the initialisation, with the first flag slot reserved. -/
def execEncA (s : State) : Result := launch s fun s => (flagwReserve (encInit s)).result

/-- DEC_A (spec 10 R52, 44 R221): the initialisation. -/
def execDecA (s : State) : Result :=
  launch s fun s => .next { ringInit (beginCommand s) with frByte := 0, frRem := 0 }

/-- DEC_B (spec 10 R53, 45 R241): the initialisation; RING and WR are not touched. -/
def execDecB (s : State) : Result := launch s fun s => .next { beginCommand s with fbReg := 0 }

/-- NO_COMMAND (spec 60 R305): START with OPSEL 0 raises BAD_COMMAND before any initialisation. -/
def execNoCommand (s : State) : Result :=
  if s.status = .busy then .refused .hostWhileBusy else .next (raiseFault .badCommand s)

end Sys2Proof.Machine
end

