-- ==== Sys2Proof/WellFormed.lean ====
section
/-! DEFINITION. Which instructions have an encoding: the constraints of the opcode table's rows. -/

namespace Sys2Proof

/-- The control byte `S*16 + H` of a format B long shape (spec 30 R101). -/
def longControl (sel h : BitVec 4) : Byte := sel ++ h

/-- `DIST = H*256 + D_lo`, the 12 bits of a distance field (spec 30 R105). -/
def distField (h : BitVec 4) (dLo : Byte) : BitVec 12 := h ++ dLo

/-- `i` is an instruction of its row: the "constraint" of the opcode table (spec 30 R99 to R104).
The rows without a constraint admit every field value (R118, R119). -/
def Instr.wf (c : Config) : Instr → Bool
  | .aLit _ | .aMatch _ _ _ | .bLit _ | .encA | .decA | .decB | .noCommand | .hdrA _ _ | .hdrB _ => true
  | .bShort b => decide (c.bShortMin ≤ b)
  | .bLong sel h dLo =>
    decide (longControl sel h < c.bShortMin) && decide (sel ≠ c.bSuperCode) && decide (distField h dLo ≠ 0)
  | .bSuper h dLo _ => decide (longControl c.bSuperCode h < c.bShortMin) && decide (distField h dLo ≠ 0)
  | .bEnd sel => decide (longControl sel 0 < c.bShortMin)

end Sys2Proof
end

