-- ==== Sys2Proof/Decode.lean ====
section
/-! DEFINITION. The decoder, total on any bytes and rejecting by name, and after it the encoder,
both from spec 30. A token word and a header pattern have their first byte most significant. -/

namespace Sys2Proof

/-- Why bytes are not an instruction of a space. -/
inductive DecodeError where
  /-- More bytes are needed (a token cut short; a file shorter than its header). -/
  | truncated
  /-- A container magic that does not match exactly (spec 46 R272, R273). -/
  | badMagic
  /-- A command byte above 3: OPSEL has two bits (spec 10 R35). -/
  | notACommand
  deriving DecidableEq, Repr

/-- The instruction a command code stands for (spec 30 R115, R121). -/
def commandOf (opsel : BitVec 2) : Instr :=
  if opsel = 0 then .noCommand else if opsel = 1 then .encA else if opsel = 2 then .decA else .decB

/-- `LE32`: first byte least significant (spec 00 section 6). -/
def le32 (b0 b1 b2 b3 : Byte) : Size := b3 ++ b2 ++ b1 ++ b0

/-- `BE32`: first byte most significant (spec 00 section 6). -/
def be32 (b0 b1 b2 b3 : Byte) : Size := b0 ++ b1 ++ b2 ++ b3

/-- Eight bytes as one word, first byte most significant. -/
def be64 (b0 b1 b2 b3 b4 b5 b6 b7 : Byte) : BitVec 64 := be32 b0 b1 b2 b3 ++ be32 b4 b5 b6 b7

/-- The format A token of a flag bit: LIT is one byte, MATCH two (spec 30 R92, R93, R120). -/
def decodeTokenA (c : Config) (flag : Bool) : List Byte → Except DecodeError (Instr × List Byte)
  | [] => .error .truncated
  | b1 :: r =>
    if flag = c.aLitFlag then .ok (.aLit b1, r)
    else match r with
      | [] => .error .truncated
      | b2 :: r => .ok (.aMatch (b1.extractLsb' 4 4) (b1.extractLsb' 0 4) b2, r)

/-- The long shape after its control byte: END before the selector test (spec 30 R103, R104). -/
def decodeLongB (c : Config) (ctl lo : Byte) (r : List Byte) : Except DecodeError (Instr × List Byte) :=
  if distField (ctl.extractLsb' 0 4) lo = 0 then .ok (.bEnd (ctl.extractLsb' 4 4), r)
  else if ctl.extractLsb' 4 4 = c.bSuperCode then
    match r with
    | [] => .error .truncated
    | e :: r => .ok (.bSuper (ctl.extractLsb' 0 4) lo e, r)
  else .ok (.bLong (ctl.extractLsb' 4 4) (ctl.extractLsb' 0 4) lo, r)

/-- The format B token of a flag bit (spec 30 R97 to R104). -/
def decodeTokenB (c : Config) (flag : Bool) : List Byte → Except DecodeError (Instr × List Byte)
  | [] => .error .truncated
  | ctl :: r =>
    if flag ≠ c.bMatchFlag then .ok (.bLit ctl, r)
    else if c.bShortMin ≤ ctl then .ok (.bShort ctl, r)
    else match r with
      | [] => .error .truncated
      | lo :: r => decodeLongB c ctl lo r

/-- The format A header: 8 magic bytes and two little-endian sizes (spec 30 R110). -/
def decodeHeaderA (c : Config) : List Byte → Except DecodeError (Instr × List Byte)
  | m0 :: m1 :: m2 :: m3 :: m4 :: m5 :: m6 :: m7 :: c0 :: c1 :: c2 :: c3 :: o0 :: o1 :: o2 :: o3 :: r =>
    if be64 m0 m1 m2 m3 m4 m5 m6 m7 = c.aMagic then .ok (.hdrA (le32 c0 c1 c2 c3) (le32 o0 o1 o2 o3), r)
    else .error .badMagic
  | _ => .error .truncated

/-- The format B header: 4 magic bytes and one big-endian size (spec 30 R111). -/
def decodeHeaderB (c : Config) : List Byte → Except DecodeError (Instr × List Byte)
  | m0 :: m1 :: m2 :: m3 :: d0 :: d1 :: d2 :: d3 :: r =>
    if be32 m0 m1 m2 m3 = c.bMagic then .ok (.hdrB (be32 d0 d1 d2 d3), r) else .error .badMagic
  | _ => .error .truncated

/-- The first instruction of `bs` in the given space and the bytes after it. -/
def decode (c : Config) : Space → List Byte → Except DecodeError (Instr × List Byte)
  | .command, [] => .error .truncated
  | .command, b :: r => if b < 4 then .ok (commandOf (b.setWidth 2), r) else .error .notACommand
  | .tokenA f, bs => decodeTokenA c f bs
  | .tokenB f, bs => decodeTokenB c f bs
  | .headerA, bs => decodeHeaderA c bs
  | .headerB, bs => decodeHeaderB c bs

/-! ## The encoder -/

/-- The four bytes of a size, least significant first. -/
def le32Bytes (v : Size) : List Byte :=
  [v.extractLsb' 0 8, v.extractLsb' 8 8, v.extractLsb' 16 8, v.extractLsb' 24 8]

/-- The four bytes of a size, most significant first. -/
def be32Bytes (v : Size) : List Byte :=
  [v.extractLsb' 24 8, v.extractLsb' 16 8, v.extractLsb' 8 8, v.extractLsb' 0 8]

/-- The eight bytes of a word, most significant first. -/
def be64Bytes (v : BitVec 64) : List Byte :=
  be32Bytes (v.extractLsb' 32 32) ++ be32Bytes (v.extractLsb' 0 32)

/-- The space an instruction is encoded in, with the flag bit of its class. -/
def spaceOf (c : Config) : Instr → Space
  | .aLit _ => .tokenA c.aLitFlag
  | .aMatch _ _ _ => .tokenA (!c.aLitFlag)
  | .bLit _ => .tokenB (!c.bMatchFlag)
  | .bShort _ | .bLong _ _ _ | .bSuper _ _ _ | .bEnd _ => .tokenB c.bMatchFlag
  | .encA | .decA | .decB | .noCommand => .command
  | .hdrA _ _ => .headerA
  | .hdrB _ => .headerB

/-- The bytes of an instruction, in stream or file order (spec 30 R92 to R103, R110, R111, R115). -/
def encode (c : Config) : Instr → List Byte
  | .aLit b => [b]
  | .aMatch h l dLo => [h ++ l, dLo]
  | .bLit b => [b]
  | .bShort b => [b]
  | .bLong sel h dLo => [longControl sel h, dLo]
  | .bSuper h dLo e => [longControl c.bSuperCode h, dLo, e]
  | .bEnd sel => [longControl sel 0, 0]
  | .noCommand => [0]
  | .encA => [1]
  | .decA => [2]
  | .decB => [3]
  | .hdrA cs os => be64Bytes c.aMagic ++ le32Bytes cs ++ le32Bytes os
  | .hdrB ds => be32Bytes c.bMagic ++ be32Bytes ds

/-- How many bytes a row's encoding has (spec 30 R120, R110, R111). -/
def Instr.bytes : Instr → Nat
  | .aLit _ | .bLit _ | .bShort _ | .encA | .decA | .decB | .noCommand => 1
  | .aMatch _ _ _ | .bLong _ _ _ | .bEnd _ => 2
  | .bSuper _ _ _ => 3
  | .hdrA _ _ => 16
  | .hdrB _ => 8

/-! ## Words numbered as the opcode table numbers them -/

/-- The `n` bytes of `w`, first byte most significant: the table's numbering (spec 30 conventions). -/
def bytesOfWord : Nat → Nat → List Byte
  | 0, _ => []
  | n + 1, w => BitVec.ofNat 8 (w / 256 ^ n) :: bytesOfWord n w

/-- The bytes of a table word of `nbits` bits. -/
def tableBytes (nbits w : Nat) : List Byte := bytesOfWord ((nbits + 7) / 8) w

/-- The spaces in the order a bare table word is tried in (log 16): the word does not say its own. -/
def tableSpaces (c : Config) : List Space :=
  [.command, .tokenB c.bMatchFlag, .tokenA (!c.aLitFlag), .tokenA c.aLitFlag, .headerA, .headerB]

/-- `bs` is exactly one instruction of the space. -/
def decodesWhole (c : Config) (bs : List Byte) (sp : Space) : Bool :=
  match decode c sp bs with
  | .ok (_, []) => true
  | _ => false

/-- The space a bare table word is read in: the first in which it is one whole instruction, else the
format B match class, where an END token may be shorter than its row's word (spec 30 R103). -/
def tableSpace (c : Config) (nbits w : Nat) : Space :=
  ((tableSpaces c).find? (decodesWhole c (tableBytes nbits w))).getD (.tokenB c.bMatchFlag)

/-- The instruction the decoder reads from a table word, under the reference configuration (log 16). -/
def decodeTableWord (nbits w : Nat) : Option Instr :=
  match decode Config.reference (tableSpace Config.reference nbits w) (tableBytes nbits w) with
  | .ok (i, _) => some i
  | .error _ => none

end Sys2Proof
end

