-- ==== Sys2Proof/Machine/Container.lean ====
section
/-! DEFINITION. Container framing on the host's side (spec 46): the meanings of the two headers, which
are UNWRAP_A and UNWRAP_B on the file image, and WRAP_A. -/

namespace Sys2Proof.Machine

/-- A failed UNWRAP (spec 46 R270, 92 D18): the cause FORMAT_ERROR is raised and no command is
started, so the driver's pending actions are dropped (log 12). -/
def formatError (s : State) : State := { raiseFault .formatError s with host := [] }

/-- HDR_A (spec 46 R272): UNWRAP_A on the file whose header this is. The length comparison is on
unbounded integers; the original size is not checked (90 C10). IN beyond the payload keeps its bytes
(70 R334). -/
def execHdrA (compressedSize originalSize : Size) (s : State) : Result :=
  if s.status = .busy then .refused .hostWhileBusy
  else if s.file.length = 16 + compressedSize.toNat then
    .next { s with
      inp := s.inp.placeBytes (s.file.drop 16)
      inLen := compressedSize
      decl := originalSize }
  else .next (formatError s)

/-- HDR_B (spec 46 R273): UNWRAP_B on the file whose header this is. IN beyond the payload keeps its
bytes (70 R334). -/
def execHdrB (decompressedSize : Size) (s : State) : Result :=
  if s.status = .busy then .refused .hostWhileBusy
  else if s.file.length < 8 ∨ s.cfg.bMaxDeclared < decompressedSize then .next (formatError s)
  else if sizeLimit ≤ s.file.length - 8 then .refused .sizeTooLarge
  else .next { s with
    inp := s.inp.placeBytes (s.file.drop 8)
    inLen := BitVec.ofNat 32 (s.file.length - 8)
    decl := decompressedSize }

/-- WRAP_A (spec 46 R271): the file image of a payload and the length of what was compressed. -/
def wrapA (c : Config) (payload : List Byte) (n : Size) : List Byte :=
  encode c (.hdrA (BitVec.ofNat 32 payload.length) n) ++ payload

/-- `OUT[a .. a + n - 1]`, if every byte has a value. -/
def outRun (s : State) : Nat → Nat → Option (List Byte)
  | 0, _ => some []
  | n + 1, a =>
    match readOut s a, outRun s n (a + 1) with
    | some b, some bs => some (b :: bs)
    | _, _ => none

/-- The result of a finished command, `OUT[0 .. OUT_LEN-1]` (spec 70 R338). -/
def outBytes (s : State) : Option (List Byte) := outRun s s.outLen.toNat 0

end Sys2Proof.Machine
end

