-- ==== Sys2Proof/Machine/Operands.lean ====
section
/-! DEFINITION. Operand assembly of every token (spec 30 R105), the encoder's packing (R106) and the
addressing forms of the copy engines. Every value is unsigned. -/

namespace Sys2Proof.Machine

/-- Format A DIST: the 12-bit field, where 0 stands for distance 4096 (spec 44 R225). -/
def aDist (h : BitVec 4) (dLo : Byte) : BitVec 13 := (distField h dLo).setWidth 13

/-- Format A LEN: the field L plus `A_MIN_MATCH` (spec 44 R225). -/
def aLen (c : Config) (l : BitVec 4) : BitVec 9 := BitVec.ofNat 9 (l.toNat + c.aMinMatch)

/-- The distance a format A field value means (spec 30 R93, R108). -/
def aDistance (d : BitVec 13) : Nat := if d = 0 then 4096 else d.toNat

/-- `RD = (WR - DIST) & 0x0FFF` (spec 44 R225). -/
def aReadIndex (wr : Cursor) (d : BitVec 13) : RingIdx := ringIndex (wr - d.setWidth 16)

/-- Format B short distance `256 - c` (spec 45 R246). -/
def bShortDist (c : Byte) : BitVec 13 := BitVec.ofNat 13 (256 - c.toNat)

/-- Format B long distance (spec 45 R247). -/
def bLongDist (h : BitVec 4) (dLo : Byte) : BitVec 13 := (distField h dLo).setWidth 13

/-- Format B short LEN (spec 45 R246). -/
def bShortLength (c : Config) : BitVec 9 := BitVec.ofNat 9 c.bShortLen

/-- Format B long LEN, selector plus `B_MIN_LEN` (spec 45 R248). -/
def bLongLength (c : Config) (sel : BitVec 4) : BitVec 9 := BitVec.ofNat 9 (sel.toNat + c.bMinLen)

/-- Format B superlength LEN, `B_MIN_SUPERLEN` plus the extension byte (spec 45 R249, 90 C6). -/
def bSuperLength (c : Config) (e : Byte) : BitVec 9 := BitVec.ofNat 9 (c.bMinSuperLen + e.toNat)

/-- The bytes a format B match copies: `LEN + B_COPY_BIAS` (spec 45 R251). -/
def bCopyCount (c : Config) (len : BitVec 9) : Nat := len.toNat + c.bCopyBias

/-- The encoder's first match byte: distance bits 11 to 8, then length minus `A_MIN_MATCH` (spec 30 R106). -/
def encMatchByte1 (c : Config) (d l : Nat) : Byte :=
  ((BitVec.ofNat 8 (d >>> 8) &&& 0x0F) <<< 4) ||| BitVec.ofNat 8 (l - c.aMinMatch)

/-- The encoder's second match byte: distance bits 7 to 0 (spec 30 R106). -/
def encMatchByte2 (d : Nat) : Byte := BitVec.ofNat 8 d

end Sys2Proof.Machine
end

