-- ==== Sys2Proof/Machine/TokenA.lean ====
section
/-! DEFINITION. The format A tokens as the decoder executes them (spec 44). A meaning takes the state
in which the token's flag has been read and IP stands at the token's first byte (log 23). -/

namespace Sys2Proof.Machine

/-- COPY_A (spec 44 R226), the steps still to do: each reads the ring before it writes it. -/
def copyA : Nat → State → Flow Unit
  | 0, s => .go () s
  | n + 1, s =>
    (putOut (ringGet s s.rd) s).bind fun _ t =>
      copyA n { ringPut (ringGet s s.rd) t with rd := t.rd + 1 }

/-- A.LIT (spec 44 R224). -/
def execALit (b : Byte) (s : State) : Result :=
  ((putOut b (consume 1 s)).bind fun _ t => .go () (ringPut b t)).result

/-- The registers A.MATCH sets before its copy (spec 44 R225). -/
def setMatchA (h l : BitVec 4) (dLo : Byte) (s : State) : State :=
  { s with
    dist := aDist h dLo
    len := aLen s.cfg l
    rd := aReadIndex s.wr (aDist h dLo) }

/-- A.MATCH (spec 44 R225, R226). -/
def execAMatch (h l : BitVec 4) (dLo : Byte) (s : State) : Result :=
  (copyA (aLen s.cfg l).toNat (setMatchA h l dLo (consume 2 s))).result

end Sys2Proof.Machine
end

