-- ==== Sys2Proof/Machine/TokenB.lean ====
section
/-! DEFINITION. The format B tokens as the decoder executes them (spec 45). A meaning takes the state
in which the token's flag has been read and IP stands at the token's first byte (log 23). -/

namespace Sys2Proof.Machine

/-- COPY_B (spec 45 R252), the steps still to do: the read-back precedes the write. -/
def copyB : Nat → State → Flow Unit
  | 0, s => .go () s
  | n + 1, s => (getOut s.dist.toNat s).bind fun b t => (putOut b t).bind fun _ u => copyB n u

/-- The match tokens' common end: DIST and LEN are set, then COPY_B (spec 45 R246 to R249). -/
def matchB (d : BitVec 13) (l : BitVec 9) (s : State) : Flow Unit :=
  copyB (bCopyCount s.cfg l) { s with dist := d, len := l }

/-- B.LIT (spec 45 R244). -/
def execBLit (b : Byte) (s : State) : Result := (putOut b (consume 1 s)).result

/-- B.SHORT (spec 45 R246). -/
def execBShort (c : Byte) (s : State) : Result :=
  (matchB (bShortDist c) (bShortLength s.cfg) (consume 1 s)).result

/-- B.LONG (spec 45 R248). -/
def execBLong (sel h : BitVec 4) (dLo : Byte) (s : State) : Result :=
  (matchB (bLongDist h dLo) (bLongLength s.cfg sel) (consume 2 s)).result

/-- B.SUPER (spec 45 R249). -/
def execBSuper (h : BitVec 4) (dLo e : Byte) (s : State) : Result :=
  (matchB (bLongDist h dLo) (bSuperLength s.cfg e) (consume 3 s)).result

/-- The end of DEC_B after END (spec 45 R253). -/
def endB (s : State) : State := if s.op = s.decl then finish s else raiseFault .sizeMismatch s

/-- B.END (spec 45 R250, R253): the selector is not examined, nothing is copied; DIST was assembled
as 0 (R247; log 18). -/
def execBEnd (_sel : BitVec 4) (s : State) : Result := .next (endB { consume 2 s with dist := 0 })

end Sys2Proof.Machine
end

