-- ==== Sys2Proof/Machine/Dispatch.lean ====
section
/-! DEFINITION. One arm per constructor of Instr, each a direct call of its meaning. -/

namespace Sys2Proof.Machine

/-- What an instruction does in a state. -/
def exec (i : Instr) (s : State) : Host.Outcome State Fault Refusal :=
  match i with
  | .aLit b => Sys2Proof.Machine.execALit b s
  | .aMatch h l dLo => Sys2Proof.Machine.execAMatch h l dLo s
  | .bLit b => Sys2Proof.Machine.execBLit b s
  | .bShort c => Sys2Proof.Machine.execBShort c s
  | .bLong sel h dLo => Sys2Proof.Machine.execBLong sel h dLo s
  | .bSuper h dLo e => Sys2Proof.Machine.execBSuper h dLo e s
  | .bEnd sel => Sys2Proof.Machine.execBEnd sel s
  | .encA => Sys2Proof.Machine.execEncA s
  | .decA => Sys2Proof.Machine.execDecA s
  | .decB => Sys2Proof.Machine.execDecB s
  | .noCommand => Sys2Proof.Machine.execNoCommand s
  | .hdrA compressedSize originalSize => Sys2Proof.Machine.execHdrA compressedSize originalSize s
  | .hdrB decompressedSize => Sys2Proof.Machine.execHdrB decompressedSize s

end Sys2Proof.Machine
end

