-- ==== Sys2Proof/Machine/MatchSearch.lean ====
section
/-! DEFINITION. The greedy longest-match search of the encoder (spec 41). `look` is the remaining
input it may look at, `IN[IP .. IP + lim - 1]` with `lim = min(A_MAX_MATCH, IN_LEN - IP)`: the result
is a function of RING, WR and those bytes alone (R158). -/

namespace Sys2Proof.Machine

/-- The ring part of HIST: `RING_GET(WR - d + k)` (spec 41 R151, 40 R133). -/
def ringHist (s : State) (d k : Nat) : Byte :=
  ringGet s (ringIndex (s.wr - BitVec.ofNat 16 d + BitVec.ofNat 16 k))

/-- HIST(d, k) (spec 41 R151): at offsets at or beyond the distance, the byte the decoder will by
then have written, which is an input byte. The literal variant HIST' is R161. -/
def hist (s : State) (look : List Byte) (d k : Nat) : Byte :=
  if k < d ∨ s.cfg.matcher = .literalFormula then ringHist s d k else look.getD (k - d) 0

/-- The run of equal bytes at distance `d` from offset `k`, over the input bytes left to compare. -/
def runLen (s : State) (look : List Byte) (d : Nat) : Nat → List Byte → Nat
  | _, [] => 0
  | k, b :: bs => if hist s look d k = b then runLen s look d (k + 1) bs + 1 else 0

/-- MATCH_LEN(d) (spec 41 R152). -/
def matchLen (s : State) (look : List Byte) (d : Nat) : Nat := runLen s look d 0 look

/-- The scan of FIND_MATCH over `n` distances from `d`, from a best (length, distance): an update on
strictly greater only, and a stop at `A_MAX_MATCH` (spec 41 R153, R154). -/
def scan (s : State) (look : List Byte) : Nat → Nat → Nat × Nat → Nat × Nat
  | 0, _, best => best
  | n + 1, d, best =>
    if best.1 < matchLen s look d then
      if matchLen s look d = s.cfg.aMaxMatch then (matchLen s look d, d)
      else scan s look n (d + 1) (matchLen s look d, d)
    else scan s look n (d + 1) best

/-- The result of FIND_MATCH: (best length, best distance), (0, 0) when no byte matches (spec 41
R153, 92 D6). -/
def bestMatch (s : State) (look : List Byte) : Nat × Nat := scan s look s.cfg.aMaxDist 1 (0, 0)

/-- FIND_MATCH (spec 41 R153): it writes BEST_LEN and BEST_DIST only. -/
def findMatch (look : List Byte) (s : State) : State :=
  { s with
    bestLen := BitVec.ofNat 5 (bestMatch s look).1
    bestDist := BitVec.ofNat 13 (bestMatch s look).2 }

/-- How far the search may look ahead (spec 41 R152). -/
def lookLimit (s : State) : Nat := min s.cfg.aMaxMatch (s.inLen.toNat - s.ip.toNat)

/-- The input bytes the search may look at (spec 20 R70). -/
def lookAhead (s : State) : List Byte := inRun s (lookLimit s) s.ip.toNat

end Sys2Proof.Machine
end

