-- ==== Sys2Proof/Machine/EncodeA.lean ====
section
/-! DEFINITION. One pass of the format A encoder's loop (spec 43 R202 to R206). -/

namespace Sys2Proof.Machine

/-- `RING_PUT(IN[IP]); IP <- IP + 1`, `n` times (spec 43 R204). -/
def ringPutInput : Nat → State → Flow Unit
  | 0, s => .go () s
  | n + 1, s =>
    match readIn s s.ip.toNat with
    | some b => ringPutInput n (consume 1 (ringPut b s))
    | none => .halt (.fault .inUnplaced)

/-- Literal token emission (spec 43 R203). -/
def emitLiteral (s : State) : Flow Unit :=
  match readIn s s.ip.toNat with
  | some b => (putOut b (flagwPut s.cfg.aLitFlag s)).bind fun _ t => .go () (consume 1 (ringPut b t))
  | none => .halt (.fault .inUnplaced)

/-- Match token emission for BEST_LEN and BEST_DIST (spec 43 R204). -/
def emitMatch (s : State) : Flow Unit :=
  (putOut (encMatchByte1 s.cfg s.bestDist.toNat s.bestLen.toNat) (flagwPut (!s.cfg.aLitFlag) s)).bind fun _ t =>
    (putOut (encMatchByte2 s.bestDist.toNat) t).bind fun _ u => ringPutInput s.bestLen.toNat u

/-- The decision of spec 43 R202: a match of at least `A_MIN_MATCH` is always taken. -/
def emitToken (s : State) : Flow Unit :=
  if s.cfg.aMinMatch ≤ s.bestLen.toNat then emitMatch s else emitLiteral s

/-- The end of ENC_A (spec 43 R206). -/
def encFinish (s : State) : State := finish (flagwFinish s)

/-- One pass of the loop: search, emit a token, close a full group; at the end of the input, finish
(spec 43 R209). The search reads its look-ahead before it compares (log 26). -/
def encTurn (s : State) : Result :=
  if s.ip < s.inLen then
    if (lookAhead s).length = lookLimit s then
      ((emitToken (findMatch (lookAhead s) s)).bind fun _ t => closeIfFull t).result
    else .fault .inUnplaced
  else .next (encFinish s)

end Sys2Proof.Machine
end

