-- ==== Sys2Proof/Machine/Drive.lean ====
section
/-! DEFINITION. One move of the machine: the engine's while STATE is BUSY, otherwise the host's
oldest pending action (spec 00 R13, 70 R339; log 1, 9); and the placing of an instruction word where
the machine takes its next instruction (log 17). -/

namespace Sys2Proof.Machine

/-! ## The engine -/

/-- The FETCH that finds no byte among those a token still needs (spec 20 R66, 44 R228, 45 R254). -/
def missingByte (s : State) : Result :=
  if s.ip.toNat + (inRun s 3 s.ip.toNat).length < s.inLen.toNat then .fault .inUnplaced
  else .next (raiseFault .inputUnderrun s)

/-- Fetch, decode and execute the token at IP; its bytes come before its effect (spec 60 R310). No
token is longer than 3 bytes (30 R120). -/
def runToken (sp : Space) (s : State) : Result :=
  match decode s.cfg sp (inRun s 3 s.ip.toNat) with
  | .ok (i, _) => exec i s
  | .error _ => missingByte s

/-- A token of the space its flag bit selects, once the flag has been read. -/
def withFlag (x : Flow Bool) (sp : Bool → Space) : Result :=
  match x with
  | .go f s => runToken (sp f) s
  | .halt r => r

/-- One pass of DEC_A's loop: the output length is tested before each token and nowhere else (spec
44 R222, R223). -/
def decATurn (s : State) : Result :=
  if s.op < s.decl then withFlag (flagrAGet s) .tokenA else .next (finish s)

/-- One pass of DEC_B's loop, which only END leaves (spec 45 R242, R243). -/
def decBTurn (s : State) : Result := withFlag (flagrBGet s) .tokenB

/-- The engine's move: one pass of the loop of the command OPSEL selected at START (spec 70 R332). -/
def engineTurn (s : State) : Result :=
  if s.opsel = 1 then encTurn s
  else if s.opsel = 2 then decATurn s
  else if s.opsel = 3 then decBTurn s
  else .refused .busyWithoutCommand

/-! ## The host -/

/-- START (spec 70 R332): the command of OPSEL. -/
def startCommand (s : State) : Result := exec (commandOf s.opsel) s

/-- The bytes given are placed in IN from index 0, and IN beyond them keeps its bytes (spec 70 R334,
R335). Sizes of 2^32 and more are no input (spec 93 U18; log 13). -/
def fillIn (bytes : List Byte) (n : Size) (s : State) : Result :=
  if bytes.length < sizeLimit then .next { s with inp := s.inp.placeBytes bytes, inLen := n }
  else .refused .sizeTooLarge

/-- An UNWRAP on the file image: a file shorter than its header or with another magic is a
FORMAT_ERROR (spec 46 R272, R273), otherwise the header's meaning. -/
def unwrap (sp : Space) (s : State) : Result :=
  match decode s.cfg sp s.file with
  | .ok (i, _) => exec i s
  | .error _ => .next (formatError s)

/-- WRAP_A of the finished command (spec 46 R271). Its `n` is IN_LEN as the register stands when the host
performs WRAP_A (DESIGN CHOICE, unsafe: log 34); outside DONE it is refused (log 15). -/
def wrapFile (s : State) : Result :=
  if s.status = .done then
    match outBytes s with
    | some p => .next { s with file := wrapA s.cfg p s.inLen }
    | none => .fault .outUnwritten
  else .refused .noResult

/-- What a host action does, STATE not being BUSY. While IN and OUT overlap it acts as if they were still
apart (DESIGN CHOICE, unsafe: log 33). -/
def hostAct (a : HostAction) (s : State) : Result :=
  match a with
  | .writeReg n v => .next (writeReg n v s)
  | .loadIn bytes => fillIn bytes s.inLen s
  | .setFile bytes => .next { s with file := bytes }
  | .fileToIn => fillIn s.file (BitVec.ofNat 32 s.file.length) s
  | .place overlap => .next { s with overlap := overlap }
  | .start => startCommand s
  | .reset => .next (powerOnReset s)
  | .wrapA => wrapFile s
  | .unwrapA => unwrap .headerA s
  | .unwrapB => unwrap .headerB s

/-- The host's move: its oldest pending action; with none the engine waits (spec 60 R298). -/
def hostTurn (s : State) : Result :=
  match s.host with
  | [] => .next s
  | a :: q => hostAct a { s with host := q }

/-- One move of the machine. -/
def machineStep (s : State) : Result := if s.status = .busy then engineTurn s else hostTurn s

/-! ## The document's tools as host actions (spec 46 R275) -/

/-- Compress A, up to its WRAP_A, with `OUT_CAP = outCap`. -/
def compressA (file : List Byte) (outCap : Size) : List HostAction :=
  [.setFile file, .fileToIn, .writeReg 2 outCap, .writeReg 0 1, .start, .wrapA]

/-- Decompress A. -/
def decompressA (file : List Byte) : List HostAction := [.setFile file, .unwrapA, .writeReg 0 2, .start]

/-- Decompress B. -/
def decompressB (file : List Byte) : List HostAction := [.setFile file, .unwrapB, .writeReg 0 3, .start]

/-! ## Placing a table word -/

/-- A state in which the host moves next. -/
def hostNext (s : State) : State := { s with status := if s.status = .busy then .idle else s.status }

/-- A running decoder whose next token bytes are `bs` and then zeros, up to the longest token. -/
def tokenNext (bs : List Byte) (opsel : BitVec 2) (s : State) : State :=
  { s with
    inp := s.inp.placeBytes (bs ++ List.replicate (3 - bs.length) 0)
    inLen := BitVec.ofNat 32 (max 3 bs.length)
    ip := 0
    opsel := opsel
    status := .busy
    cause := .none }

/-- A format A decoder that still owes output, as its loop condition needs (spec 44 R222). -/
def owing (s : State) : State := if s.op < s.decl then s else { s with op := 0, decl := 0xFFFFFFFF }

/-- `s` with the table word placed so that the next step runs its instruction (log 17): a command in
OPSEL with a START pending; a token at IP of a running decoder, its flag bit next in the flag
register; a header as the file image with its UNWRAP pending. -/
def placeWord (s : State) (nbits w : Nat) : State :=
  match tableSpace s.cfg nbits w with
  | .command => { hostNext s with opsel := BitVec.ofNat 2 w, host := .start :: s.host }
  | .tokenA f =>
    { owing (tokenNext (tableBytes nbits w) 2 s) with frByte := if f then 0x80 else 0, frRem := 1 }
  | .tokenB f =>
    { tokenNext (tableBytes nbits w) 3 s with fbReg := if f then 0xFF02 else 0xFF00 }
  | .headerA => { hostNext s with file := tableBytes nbits w, host := .unwrapA :: s.host }
  | .headerB => { hostNext s with file := tableBytes nbits w, host := .unwrapB :: s.host }

end Sys2Proof.Machine
end

