-- ==== Sys2Proof/Machine/Step.lean ====
section
/-! DEFINITION. The step function, and the placing of a table word where it takes its next
instruction. Both are written in Machine/Drive.lean. -/

namespace Sys2Proof.Machine

/-- One step of the machine (log 1). -/
def step (s : State) : Host.Outcome State Fault Refusal := machineStep s

/-- `s` with a table word where the next step takes its instruction (log 16, 17). -/
def State.withFetchWord (s : State) (nbits w : Nat) : State := placeWord s nbits w

end Sys2Proof.Machine
end

