-- ==== Sys2Proof/Machine/Stream.lean ====
section
/-! DEFINITION. Token streams laid out in flag groups (spec 30 R90, R91, R95 to R97) by the assembler
of R124: a tool for streams, not part of the engine (45 R261). -/

namespace Sys2Proof

/-- The flag bit of a token's class. -/
def flagBit (c : Config) (i : Instr) : Bool :=
  match spaceOf c i with
  | .tokenA f | .tokenB f => f
  | _ => false

/-- Flags packed from bit `n - 1` down: the first flag of a format A group is bit 7 (spec 30 R91). -/
def packDown : Nat → List Bool → Byte
  | 0, _ => 0
  | _, [] => 0
  | n + 1, f :: fs => ((BitVec.ofBool f).setWidth 8 <<< n) ||| packDown n fs

/-- Flags packed from bit `k` up: the first flag of a format B group is bit 0 (spec 30 R97). -/
def packUp : Nat → List Bool → Byte
  | _, [] => 0
  | k, f :: fs => ((BitVec.ofBool f).setWidth 8 <<< k) ||| packUp (k + 1) fs

/-- Groups of 8 tokens, the last one not full: it may be empty (spec 30 R90, R95). -/
def groupsA : Nat → List Instr → List (List Instr)
  | 0, ts => [ts]
  | n + 1, ts => if ts.length < groupSize then [ts] else ts.take groupSize :: groupsA n (ts.drop groupSize)

/-- Groups of at most 8 tokens, none of them empty (spec 30 R96). -/
def groupsB : Nat → List Instr → List (List Instr)
  | 0, _ => []
  | _, [] => []
  | n + 1, ts => ts.take groupSize :: groupsB n (ts.drop groupSize)

/-- A format A payload (spec 30 R90, R124). -/
def assembleA (c : Config) (ts : List Instr) : List Byte :=
  (groupsA ts.length ts).flatMap fun g => packDown groupSize (g.map (flagBit c)) :: g.flatMap (encode c)

/-- A format B payload (spec 30 R96, R124). -/
def assembleB (c : Config) (ts : List Instr) : List Byte :=
  (groupsB ts.length ts).flatMap fun g => packUp 0 (g.map (flagBit c)) :: g.flatMap (encode c)

end Sys2Proof
end

