-- ==== Sys2Proof/Machine/Run.lean ====
section
/-! DEFINITION. A whole command: the steps from START to the end the host observes (spec 00 R13,
92 D1), with the bound on their number that spec 60 R313 gives. -/

namespace Sys2Proof.Machine

/-- At most `n` steps, stopping when STATE is not BUSY. -/
def runToEnd : Nat → State → Result
  | 0, s => .next s
  | n + 1, s =>
    if s.status = .busy then
      match step s with
      | .next t => runToEnd n t
      | .fault r => .fault r
      | .refused r => .refused r
    else .next s

/-- Steps in which a running command ends: each token or pass advances IP (ENC_A, DEC_B) or OP
(DEC_A), and one more step ends the command (spec 60 R313). -/
def stepBound (s : State) : Nat :=
  if s.opsel = 2 then s.decl.toNat - s.op.toNat + 1 else s.inLen.toNat - s.ip.toNat + 1

/-- START and the whole command it launches: the one transition the host sees (spec 70 R332). -/
def runCommand (s : State) : Result :=
  match startCommand s with
  | .next t => runToEnd (stepBound t) t
  | .fault r => .fault r
  | .refused r => .refused r

end Sys2Proof.Machine
end

