-- ==== Sys2Proof/Safety.lean ====
section
/-! DEFINITION. What claims are stated in: what the host observes at the end of a command, and the
invariants of the machine. -/

namespace Sys2Proof.Machine

/-- What the host observes when a command has ended (spec 70 R338). -/
structure Observation where
  /-- STATE. -/
  status : Status
  /-- CAUSE. -/
  cause : Cause
  /-- `OUT[0 .. OUT_LEN-1]`, after DONE. -/
  result : Option (List Byte)
  /-- IN_POS, after DONE. -/
  consumed : Option Size
  deriving DecidableEq, Repr

/-- The observation of a state. -/
def observe (s : State) : Observation :=
  if s.status = .done then ⟨s.status, s.cause, outBytes s, some s.inPos⟩
  else ⟨s.status, s.cause, none, none⟩

/-- Every memory is in its canonical form: ring cells below 4096 and none equal to `FILL`, addresses
of IN and OUT below 2^32 (log 5). -/
def MemoriesCanonical (s : State) : Prop :=
  Memory.wf (unlisted s.cfg .ring) ringSize s.ring = true ∧
  Memory.wf (unlisted s.cfg .inp) sizeLimit s.inp = true ∧
  Memory.wf (unlisted s.cfg .out) sizeLimit s.out = true

/-- CAUSE is NONE exactly when STATE is not FAULT (spec 60 R304). -/
def CauseAgrees (s : State) : Prop := s.status = .fault ↔ s.cause ≠ .none

/-- The first `n` bytes of OUT have values. -/
def OutWritten (s : State) (n : Nat) : Prop := ∀ a, a < n → (readOut s a).isSome = true

/-- The flag writer between operations (spec 42 R176). -/
def WriterOk (s : State) : Prop :=
  s.faSlot < s.op ∧ s.faCnt.toNat ≤ 7 ∧ s.faAcc.toNat < 2 ^ s.faCnt.toNat

/-- While a command runs: it has a code, the cursors are within their bounds (spec 10 R22, R27), the
output so far has been written (R44), and the flag registers of its format are in range. -/
def RunningOk (s : State) : Prop :=
  s.status = .busy →
    s.opsel ≠ 0 ∧ s.ip ≤ s.inLen ∧ s.op ≤ cap s ∧ OutWritten s s.op.toNat ∧
    (s.opsel = 1 → WriterOk s) ∧ (s.opsel = 2 → s.frRem.toNat ≤ 8)

/-- After DONE every byte of the result has a value (spec 10 R38). -/
def ResultWritten (s : State) : Prop := s.status = .done → OutWritten s s.outLen.toNat

/-- The machine's invariant. -/
def EngineInv (s : State) : Prop := MemoriesCanonical s ∧ CauseAgrees s ∧ RunningOk s ∧ ResultWritten s

/-- The history byte `d` positions back in the ring (spec 40 R134). -/
def historyByte (s : State) (d : Nat) : Byte := ringGet s (ringIndex (s.wr - BitVec.ofNat 16 d))

/-- The ring invariant (spec 10 R54) of a state that has emitted `e` bytes, read back by `emitted`:
WR is `WARM + e` modulo 65536, and the byte `d` back is the byte emitted `d` positions ago, or
`FILL` when fewer have been emitted. -/
def RingHolds (s : State) (e : Nat) (emitted : Nat → Option Byte) : Prop :=
  s.wr = s.cfg.warm + BitVec.ofNat 16 e ∧
  ∀ d, 1 ≤ d → d ≤ 4096 →
    some (historyByte s d) = if d ≤ e then emitted (e - d) else some s.cfg.fill

/-- The ring invariant while a format A command runs: the decoder has emitted OUT up to OP, the
encoder IN up to IP (spec 10 R54, 40 R130). -/
def RingInv (s : State) : Prop :=
  s.status = .busy →
    (s.opsel = 1 → RingHolds s s.ip.toNat (readIn s)) ∧ (s.opsel = 2 → RingHolds s s.op.toNat (readOut s))

/-- IN holds the bytes `p` from index 0 on, and any bytes beyond them. -/
def InputIs (p : List Byte) (s : State) : Prop := ∀ k, k < p.length → readIn s k = p[k]?

/-- From `s` to `t` the bytes `p` were placed in IN from index 0 on, and IN beyond them kept its bytes (spec
70 R334). -/
def PlacedIn (p : List Byte) (s t : State) : Prop :=
  InputIs p t ∧ ∀ k, p.length ≤ k → readIn t k = readIn s k

/-- The host placed every byte of IN it declared (spec 70 R335). -/
def InputPlaced (s : State) : Prop := ∀ a, a < s.inLen.toNat → (readIn s a).isSome = true

/-! ## Words that statements use -/

/-- What is sure of a state `t` in which `f` was raised from `s` (spec 60 R298, R299): STATE, CAUSE,
the control registers and IN. -/
def Raised (f : Cause) (s t : State) : Prop :=
  t.status = .fault ∧ t.cause = f ∧ t.opsel = s.opsel ∧ t.inLen = s.inLen ∧ t.outCap = s.outCap ∧
    t.decl = s.decl ∧ t.inp = s.inp

/-- From `s` to `t`, OUT has the `n` bytes `f 0, f 1, …` from index OP on, and no other byte of it has
changed. -/
def OutAppends (s t : State) (n : Nat) (f : Nat → Option Byte) : Prop :=
  (∀ k, k < n → readOut t (s.op.toNat + k) = f k) ∧
  ∀ a, a < s.op.toNat ∨ s.op.toNat + n ≤ a → readOut t a = readOut s a

/-- From `s` to `t`, RING has the `n` bytes `f 0, f 1, …` in the cells from WR on, and no other cell
has changed. -/
def RingAppends (s t : State) (n : Nat) (f : Nat → Byte) : Prop :=
  (∀ k, k < n → ringGet t (ringIndex (s.wr + BitVec.ofNat 16 k)) = f k) ∧
  ∀ i, (∀ k, k < n → i ≠ ringIndex (s.wr + BitVec.ofNat 16 k)) → ringGet t i = ringGet s i

/-- Byte `k` of a format A match at distance `d`: the last `d` bytes of history, repeated (spec 44
R226, R232). -/
def repeatedHistory (s : State) (d k : Nat) : Byte := historyByte s (d - k % d)

/-- The outcome `r` of a format B match token of `n` bytes, distance `d` and length `l` from `s`: the
faults of COPY_B, the read first, and otherwise `l + B_COPY_BIAS` bytes of OUT, the last `d` of them
repeated, with nothing but IP, DIST, LEN, OP and OUT written (spec 45 R246 to R252). -/
def MatchBOutcome (r : Result) (s : State) (n d l : Nat) : Prop :=
  (s.op.toNat < d → 0 < l + s.cfg.bCopyBias → ∃ t, r = .next t ∧ Raised .backrefUnderflow s t) ∧
  (OutWritten s s.op.toNat → 1 ≤ d → d ≤ s.op.toNat → 0 < l + s.cfg.bCopyBias →
    (cap s).toNat < s.op.toNat + (l + s.cfg.bCopyBias) → ∃ t, r = .next t ∧ Raised .outputOverrun s t) ∧
  (OutWritten s s.op.toNat → 1 ≤ d → d ≤ s.op.toNat → s.op.toNat + (l + s.cfg.bCopyBias) ≤ (cap s).toNat →
    ∃ t, r = .next t ∧
      t = { s with
        ip := s.ip + BitVec.ofNat 32 n
        dist := BitVec.ofNat 13 d
        len := BitVec.ofNat 9 l
        op := s.op + BitVec.ofNat 32 (l + s.cfg.bCopyBias)
        out := t.out } ∧
      OutAppends s t (l + s.cfg.bCopyBias) fun k => readOut s (s.op.toNat - d + k % d))

/-- `n` flags read one after another. -/
def readFlags (get : State → Flow Bool) : Nat → State → Flow (List Bool)
  | 0, s => .go [] s
  | n + 1, s => (get s).bind fun f t => (readFlags get n t).bind fun fs u => .go (f :: fs) u

/-- `n` bytes fetched one after another. -/
def fetchRun : Nat → State → Flow (List Byte)
  | 0, s => .go [] s
  | n + 1, s => (fetch s).bind fun b t => (fetchRun n t).bind fun bs u => .go (b :: bs) u

/-- `n` tokens read one after another, each after its flag, and not executed. -/
def readTokens (get : State → Flow Bool) (sp : Bool → Space) : Nat → State → Flow (List Instr)
  | 0, s => .go [] s
  | n + 1, s => (get s).bind fun f t =>
    match decode t.cfg (sp f) (inRun t 3 t.ip.toNat) with
    | .ok (i, _) => (readTokens get sp n (consume i.bytes t)).bind fun is u => .go (i :: is) u
    | .error _ => .halt (missingByte t)

/-- Flags recorded one after another. -/
def putFlags (fs : List Bool) (s : State) : State := fs.foldl (fun t f => flagwPut f t) s

/-- The outcome of a command as the host observes it. -/
def observed : Result → Host.Outcome Observation Fault Refusal
  | .next s => .next (observe s)
  | .fault r => .fault r
  | .refused r => .refused r

/-- A codec command can be launched: STATE is not BUSY, IN and OUT are disjoint (spec 70 R332, R335). -/
def Launchable (s : State) : Prop := s.status ≠ .busy ∧ s.overlap = false

/-- Two states a command cannot tell apart at START: the control registers, IN and the configuration
(spec 70 R334). -/
def SameCommand (s u : State) : Prop :=
  u.cfg = s.cfg ∧ u.opsel = s.opsel ∧ u.inLen = s.inLen ∧ u.outCap = s.outCap ∧ u.decl = s.decl ∧ u.inp = s.inp

end Sys2Proof.Machine
end

