-- ==== Sys2Proof/Certificates/Slice0/Obligations.lean ====
section
/-! DEFINITION. The statements for the provers. Each docstring names the rule of the spec it
formalises; where a clause is the model's own choice it names the log entry. -/

open Sys2Proof Sys2Proof.Machine

/-! ## Encoding -/

/-- Words written out from the encodings of spec 30 decode to the instructions they stand for. -/
def Obligations.WrittenWordsDecode : Prop :=
  decode Config.reference (.tokenA true) [0x41] = .ok (.aLit 0x41, []) ∧
  decode Config.reference (.tokenA false) [0xF0, 0x05] = .ok (.aMatch 0xF 0x0 0x05, []) ∧
  decode Config.reference (.tokenB false) [0x41] = .ok (.bLit 0x41, []) ∧
  decode Config.reference (.tokenB true) [0x60] = .ok (.bShort 0x60, []) ∧
  decode Config.reference (.tokenB true) [0x4F, 0x01] = .ok (.bLong 0x4 0xF 0x01, []) ∧
  decode Config.reference (.tokenB true) [0x5A, 0x00, 0xFF] = .ok (.bSuper 0xA 0x00 0xFF, []) ∧
  decode Config.reference (.tokenB true) [0x50, 0x00] = .ok (.bEnd 0x5, []) ∧
  decode Config.reference .command [0x00] = .ok (.noCommand, []) ∧
  decode Config.reference .command [0x01] = .ok (.encA, []) ∧
  decode Config.reference .command [0x02] = .ok (.decA, []) ∧
  decode Config.reference .command [0x03] = .ok (.decB, []) ∧
  decode Config.reference .headerA
    [0x56, 0x52, 0x41, 0x4D, 0x2D, 0x57, 0x41, 0x44, 0x05, 0, 0, 0, 0x14, 0, 0, 0] = .ok (.hdrA 5 20, []) ∧
  decode Config.reference .headerB [0x4C, 0x5A, 0x4E, 0x50, 0, 0, 0, 0x06] = .ok (.hdrB 6, [])

/-- Decoding the encoding of any well-formed instruction, in its own space and before any bytes, gives
the instruction back and leaves those bytes (spec 30). -/
def Obligations.DecodeOfEncode : Prop :=
  ∀ (c : Config) (i : Instr) (rest : List Byte), i.wf c = true →
    decode c (spaceOf c i) (encode c i ++ rest) = .ok (i, rest)

/-- Whatever decodes is the encoding of a well-formed instruction of that space: no bit is dropped and
no two encodings of a space mean one instruction (spec 30 R92 to R104, R110, R111, R115). No token
encoding is illegal: a decoder with enough bytes always has a token (R118, R119). -/
def Obligations.DecodedBytesAreAnEncoding : Prop :=
  (∀ (c : Config) (sp : Space) (bs rest : List Byte) (i : Instr), decode c sp bs = .ok (i, rest) →
    i.wf c = true ∧ sp = spaceOf c i ∧ bs = encode c i ++ rest) ∧
  (∀ (c : Config) (f : Bool) (b1 b2 : Byte) (r : List Byte),
    ∃ i r', decode c (.tokenA f) (b1 :: b2 :: r) = .ok (i, r')) ∧
  (∀ (c : Config) (f : Bool) (b1 b2 b3 : Byte) (r : List Byte),
    ∃ i r', decode c (.tokenB f) (b1 :: b2 :: b3 :: r) = .ok (i, r'))

/-- A decoder reads the tokens of a stream laid out in flag groups back, in order and to its end: in format
A but for the empty trailing flag byte (spec 30 R90, R91, R95 to R97, R120, R124). -/
def Obligations.AssembledStreamsReadBack : Prop :=
  (∀ (s : State) (ts : List Instr), (∀ i, i ∈ ts → ∃ f, spaceOf s.cfg i = .tokenA f) →
    InputIs (assembleA s.cfg ts) s → s.inLen.toNat = (assembleA s.cfg ts).length →
    s.ip = 0 → s.frRem = 0 →
    ∃ t, readTokens flagrAGet .tokenA ts.length s = .go ts t ∧
      t.ip.toNat + (if ts.length % 8 = 0 then 1 else 0) = s.inLen.toNat) ∧
  (∀ (s : State) (ts : List Instr), s.cfg.bReload = 0xFF00 →
    (∀ i, i ∈ ts → i.wf s.cfg = true ∧ ∃ f, spaceOf s.cfg i = .tokenB f) →
    InputIs (assembleB s.cfg ts) s → s.inLen.toNat = (assembleB s.cfg ts).length →
    s.ip = 0 → s.fbReg = 0 →
    ∃ t, readTokens flagrBGet .tokenB ts.length s = .go ts t ∧ t.ip = s.inLen)

/-- Operand assembly of every token (spec 30 R105): unsigned, with the parameters of spec 00 R7 and R9
by name and the values they have in the reference configuration. -/
def Obligations.OperandAssembly : Prop :=
  (∀ (c : Config), c.wf = true → ∀ (sel h l : BitVec 4) (lo e b : Byte) (len : BitVec 9),
    (aDist h lo).toNat = h.toNat * 256 + lo.toNat ∧
    (aLen c l).toNat = l.toNat + c.aMinMatch ∧
    (bShortDist b).toNat = 256 - b.toNat ∧
    (bShortLength c).toNat = c.bShortLen ∧
    (bLongDist h lo).toNat = h.toNat * 256 + lo.toNat ∧
    (bLongLength c sel).toNat = sel.toNat + c.bMinLen ∧
    (bSuperLength c e).toNat = c.bMinSuperLen + e.toNat ∧
    bCopyCount c len = len.toNat + c.bCopyBias) ∧
  Config.reference.aMinMatch = 3 ∧ Config.reference.bShortLen = 2 ∧ Config.reference.bMinLen = 3 ∧
  Config.reference.bMinSuperLen = 9 ∧ Config.reference.bCopyBias = 1

/-- The encoder's two match bytes (spec 30 R106), and that the decoder's operand assembly gives back
the distance, 4096 through field 0, and the length. -/
def Obligations.EncoderPacking : Prop :=
  ∀ (c : Config) (d l : Nat) (h lo4 : BitVec 4) (dLo : Byte), c.wf = true → 1 ≤ d → d ≤ 4096 →
    c.aMinMatch ≤ l → l ≤ c.aMinMatch + 15 → encMatchByte1 c d l = h ++ lo4 → encMatchByte2 d = dLo →
    (h ++ lo4).toNat = (d / 256 % 16) * 16 + (l - c.aMinMatch) ∧ dLo.toNat = d % 256 ∧
    aDistance (aDist h dLo) = d ∧ (aLen c lo4).toNat = l

/-! ## The shared operations -/

/-- FETCH (spec 20 R66): the check, then the byte at IP and IP one further, nothing else changed. -/
def Obligations.FetchChecksFirst : Prop :=
  ∀ (s : State),
    (s.inLen ≤ s.ip → fetch s = .halt (.next (raiseFault .inputUnderrun s))) ∧
    (∀ b, s.ip < s.inLen → readIn s s.ip.toNat = some b → fetch s = .go b { s with ip := s.ip + 1 })

/-- A token's bytes are those that FETCH would return one after another, and a token cut short is the
FETCH that raises INPUT_UNDERRUN (spec 44 R223, 45 R243; log 23). -/
def Obligations.TokenFetchIsFetches : Prop :=
  ∀ (s : State) (f : Bool) (sp : Space), sp = .tokenA f ∨ sp = .tokenB f →
    (∀ i rest, decode s.cfg sp (inRun s 3 s.ip.toNat) = .ok (i, rest) →
      fetchRun i.bytes s = .go (encode s.cfg i) (consume i.bytes s)) ∧
    (∀ e, InputPlaced s → decode s.cfg sp (inRun s 3 s.ip.toNat) = .error e →
      ∃ t, runToken sp s = .next t ∧ Raised .inputUnderrun s t)

/-- PUT_OUT and the effective capacity (spec 20 R67, 10 R36): the check, then the byte at OP and OP one
further, no other byte of OUT changed. -/
def Obligations.PutOutChecksFirst : Prop :=
  ∀ (v : Byte) (s : State),
    (s.opsel = 1 → cap s = s.outCap) ∧ (s.opsel = 2 ∨ s.opsel = 3 → cap s = s.decl) ∧
    (cap s ≤ s.op → putOut v s = .halt (.next (raiseFault .outputOverrun s))) ∧
    (s.op < cap s → ∃ t, putOut v s = .go () t ∧
      t = { s with op := s.op + 1, out := t.out } ∧ OutAppends s t 1 fun _ => some v)

/-- GET_OUT (spec 20 R68): the check, then the byte `dist` before OP; nothing is written. -/
def Obligations.GetOutChecksFirst : Prop :=
  ∀ (d : Nat) (s : State),
    (s.op.toNat < d → getOut d s = .halt (.next (raiseFault .backrefUnderflow s))) ∧
    (∀ b, 1 ≤ d → d ≤ s.op.toNat → readOut s (s.op.toNat - d) = some b → getOut d s = .go b s)

/-- RING_INIT (spec 40 R131): every cell `FILL`, WR at `WARM`, nothing else; 0 and 3822 in the
reference configuration. -/
def Obligations.RingInitClears : Prop :=
  ∀ (s : State),
    (∀ i, ringGet (ringInit s) i = s.cfg.fill) ∧
    ringInit s = { s with ring := (ringInit s).ring, wr := s.cfg.warm } ∧
    (s.cfg = Config.reference → (ringInit s).wr = 3822 ∧ ∀ i, ringGet (ringInit s) i = 0)

/-- RING_PUT (spec 40 R132): the byte lands at the cell the old cursor designates, WR advances modulo
65536, no other cell and no other register changes. -/
def Obligations.RingPutWritesThenAdvances : Prop :=
  ∀ (b : Byte) (s : State),
    RingAppends s (ringPut b s) 1 (fun _ => b) ∧
    (ringPut b s).wr.toNat = (s.wr.toNat + 1) % 65536 ∧
    ringPut b s = { s with ring := (ringPut b s).ring, wr := (ringPut b s).wr }

/-- FLAGW_CLOSE (spec 42 R173, with FLAGW_RESERVE R171): the finished byte at the reserved slot, a new
slot with placeholder 0 at OP, the accumulator cleared, nothing else changed. After a token's bytes it
runs if and only if the group has 8 tokens. -/
def Obligations.FlagCloseFillsAndReserves : Prop :=
  ∀ (s : State),
    (s.faSlot < s.op → s.op < cap s → ∃ t, flagwClose s = .go () t ∧
      t = { s with op := s.op + 1, faSlot := s.op, faAcc := 0, faCnt := 0, out := t.out } ∧
      readOut t s.faSlot.toNat = some s.faAcc ∧ readOut t s.op.toNat = some 0 ∧
      ∀ a, a ≠ s.faSlot.toNat → a ≠ s.op.toNat → readOut t a = readOut s a) ∧
    (cap s ≤ s.op → ∃ t, flagwClose s = .halt (.next t) ∧ Raised .outputOverrun s t) ∧
    (s.faCnt.toNat = 8 → closeIfFull s = flagwClose s) ∧ (s.faCnt.toNat ≠ 8 → closeIfFull s = .go () s)

/-- FLAGW_FINISH (spec 42 R175): the accumulator shifted left to the top and flushed, the low bits 0;
OP does not move and nothing else changes. -/
def Obligations.FlagFinishAlignsToTheTop : Prop :=
  ∀ (s : State), s.faCnt.toNat ≤ 7 →
    readOut (flagwFinish s) s.faSlot.toNat = some (BitVec.ofNat 8 (s.faAcc.toNat * 2 ^ (8 - s.faCnt.toNat))) ∧
    flagwFinish s = { s with out := (flagwFinish s).out } ∧
    ∀ a, a ≠ s.faSlot.toNat → readOut (flagwFinish s) a = readOut s a

/-- FLAGW_PUT packs up to 8 flags most significant first: the oldest of `c` flags is bit `c - 1`, and
higher bits are 0; only FA_ACC and FA_CNT are written (spec 42 R172, 10 R28, R29). -/
def Obligations.FlagsArePackedOldestHighest : Prop :=
  ∀ (fs : List Bool) (s : State), fs.length ≤ 8 → s.faAcc = 0 → s.faCnt = 0 →
    (putFlags fs s).faCnt.toNat = fs.length ∧
    (∀ j, j < fs.length → fs[j]? = some ((putFlags fs s).faAcc.getLsbD (fs.length - 1 - j))) ∧
    (putFlags fs s).faAcc.toNat < 2 ^ fs.length ∧
    putFlags fs s = { s with faAcc := (putFlags fs s).faAcc, faCnt := (putFlags fs s).faCnt }

/-- FLAGR_A_GET returns the bits of each fetched byte most significant first, 8 a byte, and fetches a
byte only when a flag is asked for and none is left (spec 42 R180, R181). -/
def Obligations.FlagReaderAIsMsbFirst : Prop :=
  ∀ (n : Nat) (s : State), s.frRem = 0 →
    (∀ j, j < (n + 7) / 8 → s.ip.toNat + j < s.inLen.toNat ∧ (readIn s (s.ip.toNat + j)).isSome = true) →
    ∃ fs t, readFlags flagrAGet n s = .go fs t ∧ fs.length = n ∧
      (∀ i, i < n → fs[i]? = (readIn s (s.ip.toNat + i / 8)).map fun b => b.getLsbD (7 - i % 8)) ∧
      t = { s with ip := s.ip + BitVec.ofNat 32 ((n + 7) / 8), frByte := t.frByte, frRem := t.frRem }

/-- FLAGR_B_GET returns the bits of each fetched byte least significant first, 8 a byte, and reloads on
the ninth call, with the reload constant `FF00` (spec 42 R185, R186). -/
def Obligations.FlagReaderBIsLsbFirst : Prop :=
  ∀ (n : Nat) (s : State), s.cfg.bReload = 0xFF00 → s.fbReg = 0 →
    (∀ j, j < (n + 7) / 8 → s.ip.toNat + j < s.inLen.toNat ∧ (readIn s (s.ip.toNat + j)).isSome = true) →
    ∃ fs t, readFlags flagrBGet n s = .go fs t ∧ fs.length = n ∧
      (∀ i, i < n → fs[i]? = (readIn s (s.ip.toNat + i / 8)).map fun b => b.getLsbD (i % 8)) ∧
      t = { s with ip := s.ip + BitVec.ofNat 32 ((n + 7) / 8), fbReg := t.fbReg }

/-! ## Format A tokens -/

/-- A.LIT (spec 44 R224): result, frame and completion; the token's byte is the one at IP; no byte left
raises INPUT_UNDERRUN. -/
def Obligations.ALitToken : Prop :=
  ∀ (s : State),
    (∀ b, s.op < cap s → ∃ t, exec (.aLit b) s = .next t ∧
      t = { s with ip := s.ip + 1, op := s.op + 1, wr := s.wr + 1, out := t.out, ring := t.ring } ∧
      OutAppends s t 1 (fun _ => some b) ∧ RingAppends s t 1 fun _ => b) ∧
    (∀ b, s.ip < s.inLen → readIn s s.ip.toNat = some b →
      runToken (.tokenA s.cfg.aLitFlag) s = exec (.aLit b) s) ∧
    (s.inLen ≤ s.ip → ∃ t, runToken (.tokenA s.cfg.aLitFlag) s = .next t ∧ Raised .inputUnderrun s t)

/-- A.MATCH (spec 44 R225, R226, R232): DIST, LEN and RD from the fields, then `LEN` bytes of history,
the last `d` of them repeated, appended to OUT and RING alike; nothing else changes. Distance field 0
is distance 4096. Fewer than two bytes left raise INPUT_UNDERRUN. -/
def Obligations.AMatchToken : Prop :=
  ∀ (s : State), s.cfg.wf = true →
    (∀ (h l : BitVec 4) (lo : Byte) (d n : Nat), n = l.toNat + s.cfg.aMinMatch →
      d = (if h = 0 ∧ lo = 0 then 4096 else h.toNat * 256 + lo.toNat) → s.op.toNat + n ≤ (cap s).toNat →
      ∃ t, exec (.aMatch h l lo) s = .next t ∧
        t = { s with
          ip := s.ip + 2
          dist := BitVec.ofNat 13 (h.toNat * 256 + lo.toNat)
          len := BitVec.ofNat 9 n
          rd := ringIndex (s.wr - BitVec.ofNat 16 d) + BitVec.ofNat 12 n
          op := s.op + BitVec.ofNat 32 n
          wr := s.wr + BitVec.ofNat 16 n
          out := t.out
          ring := t.ring } ∧
        OutAppends s t n (fun k => some (repeatedHistory s d k)) ∧ RingAppends s t n (repeatedHistory s d)) ∧
    (∀ b1 b2, s.ip.toNat + 1 < s.inLen.toNat → readIn s s.ip.toNat = some b1 →
      readIn s (s.ip.toNat + 1) = some b2 →
      runToken (.tokenA (!s.cfg.aLitFlag)) s = exec (.aMatch (b1.extractLsb' 4 4) (b1.extractLsb' 0 4) b2) s) ∧
    (InputPlaced s → s.inLen.toNat < s.ip.toNat + 2 →
      ∃ t, runToken (.tokenA (!s.cfg.aLitFlag)) s = .next t ∧ Raised .inputUnderrun s t)

/-- An A.MATCH longer than the bytes still owed raises OUTPUT_OVERRUN (spec 44 R227). -/
def Obligations.AMatchOverrun : Prop :=
  ∀ (s : State) (h l : BitVec 4) (lo : Byte), s.cfg.wf = true →
    (cap s).toNat < s.op.toNat + (l.toNat + s.cfg.aMinMatch) →
    ∃ t, exec (.aMatch h l lo) s = .next t ∧ Raised .outputOverrun s t

/-- Distance field 0 (spec 44 R233): the bytes from 4096 back are emitted and RING does not change. -/
def Obligations.AMatchDistanceZero : Prop :=
  ∀ (s : State) (l : BitVec 4), s.cfg.wf = true →
    s.op.toNat + (l.toNat + s.cfg.aMinMatch) ≤ (cap s).toNat →
    ∃ t, exec (.aMatch 0 l 0) s = .next t ∧ (∀ i, ringGet t i = ringGet s i) ∧
      OutAppends s t (l.toNat + s.cfg.aMinMatch) fun k =>
        some (ringGet s (ringIndex (s.wr + BitVec.ofNat 16 k)))

/-- In a state whose ring invariant holds for `e` emitted bytes, an A.MATCH at any distance, field 0 meaning
4096, is no fault: its byte `k` is `FILL` while its distance back exceeds `e`, and otherwise the byte emitted
that many positions ago (spec 44 R233, R234, 20 R69, 40 R134). -/
def Obligations.AMatchBeyondEmittedReadsFill : Prop :=
  ∀ (s : State) (e d n : Nat) (emitted : Nat → Option Byte) (h l : BitVec 4) (lo : Byte), s.cfg.wf = true →
    RingHolds s e emitted → n = l.toNat + s.cfg.aMinMatch →
    d = (if h = 0 ∧ lo = 0 then 4096 else h.toNat * 256 + lo.toNat) → s.op.toNat + n ≤ (cap s).toNat →
    ∃ t, exec (.aMatch h l lo) s = .next t ∧
      OutAppends s t n fun k =>
        if e < d - k % d then some s.cfg.fill else emitted (e - (d - k % d))

/-! ## Format B tokens -/

/-- B.LIT (spec 45 R244): result, frame and completion, and its two faults. -/
def Obligations.BLitToken : Prop :=
  ∀ (s : State),
    (∀ b, s.op < cap s → ∃ t, exec (.bLit b) s = .next t ∧
      t = { s with ip := s.ip + 1, op := s.op + 1, out := t.out } ∧ OutAppends s t 1 fun _ => some b) ∧
    (∀ b, cap s ≤ s.op → ∃ t, exec (.bLit b) s = .next t ∧ Raised .outputOverrun s t) ∧
    (∀ b, s.ip < s.inLen → readIn s s.ip.toNat = some b →
      runToken (.tokenB (!s.cfg.bMatchFlag)) s = exec (.bLit b) s) ∧
    (s.inLen ≤ s.ip → ∃ t, runToken (.tokenB (!s.cfg.bMatchFlag)) s = .next t ∧ Raised .inputUnderrun s t)

/-- B.SHORT (spec 45 R246, R251, R252): distance `256 - c`, length `B_SHORT_LEN` (2), and what its copy
does; the token is the one control byte at IP, and a missing control byte raises INPUT_UNDERRUN (R245). -/
def Obligations.BShortToken : Prop :=
  Config.reference.bShortLen = 2 ∧ Config.reference.bShortMin = 0x60 ∧
  ∀ (s : State) (c : Byte), s.cfg.wf = true → (Instr.bShort c).wf s.cfg = true →
    MatchBOutcome (exec (.bShort c) s) s 1 (256 - c.toNat) s.cfg.bShortLen ∧
    (s.ip < s.inLen → readIn s s.ip.toNat = some c →
      runToken (.tokenB s.cfg.bMatchFlag) s = exec (.bShort c) s) ∧
    (s.inLen ≤ s.ip → ∃ t, runToken (.tokenB s.cfg.bMatchFlag) s = .next t ∧ Raised .inputUnderrun s t)

/-- B.LONG (spec 45 R247, R248): distance `H*256 + lo`, length `S + B_MIN_LEN` (3), and what its copy
does; the token is the two bytes at IP, and the FETCH of a missing second byte raises INPUT_UNDERRUN. -/
def Obligations.BLongToken : Prop :=
  Config.reference.bMinLen = 3 ∧
  ∀ (s : State) (sel h : BitVec 4) (lo : Byte), s.cfg.wf = true → (Instr.bLong sel h lo).wf s.cfg = true →
    MatchBOutcome (exec (.bLong sel h lo) s) s 2 (h.toNat * 256 + lo.toNat) (sel.toNat + s.cfg.bMinLen) ∧
    (s.ip.toNat + 1 < s.inLen.toNat → readIn s s.ip.toNat = some (longControl sel h) →
      readIn s (s.ip.toNat + 1) = some lo →
      runToken (.tokenB s.cfg.bMatchFlag) s = exec (.bLong sel h lo) s) ∧
    (s.ip.toNat + 1 = s.inLen.toNat → readIn s s.ip.toNat = some (longControl sel h) →
      ∃ t, runToken (.tokenB s.cfg.bMatchFlag) s = .next t ∧ Raised .inputUnderrun s t)

/-- B.SUPER (spec 45 R249): distance `H*256 + lo`, length `B_MIN_SUPERLEN` (9) plus the extension byte,
every value of which is accepted, and what its copy does; the token is the three bytes at IP, and the
FETCH of a missing extension byte raises INPUT_UNDERRUN. -/
def Obligations.BSuperToken : Prop :=
  Config.reference.bMinSuperLen = 9 ∧
  ∀ (s : State) (h : BitVec 4) (lo e : Byte), s.cfg.wf = true → (Instr.bSuper h lo e).wf s.cfg = true →
    MatchBOutcome (exec (.bSuper h lo e) s) s 3 (h.toNat * 256 + lo.toNat) (s.cfg.bMinSuperLen + e.toNat) ∧
    (s.ip.toNat + 2 < s.inLen.toNat → readIn s s.ip.toNat = some (longControl s.cfg.bSuperCode h) →
      readIn s (s.ip.toNat + 1) = some lo → readIn s (s.ip.toNat + 2) = some e →
      runToken (.tokenB s.cfg.bMatchFlag) s = exec (.bSuper h lo e) s) ∧
    (s.ip.toNat + 2 = s.inLen.toNat → readIn s s.ip.toNat = some (longControl s.cfg.bSuperCode h) →
      readIn s (s.ip.toNat + 1) = some lo →
      ∃ t, runToken (.tokenB s.cfg.bMatchFlag) s = .next t ∧ Raised .inputUnderrun s t)

/-- B.END (spec 45 R250, R253): IP moves by 2, no byte is copied and the selector makes no difference;
the command ends in DONE when OP is DECL and raises SIZE_MISMATCH otherwise. That DIST is left 0 is
read from R247 (log 18). -/
def Obligations.BEndToken : Prop :=
  ∀ (s : State) (sel : BitVec 4),
    (s.op = s.decl → exec (.bEnd sel) s =
      .next { s with ip := s.ip + 2, dist := 0, outLen := s.op, inPos := s.ip + 2, status := .done }) ∧
    (s.op ≠ s.decl → ∃ t, exec (.bEnd sel) s = .next t ∧ Raised .sizeMismatch s t) ∧
    ((Instr.bEnd sel).wf s.cfg = true → s.ip.toNat + 1 < s.inLen.toNat →
      readIn s s.ip.toNat = some (longControl sel 0) → readIn s (s.ip.toNat + 1) = some 0 →
      runToken (.tokenB s.cfg.bMatchFlag) s = exec (.bEnd sel) s)

/-! ## Commands -/

/-- ENC_A's initialisation (spec 10 R51, 43 R201): what it writes, and the registers and memory it leaves
alone; with a capacity of 0 its first reservation raises OUTPUT_OVERRUN. OUT beyond index 0 has no value
(log 7). -/
def Obligations.EncALaunch : Prop :=
  ∀ (s : State), Launchable s → s.opsel = 1 →
    (0 < s.outCap.toNat → ∃ t, exec .encA s = .next t ∧
      (∀ i, ringGet t i = s.cfg.fill) ∧ t.wr = s.cfg.warm ∧
      (s.cfg = Config.reference → t.wr = 3822 ∧ ∀ i, ringGet t i = 0) ∧
      t.ip = 0 ∧ t.op = 1 ∧ t.faAcc = 0 ∧ t.faCnt = 0 ∧ t.faSlot = 0 ∧ t.status = .busy ∧ t.cause = .none ∧
      readOut t 0 = some 0 ∧ (∀ a, a ≠ 0 → readOut t a = none) ∧
      SameCommand s t ∧ t.frByte = s.frByte ∧ t.frRem = s.frRem ∧ t.fbReg = s.fbReg ∧
      t.file = s.file ∧ t.overlap = s.overlap ∧ t.host = s.host) ∧
    (s.outCap = 0 → ∃ t, exec .encA s = .next t ∧ Raised .outputOverrun s t)

/-- DEC_A's initialisation (spec 10 R52, 44 R221): what it writes, and the registers and memory it leaves
alone. -/
def Obligations.DecALaunch : Prop :=
  ∀ (s : State), Launchable s → ∃ t, exec .decA s = .next t ∧
    (∀ i, ringGet t i = s.cfg.fill) ∧ t.wr = s.cfg.warm ∧
    (s.cfg = Config.reference → t.wr = 3822 ∧ ∀ i, ringGet t i = 0) ∧
    t.ip = 0 ∧ t.op = 0 ∧ t.frByte = 0 ∧ t.frRem = 0 ∧ t.status = .busy ∧ t.cause = .none ∧
    SameCommand s t ∧ t.faAcc = s.faAcc ∧ t.faCnt = s.faCnt ∧ t.faSlot = s.faSlot ∧ t.fbReg = s.fbReg ∧
    t.file = s.file ∧ t.overlap = s.overlap ∧ t.host = s.host

/-- DEC_B's initialisation (spec 10 R53, 45 R241): what it writes, and the registers and memory it leaves
alone, RING and WR among them. -/
def Obligations.DecBLaunch : Prop :=
  ∀ (s : State), Launchable s → ∃ t, exec .decB s = .next t ∧
    t.fbReg = 0 ∧ t.ip = 0 ∧ t.op = 0 ∧ t.status = .busy ∧ t.cause = .none ∧
    (∀ i, ringGet t i = ringGet s i) ∧ t.wr = s.wr ∧
    SameCommand s t ∧ t.faAcc = s.faAcc ∧ t.faCnt = s.faCnt ∧ t.faSlot = s.faSlot ∧
    t.frByte = s.frByte ∧ t.frRem = s.frRem ∧ t.file = s.file ∧ t.overlap = s.overlap ∧ t.host = s.host

/-- START with OPSEL 0 raises BAD_COMMAND before any initialisation, and no other command code is refused
so (spec 60 R305). -/
def Obligations.NoCommandIsBad : Prop :=
  ∀ (s : State), s.status ≠ .busy →
    (s.opsel = 0 → startCommand s = exec .noCommand s) ∧
    (s.opsel ≠ 0 → startCommand s = exec .encA s ∨ startCommand s = exec .decA s ∨ startCommand s = exec .decB s) ∧
    ∃ t, exec .noCommand s = .next t ∧ Raised .badCommand s t

/-- What is not offered is refused by name: every command and header while STATE is BUSY (spec 93 U15;
log 10), and a launch with overlapping buffers (spec 20 R72; log 11). -/
def Obligations.LaunchRefusals : Prop :=
  ∀ (s : State),
    (s.status = .busy → ∀ cs os ds,
      exec .encA s = .refused .hostWhileBusy ∧ exec .decA s = .refused .hostWhileBusy ∧
      exec .decB s = .refused .hostWhileBusy ∧ exec .noCommand s = .refused .hostWhileBusy ∧
      exec (.hdrA cs os) s = .refused .hostWhileBusy ∧ exec (.hdrB ds) s = .refused .hostWhileBusy) ∧
    (s.status ≠ .busy → s.overlap = true →
      exec .encA s = .refused .inOutOverlap ∧ exec .decA s = .refused .inOutOverlap ∧
      exec .decB s = .refused .inOutOverlap)

/-! ## Containers -/

/-- UNWRAP_A, which is HDR_A's meaning (spec 46 R272): a short file, another magic or another length is a
FORMAT_ERROR; otherwise IN is the payload, IN_LEN and DECL the two little-endian sizes, and nothing else
changes; IN beyond the payload keeps its bytes (70 R334). The magic bytes are presumed (log 22); that OUT stays
while IN and OUT overlap is the model's choice (log 33). -/
def Obligations.UnwrapAToken : Prop :=
  be64Bytes Config.reference.aMagic = [0x56, 0x52, 0x41, 0x4D, 0x2D, 0x57, 0x41, 0x44] ∧
  ∀ (s : State), s.status ≠ .busy →
    (s.file.length < 16 → ∃ t, unwrap .headerA s = .next t ∧ Raised .formatError s t) ∧
    (∀ (m p : List Byte) (c0 c1 c2 c3 o0 o1 o2 o3 : Byte) (csize osize : Nat), m.length = 8 →
      s.file = m ++ [c0, c1, c2, c3, o0, o1, o2, o3] ++ p →
      csize = c0.toNat + 256 * c1.toNat + 65536 * c2.toNat + 16777216 * c3.toNat →
      osize = o0.toNat + 256 * o1.toNat + 65536 * o2.toNat + 16777216 * o3.toNat →
      (m = be64Bytes s.cfg.aMagic → s.file.length = 16 + csize →
        ∃ t, unwrap .headerA s = .next t ∧
          exec (.hdrA (BitVec.ofNat 32 csize) (BitVec.ofNat 32 osize)) s = .next t ∧
          t = { s with inp := t.inp, inLen := BitVec.ofNat 32 csize, decl := BitVec.ofNat 32 osize } ∧
          PlacedIn p s t) ∧
      (m ≠ be64Bytes s.cfg.aMagic ∨ s.file.length ≠ 16 + csize →
        ∃ t, unwrap .headerA s = .next t ∧ Raised .formatError s t))

/-- UNWRAP_B, which is HDR_B's meaning (spec 46 R273): a short file, another magic or a size above
`B_MAX_DECLARED` is a FORMAT_ERROR; otherwise IN is the rest of the file, DECL the big-endian size, and
nothing else changes; IN beyond the payload keeps its bytes (70 R334). Payloads of 2^32 bytes and more are
refused (log 13); the magic bytes are presumed (log 22). That OUT stays while IN and OUT overlap is the model's
choice (log 33). -/
def Obligations.UnwrapBToken : Prop :=
  be32Bytes Config.reference.bMagic = [0x4C, 0x5A, 0x4E, 0x50] ∧
  ∀ (s : State), s.status ≠ .busy →
    (s.file.length < 8 → ∃ t, unwrap .headerB s = .next t ∧ Raised .formatError s t) ∧
    (∀ (m p : List Byte) (d0 d1 d2 d3 : Byte) (dsize : Nat), m.length = 4 →
      s.file = m ++ [d0, d1, d2, d3] ++ p →
      dsize = 16777216 * d0.toNat + 65536 * d1.toNat + 256 * d2.toNat + d3.toNat →
      (m = be32Bytes s.cfg.bMagic → dsize ≤ s.cfg.bMaxDeclared.toNat → p.length < sizeLimit →
        ∃ t, unwrap .headerB s = .next t ∧ exec (.hdrB (BitVec.ofNat 32 dsize)) s = .next t ∧
          t = { s with inp := t.inp, inLen := BitVec.ofNat 32 p.length, decl := BitVec.ofNat 32 dsize } ∧
          PlacedIn p s t) ∧
      (m ≠ be32Bytes s.cfg.bMagic ∨ s.cfg.bMaxDeclared.toNat < dsize →
        ∃ t, unwrap .headerB s = .next t ∧ Raised .formatError s t))

/-- The header invariant (spec 46 R274): WRAP_A's file is 16 bytes longer than its payload, whose length
the header holds, begins with the magic, and is accepted by UNWRAP_A, which gives the payload back and keeps IN
beyond it (70 R334). The host action WRAP_A (R271) makes that file of the finished command's result and of IN_LEN as it then stands (log 34), changes nothing else, and
is refused outside DONE (log 15). What both do while IN and OUT overlap is the model's choice (log 33). -/
def Obligations.WrapThenUnwrap : Prop :=
  (∀ (s : State) (p : List Byte) (n : Size), s.status ≠ .busy → p.length < sizeLimit →
    s.file = wrapA s.cfg p n →
    s.file.length = 16 + p.length ∧ s.file.take 8 = be64Bytes s.cfg.aMagic ∧
    (s.file.drop 8).take 4 = le32Bytes (BitVec.ofNat 32 p.length) ∧
    (s.file.drop 12).take 4 = le32Bytes n ∧ s.file.drop 16 = p ∧
    ∃ t, unwrap .headerA s = .next t ∧ t.inLen.toNat = p.length ∧ t.decl = n ∧ PlacedIn p s t) ∧
  (∀ (s : State) (q : List HostAction), s.status ≠ .busy → s.host = .wrapA :: q →
    (∀ p, s.status = .done → p.length = s.outLen.toNat → (∀ k, k < p.length → readOut s k = p[k]?) →
      step s = .next { s with host := q, file := wrapA s.cfg p s.inLen }) ∧
    (s.status ≠ .done → step s = .refused .noResult))

/-! ## A step -/

/-- A step runs the instruction the machine takes next: a running decoder the token at IP, after its flag;
the host the command of OPSEL at START, and the header of the file at an UNWRAP (spec 44 R222, 45 R242,
70 R332, 46 R272, R273). A running decoder that finds no byte where it needs one raises INPUT_UNDERRUN: no flag
byte when the flag register is used up, or a token cut short after its flag (44 R228, 45 R254); DEC_B so at any
OP, DECL among them (R259). -/
def Obligations.StepRunsDecodedInstruction : Prop :=
  ∀ (s : State),
    (s.status = .busy → s.opsel = 2 → s.op < s.decl →
      (∀ f t, flagrAGet s = .go f t →
        step s = runToken (.tokenA f) t ∧
        (∀ i rest, decode t.cfg (.tokenA f) (inRun t 3 t.ip.toNat) = .ok (i, rest) → step s = exec i t) ∧
        (∀ e, InputPlaced s → decode t.cfg (.tokenA f) (inRun t 3 t.ip.toNat) = .error e →
          ∃ u, step s = .next u ∧ Raised .inputUnderrun s u)) ∧
      (s.frRem = 0 → s.inLen ≤ s.ip → ∃ u, step s = .next u ∧ Raised .inputUnderrun s u)) ∧
    (s.status = .busy → s.opsel = 3 →
      (∀ f t, flagrBGet s = .go f t →
        step s = runToken (.tokenB f) t ∧
        (∀ i rest, decode t.cfg (.tokenB f) (inRun t 3 t.ip.toNat) = .ok (i, rest) → step s = exec i t) ∧
        (∀ e, InputPlaced s → decode t.cfg (.tokenB f) (inRun t 3 t.ip.toNat) = .error e →
          ∃ u, step s = .next u ∧ Raised .inputUnderrun s u)) ∧
      (s.fbReg.toNat / 2 < 256 → s.inLen ≤ s.ip → ∃ u, step s = .next u ∧ Raised .inputUnderrun s u)) ∧
    (s.status ≠ .busy → ∀ q, s.host = .start :: q → step s = exec (commandOf s.opsel) { s with host := q }) ∧
    (s.status ≠ .busy → ∀ q i rest, s.host = .unwrapA :: q → decode s.cfg .headerA s.file = .ok (i, rest) →
      step s = exec i { s with host := q }) ∧
    (s.status ≠ .busy → ∀ q i rest, s.host = .unwrapB :: q → decode s.cfg .headerB s.file = .ok (i, rest) →
      step s = exec i { s with host := q })

/-- The output length alone ends DEC_A: the condition is tested before each token, nothing is fetched, and
the command is DONE with `OUT_LEN = OP` and `IN_POS = IP` (spec 44 R222). -/
def Obligations.DecAEndsOnOutputLength : Prop :=
  ∀ (s : State), s.status = .busy → s.opsel = 2 → s.decl ≤ s.op →
    step s = .next { s with outLen := s.op, inPos := s.ip, status := .done }

/-- One pass of the encoder's loop (spec 43 R202, R205, R206): the search, a match token when `BEST_LEN` is
at least `A_MIN_MATCH` and a literal otherwise, then the close of a full group; at the end of the input
the flags are flushed and the command is DONE. -/
def Obligations.EncoderPass : Prop :=
  ∀ (s : State), s.status = .busy → s.opsel = 1 →
    (s.ip < s.inLen → InputPlaced s → ∀ u, u = findMatch (lookAhead s) s →
      (s.cfg.aMinMatch ≤ u.bestLen.toNat → step s = ((emitMatch u).bind fun _ t => closeIfFull t).result) ∧
      (u.bestLen.toNat < s.cfg.aMinMatch → step s = ((emitLiteral u).bind fun _ t => closeIfFull t).result)) ∧
    (s.inLen ≤ s.ip → ∃ t, step s = .next t ∧ t = { flagwFinish s with outLen := s.op, inPos := s.ip, status := .done })

/-- Literal token emission (spec 43 R203): result, frame and fault. -/
def Obligations.EncoderLiteral : Prop :=
  ∀ (s : State) (b : Byte), readIn s s.ip.toNat = some b →
    (s.op < cap s → ∃ t, emitLiteral s = .go () t ∧
      t = { s with
        faAcc := (s.faAcc <<< 1) ||| (if s.cfg.aLitFlag then 1 else 0)
        faCnt := s.faCnt + 1
        op := s.op + 1
        wr := s.wr + 1
        ip := s.ip + 1
        out := t.out
        ring := t.ring } ∧
      OutAppends s t 1 (fun _ => some b) ∧ RingAppends s t 1 fun _ => b) ∧
    (cap s ≤ s.op → ∃ t, emitLiteral s = .halt (.next t) ∧ Raised .outputOverrun s t)

/-- Match token emission for BEST_LEN `l` and BEST_DIST `d` (spec 43 R204): the two packed bytes, the ring
given the `l` input bytes, result, frame and fault. -/
def Obligations.EncoderMatch : Prop :=
  ∀ (s : State) (l d : Nat) (f : Nat → Byte), l = s.bestLen.toNat → d = s.bestDist.toNat →
    s.cfg.aMinMatch ≤ l → l ≤ s.cfg.aMinMatch + 15 → (∀ k, k < l → readIn s (s.ip.toNat + k) = some (f k)) →
    s.ip.toNat + l < sizeLimit →
    (s.op.toNat + 2 ≤ (cap s).toNat → ∃ t, emitMatch s = .go () t ∧
      t = { s with
        faAcc := (s.faAcc <<< 1) ||| (if s.cfg.aLitFlag then 0 else 1)
        faCnt := s.faCnt + 1
        op := s.op + 2
        wr := s.wr + BitVec.ofNat 16 l
        ip := s.ip + BitVec.ofNat 32 l
        out := t.out
        ring := t.ring } ∧
      OutAppends s t 2 (fun k =>
        some (BitVec.ofNat 8 (if k = 0 then d / 256 % 16 * 16 + (l - s.cfg.aMinMatch) else d % 256))) ∧
      RingAppends s t l f) ∧
    ((cap s).toNat < s.op.toNat + 2 → ∃ t, emitMatch s = .halt (.next t) ∧ Raised .outputOverrun s t)

/-! ## The match search -/

/-- HIST and MATCH_LEN (spec 41 R151, R152): the history byte the decoder will read, and the run of equal
bytes, as long as it goes. `look` is the input at IP, up to the lesser of `A_MAX_MATCH` and what is left. With
the matcher set to the document's formula, HIST' is the ring cell at every offset (R161). -/
def Obligations.MatchLenIsTheRun : Prop :=
  ∀ (s : State) (look : List Byte) (d : Nat),
    (s.cfg.matcher = .overlapAware → ∀ k, hist s look d k =
      if k < d then ringGet s (ringIndex (s.wr - BitVec.ofNat 16 d + BitVec.ofNat 16 k)) else look.getD (k - d) 0) ∧
    (s.cfg.matcher = .literalFormula → ∀ k, hist s look d k =
      ringGet s (ringIndex (s.wr - BitVec.ofNat 16 d + BitVec.ofNat 16 k))) ∧
    (InputPlaced s → (lookAhead s).length = min s.cfg.aMaxMatch (s.inLen.toNat - s.ip.toNat) ∧
      ∀ k, k < (lookAhead s).length → (lookAhead s)[k]? = readIn s (s.ip.toNat + k)) ∧
    matchLen s look d ≤ look.length ∧
    (∀ k, k < matchLen s look d → look[k]? = some (hist s look d k)) ∧
    (matchLen s look d < look.length → look[matchLen s look d]? ≠ some (hist s look d (matchLen s look d)))

/-- FIND_MATCH (spec 41 R153 to R155): the greatest run length over the distances 1 to `A_MAX_DIST`, at the
smallest distance that has it, and (0, 0) when no distance matches; BEST_LEN and BEST_DIST hold the pair
and nothing else is written. -/
def Obligations.FindMatchIsLongestNearest : Prop :=
  ∀ (s : State) (look : List Byte) (l d : Nat), s.cfg.wf = true → look.length ≤ s.cfg.aMaxMatch →
    bestMatch s look = (l, d) →
    (∀ d', 1 ≤ d' → d' ≤ s.cfg.aMaxDist → matchLen s look d' ≤ l) ∧
    (l = 0 → d = 0) ∧
    (0 < l → 1 ≤ d ∧ d ≤ s.cfg.aMaxDist ∧ matchLen s look d = l ∧
      ∀ d', 1 ≤ d' → d' < d → matchLen s look d' < l) ∧
    findMatch look s = { s with bestLen := (findMatch look s).bestLen, bestDist := (findMatch look s).bestDist } ∧
    (findMatch look s).bestLen.toNat = l ∧ (findMatch look s).bestDist.toNat = d

/-- Agreement with the decoder (spec 41 R160): a decoder with the encoder's ring and cursor that executes
the token of the match found emits the input bytes the match stands for, and puts the same bytes in its
ring as the encoder does. -/
def Obligations.MatchFoundExpandsToInput : Prop :=
  ∀ (s u : State) (l d : Nat) (h l4 : BitVec 4) (lo : Byte), s.cfg.wf = true →
    s.cfg.matcher = .overlapAware → bestMatch s (lookAhead s) = (l, d) → s.cfg.aMinMatch ≤ l →
    u.cfg = s.cfg → u.ring = s.ring → u.wr = s.wr → u.op.toNat + l ≤ (cap u).toNat →
    encMatchByte1 s.cfg d l = h ++ l4 → encMatchByte2 d = lo →
    ∃ t, exec (.aMatch h l4 lo) u = .next t ∧
      OutAppends u t l (fun k => readIn s (s.ip.toNat + k)) ∧
      RingAppends u t l fun k => (lookAhead s).getD k 0

/-! ## The whole machine -/

/-- After reset STATE is IDLE, CAUSE is NONE and OPSEL is 0 (spec 10 R50, 70 R330). -/
def Obligations.ResetState : Prop :=
  State.reset.status = .idle ∧ State.reset.cause = .none ∧ State.reset.opsel = 0

/-- The invariant holds after reset (its memories, registers and flags at the values log 4 and 5 name). -/
def Obligations.ResetHasInv : Prop := EngineInv State.reset

/-- Every step keeps the invariant: memories canonical, CAUSE NONE exactly outside FAULT, the cursors
within their bounds, the output written as far as OP, the flag registers in range (spec 10 R22, R27, R44,
42 R176, 60 R304). -/
def Obligations.StepKeepsInv : Prop := ∀ (s t : State), EngineInv s → step s = .next t → EngineInv t

/-- The ring invariant holds from command initialisation on (spec 10 R54). -/
def Obligations.StepKeepsRingInv : Prop := ∀ (s t : State), RingInv s → step s = .next t → RingInv t

/-- No step changes the configuration (log 2). -/
def Obligations.ConfigIsFixed : Prop := ∀ (s t : State), step s = .next t → t.cfg = s.cfg

/-- The engine never writes the control registers or IN; a host write to a status register has no effect,
and one to a control register writes that register whole and nothing else (spec 10 R37, 20 R76). Outside BUSY the
step performs a pending write as such; the host's placing of bytes in IN keeps every other byte of IN and every
register but, where a file is placed, IN_LEN (70 R334). That the host's moves are a queue, and that a step with none
changes nothing, is the model's form (log 9); that a value above 3 leaves its low 2 bits in OPSEL is its choice
(log 32), and so is what placing the buffers, and placing bytes in IN while they overlap, leaves unchanged
(log 33). -/
def Obligations.ControlRegisterRules : Prop :=
  (∀ (s t : State), s.status = .busy → step s = .next t →
    t.opsel = s.opsel ∧ t.inLen = s.inLen ∧ t.outCap = s.outCap ∧ t.decl = s.decl ∧ t.inp = s.inp) ∧
  (∀ (n : BitVec 3) (v : BitVec 32) (s : State), 4 ≤ n → writeReg n v s = s) ∧
  (∀ (v : BitVec 32) (s : State),
    writeReg 0 v s = { s with opsel := v.setWidth 2 } ∧ writeReg 1 v s = { s with inLen := v } ∧
    writeReg 2 v s = { s with outCap := v } ∧ writeReg 3 v s = { s with decl := v } ∧
    readReg 1 (writeReg 1 v s) = v ∧ readReg 2 (writeReg 2 v s) = v ∧ readReg 3 (writeReg 3 v s) = v ∧
    (readReg 0 (writeReg 0 v s)).toNat = v.toNat % 4) ∧
  (∀ (s : State) (q : List HostAction) (bs : List Byte), s.status ≠ .busy → s.host = .loadIn bs :: q →
    bs.length < sizeLimit → ∃ t, step s = .next t ∧ t = { s with host := q, inp := t.inp } ∧ PlacedIn bs s t) ∧
  (∀ (s : State) (q : List HostAction), s.status ≠ .busy → s.host = .fileToIn :: q → s.file.length < sizeLimit →
    ∃ t, step s = .next t ∧ t = { s with host := q, inp := t.inp, inLen := t.inLen } ∧
      t.inLen.toNat = s.file.length ∧ PlacedIn s.file s t) ∧
  (∀ (s : State) (q : List HostAction), s.status ≠ .busy →
    (∀ n v, s.host = .writeReg n v :: q → step s = .next (writeReg n v { s with host := q })) ∧
    (∀ bs, s.host = .setFile bs :: q → step s = .next { s with host := q, file := bs }) ∧
    (∀ b, s.host = .place b :: q → step s = .next { s with host := q, overlap := b }) ∧
    (s.host = [] → step s = .next s))

/-- The codes the host reads in STATE and CAUSE; code 7 is never read, for CAUSE never holds it (spec 10
R38, R39). -/
def Obligations.StatusCodes : Prop :=
  ∀ (s : State),
    readReg 4 s = (match s.status with | .idle => 0 | .busy => 1 | .done => 2 | .fault => 3) ∧
    readReg 5 s = (match s.cause with
      | .none => 0
      | .inputUnderrun => 1
      | .outputOverrun => 2
      | .backrefUnderflow => 3
      | .sizeMismatch => 4
      | .badCommand => 5
      | .formatError => 6) ∧
    readReg 5 s ≠ 7

/-- CAUSE is NONE after reset, after a command's initialisation and whenever STATE is IDLE, BUSY or DONE
(spec 60 R304). -/
def Obligations.CauseIsNoneOutsideFault : Prop :=
  State.reset.cause = .none ∧
  (∀ (s t : State), exec .encA s = .next t → t.status = .busy → t.cause = .none) ∧
  (∀ (s t : State), exec .decA s = .next t ∨ exec .decB s = .next t → t.cause = .none) ∧
  (∀ (s t : State), (s.status ≠ .fault → s.cause = .none) → step s = .next t → t.status ≠ .fault → t.cause = .none)

/-- Which command can raise which cause (spec 60 R307): a running ENC_A only OUTPUT_OVERRUN, DEC_A that and
INPUT_UNDERRUN, DEC_B those, BACKREF_UNDERFLOW and SIZE_MISMATCH. -/
def Obligations.CausesOfEachCommand : Prop :=
  ∀ (s t : State), s.status = .busy → step s = .next t → t.status = .fault →
    (s.opsel = 1 → t.cause = .outputOverrun) ∧
    (s.opsel = 2 → t.cause = .inputUnderrun ∨ t.cause = .outputOverrun) ∧
    (s.opsel = 3 → t.cause = .inputUnderrun ∨ t.cause = .outputOverrun ∨ t.cause = .backrefUnderflow ∨
      t.cause = .sizeMismatch)

/-- Raising a fault (spec 60 R298, R299): CAUSE and STATE are written, the control registers and IN are
kept, no byte of OUT has a value, nothing after the raise runs, and the engine then waits for the host. That
OUT has no value is the model's form of 'unspecified' (log 6), and that waiting is a step to the same state its
choice (log 9). -/
def Obligations.RaiseStopsTheCommand : Prop :=
  ∀ (f : Cause) (s : State),
    Raised f s (raiseFault f s) ∧ (∀ a, readOut (raiseFault f s) a = none) ∧
    (∀ k : Unit → State → Flow Unit, ((raiseFlow f s).bind k).result = .next (raiseFault f s)) ∧
    (s.host = [] → step (raiseFault f s) = .next (raiseFault f s))

/-- RESET (spec 70 R330): STATE, CAUSE and OPSEL are written, and a START given without choosing a command
then raises BAD_COMMAND. That IN and the host's own side stay is the model's choice (log 8, 9). -/
def Obligations.ResetAction : Prop :=
  ∀ (s : State) (q : List HostAction), s.status ≠ .busy → s.host = .reset :: q →
    ∃ t, step s = .next t ∧ t.status = .idle ∧ t.cause = .none ∧ t.opsel = 0 ∧
      t.cfg = s.cfg ∧ t.inp = s.inp ∧ t.file = s.file ∧ t.overlap = s.overlap ∧ t.host = q ∧
      ∃ u, startCommand t = .next u ∧ Raised .badCommand t u

/-- A command that ends in DONE (spec 10 R38, R40, 70 R338): CAUSE is NONE, OUT_LEN and IN_POS are OP and IP,
every byte of the result has a value, and a decoder's result has exactly DECL bytes (44 R220, 45 R240). -/
def Obligations.DoneMeansResult : Prop :=
  ∀ (s t : State), EngineInv s → s.status = .busy → step s = .next t → t.status = .done →
    t.cause = .none ∧ t.outLen = t.op ∧ t.inPos = t.ip ∧ (s.opsel ≠ 1 → t.outLen = s.decl) ∧
    (s.opsel = 1 → t.inPos = s.inLen) ∧ ∃ p, outBytes t = some p ∧ p.length = t.outLen.toNat

/-- The engine never stops the model: with the input placed, a running command in an invariant state always
has a next state (spec 60 R313; the stops of the state's definition are not reached). -/
def Obligations.RunningCommandHasANextState : Prop :=
  ∀ (s : State), EngineInv s → InputPlaced s → s.status = .busy → ∃ t, step s = .next t

/-- Every command ends, in DONE or FAULT, within the bound on its steps (spec 60 R313). -/
def Obligations.EveryCommandEnds : Prop :=
  ∀ (s : State), s.cfg.wf = true → Launchable s → InputPlaced s →
    ∃ t, runCommand s = .next t ∧ (t.status = .done ∨ t.status = .fault)

/-- ENC_A faults only with OUTPUT_OVERRUN, and only when OUT_CAP is too small for the payload (spec 43 R208):
against any capacity `c` at which it ends in DONE, it ends in DONE exactly when that payload fits OUT_CAP, and
with the same payload. It does not fault when OUT_CAP is at least `ENC_A_BOUND(IN_LEN)`; then its result is no
longer than that bound and all input is consumed (R207). Twice the input length is enough for one byte or more
and not for none. -/
def Obligations.EncAWithinItsBound : Prop :=
  (∀ n, 1 ≤ n → encABound n ≤ 2 * n) ∧ encABound 0 = 1 ∧
  ∀ (s : State), s.cfg.wf = true → 2 ≤ s.cfg.aMinMatch → Launchable s → InputPlaced s → s.opsel = 1 →
    ∃ t, runCommand s = .next t ∧
      (t.status = .done ∨ t.status = .fault ∧ t.cause = .outputOverrun) ∧
      (∀ c v, runCommand { s with outCap := c } = .next v → v.status = .done →
        (t.status = .done ↔ v.outLen.toNat ≤ s.outCap.toNat) ∧
        (t.status = .done → t.outLen = v.outLen ∧ outBytes t = outBytes v)) ∧
      (encABound s.inLen.toNat ≤ s.outCap.toNat →
        t.status = .done ∧ t.inPos = s.inLen ∧ t.outLen.toNat ≤ encABound s.inLen.toNat)

/-- The round trip (spec 43 R210): if ENC_A ends in DONE with a payload, DEC_A on that payload, with the input
length as declared size, ends in DONE with the input. -/
def Obligations.DecodeAOfEncodeA : Prop :=
  ∀ (s t u : State) (p : List Byte), s.cfg.wf = true → s.cfg.matcher = .overlapAware →
    Launchable s → s.opsel = 1 → runCommand s = .next t → t.status = .done → outBytes t = some p →
    Launchable u → u.cfg = s.cfg → u.opsel = 2 → InputIs p u → u.inLen = t.outLen → u.decl = s.inLen →
    ∃ v, runCommand u = .next v ∧ v.status = .done ∧ v.outLen = s.inLen ∧
      ∀ a, a < s.inLen.toNat → readOut v a = readIn s a

/-- A command's result is a function of the input bytes below IN_LEN, IN_LEN, its capacity and the
configuration (spec 44 R236, 45 R260, with 43 R211 and 10 R48): what the host observes is the same whatever
else the state holds, free values included. -/
def Obligations.ResultDependsOnInputAlone : Prop :=
  ∀ (s u : State), Launchable s → Launchable u → u.cfg = s.cfg → u.opsel = s.opsel → u.inLen = s.inLen →
    (s.opsel = 1 → u.outCap = s.outCap) → (s.opsel = 2 ∨ s.opsel = 3 → u.decl = s.decl) →
    (∀ a, a < s.inLen.toNat → readIn u a = readIn s a) →
    observed (runCommand u) = observed (runCommand s)
end

