-- ==== Sys2Proof/Laws/Memory.lean ====
section
/-! SUPPORT. The laws of byte memories: read after write, and that every operation keeps the
canonical form. -/

namespace Sys2Proof.Memory

@[simp] theorem read?_nil (a : Nat) : read? [] a = none := rfl

/-- A write is read back at its address. -/
@[simp] theorem read?_write_same (m : Memory) (a : Nat) (v : Byte) : read? (write m a v) a = some v := by
  induction m with
  | nil => simp [write, read?]
  | cons c m ih =>
    obtain ⟨k, w⟩ := c
    simp only [write]
    split
    · simp [read?]
    · split
      · simp [read?]
      · next h => simp [read?, Ne.symm h, ih]

/-- A write leaves every other address alone. -/
theorem read?_write_other (m : Memory) {a b : Nat} (v : Byte) (h : b ≠ a) :
    read? (write m a v) b = read? m b := by
  induction m with
  | nil => simp [write, read?, Ne.symm h]
  | cons c m ih =>
    obtain ⟨k, w⟩ := c
    simp only [write]
    split
    · simp [read?, Ne.symm h]
    · split
      · next hk => subst hk; simp [read?, Ne.symm h]
      · simp [read?, ih]

@[simp] theorem read?_erase_same (m : Memory) (a : Nat) : read? (erase m a) a = none := by
  induction m with
  | nil => rfl
  | cons c m ih =>
    obtain ⟨k, w⟩ := c
    simp only [erase]
    split
    · exact ih
    · next h => simp [read?, h, ih]

theorem read?_erase_other (m : Memory) {a b : Nat} (h : b ≠ a) : read? (erase m a) b = read? m b := by
  induction m with
  | nil => rfl
  | cons c m ih =>
    obtain ⟨k, w⟩ := c
    simp only [erase]
    split
    · next hk => subst hk; simp [read?, Ne.symm h, ih]
    · simp [read?, ih]

/-- A stored byte is loaded at its address, whatever an unlisted address reads as. -/
@[simp] theorem load_store_same (d : Option Byte) (m : Memory) (a : Nat) (v : Byte) :
    load d (store d m a v) a = some v := by
  by_cases h : d = some v
  · simp [load, store, h]
  · simp [load, store, h]

/-- A store leaves every other address alone. -/
theorem load_store_other (d : Option Byte) (m : Memory) {a b : Nat} (v : Byte) (hb : b ≠ a) :
    load d (store d m a v) b = load d m b := by
  by_cases h : d = some v
  · simp [load, store, h, read?_erase_other _ hb]
  · simp [load, store, h, read?_write_other _ _ hb]

/-- Where an unlisted address has no value, a store lists its byte. -/
theorem store_none (m : Memory) (a : Nat) (v : Byte) : store none m a v = write m a v := by simp [store]

@[simp] theorem load_none (m : Memory) (a : Nat) : load none m a = read? m a := by
  simp only [load]; split <;> simp_all

/-! ## The canonical form -/

theorem wfFrom_mono {d : Option Byte} {n lo lo' : Nat} {m : Memory} (h : wfFrom d n lo m = true) (hl : lo' ≤ lo) :
    wfFrom d n lo' m = true := by
  cases m with
  | nil => rfl
  | cons c m =>
    simp only [wfFrom, Bool.and_eq_true, decide_eq_true_eq] at h ⊢
    exact ⟨⟨⟨by omega, h.1.1.2⟩, h.1.2⟩, h.2⟩

theorem wfFrom_write {d : Option Byte} {n lo a : Nat} {m : Memory} {v : Byte} (h : wfFrom d n lo m = true)
    (hl : lo ≤ a) (ha : a < n) (hv : d ≠ some v) : wfFrom d n lo (write m a v) = true := by
  induction m generalizing lo with
  | nil => simp [write, wfFrom, hl, ha, hv]
  | cons c m ih =>
    obtain ⟨k, w⟩ := c
    simp only [wfFrom, Bool.and_eq_true, decide_eq_true_eq] at h
    obtain ⟨⟨⟨hk, hkn⟩, hw⟩, hm⟩ := h
    simp only [write]
    split
    · next hak =>
      simp only [wfFrom, Bool.and_eq_true, decide_eq_true_eq]
      exact ⟨⟨⟨hl, ha⟩, hv⟩, ⟨⟨⟨hak, hkn⟩, hw⟩, hm⟩⟩
    · split
      · next hak => subst hak; simp [wfFrom, hl, ha, hv, hm]
      · simp [wfFrom, hk, hkn, hw, ih hm (by omega)]

theorem wfFrom_erase {d : Option Byte} {n lo a : Nat} {m : Memory} (h : wfFrom d n lo m = true) :
    wfFrom d n lo (erase m a) = true := by
  induction m generalizing lo with
  | nil => rfl
  | cons c m ih =>
    obtain ⟨k, w⟩ := c
    simp only [wfFrom, Bool.and_eq_true, decide_eq_true_eq] at h
    obtain ⟨⟨⟨hk, hkn⟩, hw⟩, hm⟩ := h
    simp only [erase]
    split
    · exact wfFrom_mono (ih hm) (by omega)
    · simp [wfFrom, hk, hkn, hw, ih hm]

/-- A store below the bound keeps the canonical form. -/
theorem wf_store {d : Option Byte} {n a : Nat} {m : Memory} {v : Byte} (h : wf d n m = true) (ha : a < n) :
    wf d n (store d m a v) = true := by
  simp only [store]
  split
  · exact wfFrom_erase h
  · next hv => exact wfFrom_write h (Nat.zero_le _) ha hv

theorem wfFrom_ofBytesFrom (n lo a : Nat) (bs : List Byte) (hl : lo ≤ a) (hn : a + bs.length ≤ n) :
    wfFrom none n lo (ofBytesFrom a bs) = true := by
  induction bs generalizing lo a with
  | nil => rfl
  | cons b bs ih =>
    simp only [List.length_cons] at hn
    simp [ofBytesFrom, wfFrom, hl, ih (a + 1) (a + 1) (Nat.le_refl _) (by omega)]
    omega

/-- Bytes placed from index 0 are canonical. -/
theorem wf_ofBytes {n : Nat} {bs : List Byte} (h : bs.length ≤ n) : wf none n (ofBytes bs) = true :=
  wfFrom_ofBytesFrom n 0 0 bs (Nat.le_refl _) (by omega)

theorem wfFrom_tabulate (d : Byte) (f : Nat → Byte) (n k lo a : Nat) (hl : lo ≤ a) (hn : a + k ≤ n) :
    wfFrom (some d) n lo (tabulate d f k a) = true := by
  induction k generalizing lo a with
  | zero => rfl
  | succ k ih =>
    simp only [tabulate]
    split
    · exact ih lo (a + 1) (by omega) (by omega)
    · next h => simp [wfFrom, hl, Ne.symm h, ih (a + 1) (a + 1) (Nat.le_refl _) (by omega)]; omega

/-- A tabulated memory is canonical. -/
theorem wf_tabulate (d : Byte) (f : Nat → Byte) {n k : Nat} (h : k ≤ n) : wf (some d) n (tabulate d f k 0) = true :=
  wfFrom_tabulate d f n k 0 0 (Nat.le_refl _) (by omega)

theorem read?_ofBytesFrom (a b : Nat) (bs : List Byte) :
    read? (ofBytesFrom a bs) b = if a ≤ b then bs[b - a]? else none := by
  induction bs generalizing a with
  | nil => simp [ofBytesFrom]
  | cons x bs ih =>
    simp only [ofBytesFrom, read?]
    split
    · next h => subst h; simp
    · next h =>
      rw [ih]
      by_cases hab : a ≤ b
      · have : b - a = (b - (a + 1)) + 1 := by omega
        simp [hab, show a + 1 ≤ b by omega, this]
      · simp [hab, show ¬ a + 1 ≤ b by omega]

/-- Placed bytes are read back by their index. -/
@[simp] theorem read?_ofBytes (b : Nat) (bs : List Byte) : read? (ofBytes bs) b = bs[b]? := by
  simp [ofBytes, read?_ofBytesFrom]

/-! ## Placing bytes over a memory -/

theorem read?_append (m m' : Memory) (a : Nat) : read? (m ++ m') a = (read? m a).or (read? m' a) := by
  induction m with
  | nil => rfl
  | cons c m ih =>
    obtain ⟨k, v⟩ := c
    simp only [List.cons_append, read?]
    split
    · rfl
    · exact ih

theorem read?_above (n : Nat) (m : Memory) (a : Nat) : read? (above n m) a = if a < n then none else read? m a := by
  induction m with
  | nil => simp [above]
  | cons c m ih =>
    obtain ⟨k, v⟩ := c
    simp only [above, read?]
    by_cases hk : k < n
    · rw [if_pos hk, ih]
      by_cases ha : a < n
      · simp [ha]
      · simp [ha, show k ≠ a by omega]
    · rw [if_neg hk]
      simp only [read?]
      by_cases h : k = a
      · subst h; simp [hk]
      · simp [h, ih]

/-- Placed bytes are read back by their index, and every address beyond them reads as before. -/
theorem read?_placeBytes (m : Memory) (bs : List Byte) (a : Nat) :
    read? (placeBytes m bs) a = if a < bs.length then bs[a]? else read? m a := by
  rw [placeBytes, read?_append, read?_ofBytes, read?_above]
  by_cases h : a < bs.length
  · simp [h]
  · simp [h]

theorem wfFrom_above {d : Option Byte} {bound lo n : Nat} {m : Memory} (h : wfFrom d bound lo m = true) :
    wfFrom d bound n (above n m) = true := by
  induction m generalizing lo n with
  | nil => rfl
  | cons c m ih =>
    obtain ⟨k, v⟩ := c
    simp only [wfFrom, Bool.and_eq_true, decide_eq_true_eq] at h
    simp only [above]
    split
    · exact ih h.2
    · next hk =>
      have hm := wfFrom_mono (ih (n := n) h.2) (Nat.le_refl n)
      have hall : ∀ (lo' : Nat) (m' : Memory), wfFrom d bound lo' m' = true → n ≤ lo' → above n m' = m' := by
        intro lo' m'
        induction m' generalizing lo' with
        | nil => intros; rfl
        | cons c' m' ih' =>
          obtain ⟨k', v'⟩ := c'
          intro hw hl
          simp only [wfFrom, Bool.and_eq_true, decide_eq_true_eq] at hw
          simp only [above, if_neg (show ¬ k' < n by omega), ih' (k' + 1) hw.2 (by omega)]
      rw [hall _ _ h.2 (by omega)]
      simp only [wfFrom, Bool.and_eq_true, decide_eq_true_eq]
      exact ⟨⟨⟨by omega, h.1.1.2⟩, h.1.2⟩, h.2⟩

theorem wfFrom_ofBytesFrom_append {n lo a : Nat} {bs : List Byte} {m : Memory} (hl : lo ≤ a) (hn : a + bs.length ≤ n)
    (hm : wfFrom none n (a + bs.length) m = true) : wfFrom none n lo (ofBytesFrom a bs ++ m) = true := by
  induction bs generalizing lo a with
  | nil => exact wfFrom_mono hm (by simpa using hl)
  | cons b bs ih =>
    simp only [List.length_cons] at hn hm
    have := ih (lo := a + 1) (a := a + 1) (Nat.le_refl _) (by omega) (by rwa [show a + 1 + bs.length = a + (bs.length + 1) by omega])
    simp only [ofBytesFrom, List.cons_append, wfFrom, this, hl, Bool.and_eq_true, decide_eq_true_eq]
    exact ⟨⟨⟨trivial, by omega⟩, by simp⟩, trivial⟩

/-- Placing bytes below the bound keeps the canonical form. -/
theorem wf_placeBytes {n : Nat} {m : Memory} {bs : List Byte} (h : wf none n m = true) (hb : bs.length ≤ n) :
    wf none n (placeBytes m bs) = true :=
  wfFrom_ofBytesFrom_append (Nat.zero_le _) (by omega) (by simpa using wfFrom_above h)

end Sys2Proof.Memory
end

