-- ==== Sys2Proof/Laws/State.lean ====
section
/-! SUPPORT. One lemma per field per named update of State, true by rfl: no later proof unfolds a
record update. A field whose value after the update is free has no lemma. -/

namespace Sys2Proof.Machine

/-! ### consume -/

@[simp] theorem consume_cfg (n : Nat) (s : State) : (consume n s).cfg = s.cfg := rfl
@[simp] theorem consume_ring (n : Nat) (s : State) : (consume n s).ring = s.ring := rfl
@[simp] theorem consume_inp (n : Nat) (s : State) : (consume n s).inp = s.inp := rfl
@[simp] theorem consume_out (n : Nat) (s : State) : (consume n s).out = s.out := rfl
@[simp] theorem consume_wr (n : Nat) (s : State) : (consume n s).wr = s.wr := rfl
@[simp] theorem consume_rd (n : Nat) (s : State) : (consume n s).rd = s.rd := rfl
@[simp] theorem consume_ip (n : Nat) (s : State) : (consume n s).ip = s.ip + BitVec.ofNat 32 n := rfl
@[simp] theorem consume_op (n : Nat) (s : State) : (consume n s).op = s.op := rfl
@[simp] theorem consume_dist (n : Nat) (s : State) : (consume n s).dist = s.dist := rfl
@[simp] theorem consume_len (n : Nat) (s : State) : (consume n s).len = s.len := rfl
@[simp] theorem consume_bestLen (n : Nat) (s : State) : (consume n s).bestLen = s.bestLen := rfl
@[simp] theorem consume_bestDist (n : Nat) (s : State) : (consume n s).bestDist = s.bestDist := rfl
@[simp] theorem consume_faAcc (n : Nat) (s : State) : (consume n s).faAcc = s.faAcc := rfl
@[simp] theorem consume_faCnt (n : Nat) (s : State) : (consume n s).faCnt = s.faCnt := rfl
@[simp] theorem consume_faSlot (n : Nat) (s : State) : (consume n s).faSlot = s.faSlot := rfl
@[simp] theorem consume_frByte (n : Nat) (s : State) : (consume n s).frByte = s.frByte := rfl
@[simp] theorem consume_frRem (n : Nat) (s : State) : (consume n s).frRem = s.frRem := rfl
@[simp] theorem consume_fbReg (n : Nat) (s : State) : (consume n s).fbReg = s.fbReg := rfl
@[simp] theorem consume_opsel (n : Nat) (s : State) : (consume n s).opsel = s.opsel := rfl
@[simp] theorem consume_inLen (n : Nat) (s : State) : (consume n s).inLen = s.inLen := rfl
@[simp] theorem consume_outCap (n : Nat) (s : State) : (consume n s).outCap = s.outCap := rfl
@[simp] theorem consume_decl (n : Nat) (s : State) : (consume n s).decl = s.decl := rfl
@[simp] theorem consume_status (n : Nat) (s : State) : (consume n s).status = s.status := rfl
@[simp] theorem consume_cause (n : Nat) (s : State) : (consume n s).cause = s.cause := rfl
@[simp] theorem consume_outLen (n : Nat) (s : State) : (consume n s).outLen = s.outLen := rfl
@[simp] theorem consume_inPos (n : Nat) (s : State) : (consume n s).inPos = s.inPos := rfl
@[simp] theorem consume_file (n : Nat) (s : State) : (consume n s).file = s.file := rfl
@[simp] theorem consume_overlap (n : Nat) (s : State) : (consume n s).overlap = s.overlap := rfl
@[simp] theorem consume_host (n : Nat) (s : State) : (consume n s).host = s.host := rfl
@[simp] theorem consume_freeCtr (n : Nat) (s : State) : (consume n s).freeCtr = s.freeCtr := rfl

/-! ### writeOut -/

@[simp] theorem writeOut_cfg (a : Nat) (v : Byte) (s : State) : (writeOut a v s).cfg = s.cfg := rfl
@[simp] theorem writeOut_ring (a : Nat) (v : Byte) (s : State) : (writeOut a v s).ring = s.ring := rfl
@[simp] theorem writeOut_inp (a : Nat) (v : Byte) (s : State) : (writeOut a v s).inp = s.inp := rfl
@[simp] theorem writeOut_out (a : Nat) (v : Byte) (s : State) : (writeOut a v s).out = s.out.store none a v := rfl
@[simp] theorem writeOut_wr (a : Nat) (v : Byte) (s : State) : (writeOut a v s).wr = s.wr := rfl
@[simp] theorem writeOut_rd (a : Nat) (v : Byte) (s : State) : (writeOut a v s).rd = s.rd := rfl
@[simp] theorem writeOut_ip (a : Nat) (v : Byte) (s : State) : (writeOut a v s).ip = s.ip := rfl
@[simp] theorem writeOut_op (a : Nat) (v : Byte) (s : State) : (writeOut a v s).op = s.op := rfl
@[simp] theorem writeOut_dist (a : Nat) (v : Byte) (s : State) : (writeOut a v s).dist = s.dist := rfl
@[simp] theorem writeOut_len (a : Nat) (v : Byte) (s : State) : (writeOut a v s).len = s.len := rfl
@[simp] theorem writeOut_bestLen (a : Nat) (v : Byte) (s : State) : (writeOut a v s).bestLen = s.bestLen := rfl
@[simp] theorem writeOut_bestDist (a : Nat) (v : Byte) (s : State) : (writeOut a v s).bestDist = s.bestDist := rfl
@[simp] theorem writeOut_faAcc (a : Nat) (v : Byte) (s : State) : (writeOut a v s).faAcc = s.faAcc := rfl
@[simp] theorem writeOut_faCnt (a : Nat) (v : Byte) (s : State) : (writeOut a v s).faCnt = s.faCnt := rfl
@[simp] theorem writeOut_faSlot (a : Nat) (v : Byte) (s : State) : (writeOut a v s).faSlot = s.faSlot := rfl
@[simp] theorem writeOut_frByte (a : Nat) (v : Byte) (s : State) : (writeOut a v s).frByte = s.frByte := rfl
@[simp] theorem writeOut_frRem (a : Nat) (v : Byte) (s : State) : (writeOut a v s).frRem = s.frRem := rfl
@[simp] theorem writeOut_fbReg (a : Nat) (v : Byte) (s : State) : (writeOut a v s).fbReg = s.fbReg := rfl
@[simp] theorem writeOut_opsel (a : Nat) (v : Byte) (s : State) : (writeOut a v s).opsel = s.opsel := rfl
@[simp] theorem writeOut_inLen (a : Nat) (v : Byte) (s : State) : (writeOut a v s).inLen = s.inLen := rfl
@[simp] theorem writeOut_outCap (a : Nat) (v : Byte) (s : State) : (writeOut a v s).outCap = s.outCap := rfl
@[simp] theorem writeOut_decl (a : Nat) (v : Byte) (s : State) : (writeOut a v s).decl = s.decl := rfl
@[simp] theorem writeOut_status (a : Nat) (v : Byte) (s : State) : (writeOut a v s).status = s.status := rfl
@[simp] theorem writeOut_cause (a : Nat) (v : Byte) (s : State) : (writeOut a v s).cause = s.cause := rfl
@[simp] theorem writeOut_outLen (a : Nat) (v : Byte) (s : State) : (writeOut a v s).outLen = s.outLen := rfl
@[simp] theorem writeOut_inPos (a : Nat) (v : Byte) (s : State) : (writeOut a v s).inPos = s.inPos := rfl
@[simp] theorem writeOut_file (a : Nat) (v : Byte) (s : State) : (writeOut a v s).file = s.file := rfl
@[simp] theorem writeOut_overlap (a : Nat) (v : Byte) (s : State) : (writeOut a v s).overlap = s.overlap := rfl
@[simp] theorem writeOut_host (a : Nat) (v : Byte) (s : State) : (writeOut a v s).host = s.host := rfl
@[simp] theorem writeOut_freeCtr (a : Nat) (v : Byte) (s : State) : (writeOut a v s).freeCtr = s.freeCtr := rfl

/-! ### ringPut -/

@[simp] theorem ringPut_cfg (b : Byte) (s : State) : (ringPut b s).cfg = s.cfg := rfl
@[simp] theorem ringPut_ring (b : Byte) (s : State) : (ringPut b s).ring = s.ring.store (some s.cfg.fill) (ringIndex s.wr).toNat b := rfl
@[simp] theorem ringPut_inp (b : Byte) (s : State) : (ringPut b s).inp = s.inp := rfl
@[simp] theorem ringPut_out (b : Byte) (s : State) : (ringPut b s).out = s.out := rfl
@[simp] theorem ringPut_wr (b : Byte) (s : State) : (ringPut b s).wr = s.wr + 1 := rfl
@[simp] theorem ringPut_rd (b : Byte) (s : State) : (ringPut b s).rd = s.rd := rfl
@[simp] theorem ringPut_ip (b : Byte) (s : State) : (ringPut b s).ip = s.ip := rfl
@[simp] theorem ringPut_op (b : Byte) (s : State) : (ringPut b s).op = s.op := rfl
@[simp] theorem ringPut_dist (b : Byte) (s : State) : (ringPut b s).dist = s.dist := rfl
@[simp] theorem ringPut_len (b : Byte) (s : State) : (ringPut b s).len = s.len := rfl
@[simp] theorem ringPut_bestLen (b : Byte) (s : State) : (ringPut b s).bestLen = s.bestLen := rfl
@[simp] theorem ringPut_bestDist (b : Byte) (s : State) : (ringPut b s).bestDist = s.bestDist := rfl
@[simp] theorem ringPut_faAcc (b : Byte) (s : State) : (ringPut b s).faAcc = s.faAcc := rfl
@[simp] theorem ringPut_faCnt (b : Byte) (s : State) : (ringPut b s).faCnt = s.faCnt := rfl
@[simp] theorem ringPut_faSlot (b : Byte) (s : State) : (ringPut b s).faSlot = s.faSlot := rfl
@[simp] theorem ringPut_frByte (b : Byte) (s : State) : (ringPut b s).frByte = s.frByte := rfl
@[simp] theorem ringPut_frRem (b : Byte) (s : State) : (ringPut b s).frRem = s.frRem := rfl
@[simp] theorem ringPut_fbReg (b : Byte) (s : State) : (ringPut b s).fbReg = s.fbReg := rfl
@[simp] theorem ringPut_opsel (b : Byte) (s : State) : (ringPut b s).opsel = s.opsel := rfl
@[simp] theorem ringPut_inLen (b : Byte) (s : State) : (ringPut b s).inLen = s.inLen := rfl
@[simp] theorem ringPut_outCap (b : Byte) (s : State) : (ringPut b s).outCap = s.outCap := rfl
@[simp] theorem ringPut_decl (b : Byte) (s : State) : (ringPut b s).decl = s.decl := rfl
@[simp] theorem ringPut_status (b : Byte) (s : State) : (ringPut b s).status = s.status := rfl
@[simp] theorem ringPut_cause (b : Byte) (s : State) : (ringPut b s).cause = s.cause := rfl
@[simp] theorem ringPut_outLen (b : Byte) (s : State) : (ringPut b s).outLen = s.outLen := rfl
@[simp] theorem ringPut_inPos (b : Byte) (s : State) : (ringPut b s).inPos = s.inPos := rfl
@[simp] theorem ringPut_file (b : Byte) (s : State) : (ringPut b s).file = s.file := rfl
@[simp] theorem ringPut_overlap (b : Byte) (s : State) : (ringPut b s).overlap = s.overlap := rfl
@[simp] theorem ringPut_host (b : Byte) (s : State) : (ringPut b s).host = s.host := rfl
@[simp] theorem ringPut_freeCtr (b : Byte) (s : State) : (ringPut b s).freeCtr = s.freeCtr := rfl

/-! ### ringInit -/

@[simp] theorem ringInit_cfg (s : State) : (ringInit s).cfg = s.cfg := rfl
@[simp] theorem ringInit_ring (s : State) : (ringInit s).ring = [] := rfl
@[simp] theorem ringInit_inp (s : State) : (ringInit s).inp = s.inp := rfl
@[simp] theorem ringInit_out (s : State) : (ringInit s).out = s.out := rfl
@[simp] theorem ringInit_wr (s : State) : (ringInit s).wr = s.cfg.warm := rfl
@[simp] theorem ringInit_rd (s : State) : (ringInit s).rd = s.rd := rfl
@[simp] theorem ringInit_ip (s : State) : (ringInit s).ip = s.ip := rfl
@[simp] theorem ringInit_op (s : State) : (ringInit s).op = s.op := rfl
@[simp] theorem ringInit_dist (s : State) : (ringInit s).dist = s.dist := rfl
@[simp] theorem ringInit_len (s : State) : (ringInit s).len = s.len := rfl
@[simp] theorem ringInit_bestLen (s : State) : (ringInit s).bestLen = s.bestLen := rfl
@[simp] theorem ringInit_bestDist (s : State) : (ringInit s).bestDist = s.bestDist := rfl
@[simp] theorem ringInit_faAcc (s : State) : (ringInit s).faAcc = s.faAcc := rfl
@[simp] theorem ringInit_faCnt (s : State) : (ringInit s).faCnt = s.faCnt := rfl
@[simp] theorem ringInit_faSlot (s : State) : (ringInit s).faSlot = s.faSlot := rfl
@[simp] theorem ringInit_frByte (s : State) : (ringInit s).frByte = s.frByte := rfl
@[simp] theorem ringInit_frRem (s : State) : (ringInit s).frRem = s.frRem := rfl
@[simp] theorem ringInit_fbReg (s : State) : (ringInit s).fbReg = s.fbReg := rfl
@[simp] theorem ringInit_opsel (s : State) : (ringInit s).opsel = s.opsel := rfl
@[simp] theorem ringInit_inLen (s : State) : (ringInit s).inLen = s.inLen := rfl
@[simp] theorem ringInit_outCap (s : State) : (ringInit s).outCap = s.outCap := rfl
@[simp] theorem ringInit_decl (s : State) : (ringInit s).decl = s.decl := rfl
@[simp] theorem ringInit_status (s : State) : (ringInit s).status = s.status := rfl
@[simp] theorem ringInit_cause (s : State) : (ringInit s).cause = s.cause := rfl
@[simp] theorem ringInit_outLen (s : State) : (ringInit s).outLen = s.outLen := rfl
@[simp] theorem ringInit_inPos (s : State) : (ringInit s).inPos = s.inPos := rfl
@[simp] theorem ringInit_file (s : State) : (ringInit s).file = s.file := rfl
@[simp] theorem ringInit_overlap (s : State) : (ringInit s).overlap = s.overlap := rfl
@[simp] theorem ringInit_host (s : State) : (ringInit s).host = s.host := rfl
@[simp] theorem ringInit_freeCtr (s : State) : (ringInit s).freeCtr = s.freeCtr := rfl

/-! ### fillSlot -/

@[simp] theorem fillSlot_cfg (v : Byte) (s : State) : (fillSlot v s).cfg = s.cfg := rfl
@[simp] theorem fillSlot_ring (v : Byte) (s : State) : (fillSlot v s).ring = s.ring := rfl
@[simp] theorem fillSlot_inp (v : Byte) (s : State) : (fillSlot v s).inp = s.inp := rfl
@[simp] theorem fillSlot_out (v : Byte) (s : State) : (fillSlot v s).out = s.out.store none s.faSlot.toNat v := rfl
@[simp] theorem fillSlot_wr (v : Byte) (s : State) : (fillSlot v s).wr = s.wr := rfl
@[simp] theorem fillSlot_rd (v : Byte) (s : State) : (fillSlot v s).rd = s.rd := rfl
@[simp] theorem fillSlot_ip (v : Byte) (s : State) : (fillSlot v s).ip = s.ip := rfl
@[simp] theorem fillSlot_op (v : Byte) (s : State) : (fillSlot v s).op = s.op := rfl
@[simp] theorem fillSlot_dist (v : Byte) (s : State) : (fillSlot v s).dist = s.dist := rfl
@[simp] theorem fillSlot_len (v : Byte) (s : State) : (fillSlot v s).len = s.len := rfl
@[simp] theorem fillSlot_bestLen (v : Byte) (s : State) : (fillSlot v s).bestLen = s.bestLen := rfl
@[simp] theorem fillSlot_bestDist (v : Byte) (s : State) : (fillSlot v s).bestDist = s.bestDist := rfl
@[simp] theorem fillSlot_faAcc (v : Byte) (s : State) : (fillSlot v s).faAcc = s.faAcc := rfl
@[simp] theorem fillSlot_faCnt (v : Byte) (s : State) : (fillSlot v s).faCnt = s.faCnt := rfl
@[simp] theorem fillSlot_faSlot (v : Byte) (s : State) : (fillSlot v s).faSlot = s.faSlot := rfl
@[simp] theorem fillSlot_frByte (v : Byte) (s : State) : (fillSlot v s).frByte = s.frByte := rfl
@[simp] theorem fillSlot_frRem (v : Byte) (s : State) : (fillSlot v s).frRem = s.frRem := rfl
@[simp] theorem fillSlot_fbReg (v : Byte) (s : State) : (fillSlot v s).fbReg = s.fbReg := rfl
@[simp] theorem fillSlot_opsel (v : Byte) (s : State) : (fillSlot v s).opsel = s.opsel := rfl
@[simp] theorem fillSlot_inLen (v : Byte) (s : State) : (fillSlot v s).inLen = s.inLen := rfl
@[simp] theorem fillSlot_outCap (v : Byte) (s : State) : (fillSlot v s).outCap = s.outCap := rfl
@[simp] theorem fillSlot_decl (v : Byte) (s : State) : (fillSlot v s).decl = s.decl := rfl
@[simp] theorem fillSlot_status (v : Byte) (s : State) : (fillSlot v s).status = s.status := rfl
@[simp] theorem fillSlot_cause (v : Byte) (s : State) : (fillSlot v s).cause = s.cause := rfl
@[simp] theorem fillSlot_outLen (v : Byte) (s : State) : (fillSlot v s).outLen = s.outLen := rfl
@[simp] theorem fillSlot_inPos (v : Byte) (s : State) : (fillSlot v s).inPos = s.inPos := rfl
@[simp] theorem fillSlot_file (v : Byte) (s : State) : (fillSlot v s).file = s.file := rfl
@[simp] theorem fillSlot_overlap (v : Byte) (s : State) : (fillSlot v s).overlap = s.overlap := rfl
@[simp] theorem fillSlot_host (v : Byte) (s : State) : (fillSlot v s).host = s.host := rfl
@[simp] theorem fillSlot_freeCtr (v : Byte) (s : State) : (fillSlot v s).freeCtr = s.freeCtr := rfl

/-! ### flagwPut -/

@[simp] theorem flagwPut_cfg (f : Bool) (s : State) : (flagwPut f s).cfg = s.cfg := rfl
@[simp] theorem flagwPut_ring (f : Bool) (s : State) : (flagwPut f s).ring = s.ring := rfl
@[simp] theorem flagwPut_inp (f : Bool) (s : State) : (flagwPut f s).inp = s.inp := rfl
@[simp] theorem flagwPut_out (f : Bool) (s : State) : (flagwPut f s).out = s.out := rfl
@[simp] theorem flagwPut_wr (f : Bool) (s : State) : (flagwPut f s).wr = s.wr := rfl
@[simp] theorem flagwPut_rd (f : Bool) (s : State) : (flagwPut f s).rd = s.rd := rfl
@[simp] theorem flagwPut_ip (f : Bool) (s : State) : (flagwPut f s).ip = s.ip := rfl
@[simp] theorem flagwPut_op (f : Bool) (s : State) : (flagwPut f s).op = s.op := rfl
@[simp] theorem flagwPut_dist (f : Bool) (s : State) : (flagwPut f s).dist = s.dist := rfl
@[simp] theorem flagwPut_len (f : Bool) (s : State) : (flagwPut f s).len = s.len := rfl
@[simp] theorem flagwPut_bestLen (f : Bool) (s : State) : (flagwPut f s).bestLen = s.bestLen := rfl
@[simp] theorem flagwPut_bestDist (f : Bool) (s : State) : (flagwPut f s).bestDist = s.bestDist := rfl
@[simp] theorem flagwPut_faAcc (f : Bool) (s : State) : (flagwPut f s).faAcc = (s.faAcc <<< 1) ||| (BitVec.ofBool f).setWidth 8 := rfl
@[simp] theorem flagwPut_faCnt (f : Bool) (s : State) : (flagwPut f s).faCnt = s.faCnt + 1 := rfl
@[simp] theorem flagwPut_faSlot (f : Bool) (s : State) : (flagwPut f s).faSlot = s.faSlot := rfl
@[simp] theorem flagwPut_frByte (f : Bool) (s : State) : (flagwPut f s).frByte = s.frByte := rfl
@[simp] theorem flagwPut_frRem (f : Bool) (s : State) : (flagwPut f s).frRem = s.frRem := rfl
@[simp] theorem flagwPut_fbReg (f : Bool) (s : State) : (flagwPut f s).fbReg = s.fbReg := rfl
@[simp] theorem flagwPut_opsel (f : Bool) (s : State) : (flagwPut f s).opsel = s.opsel := rfl
@[simp] theorem flagwPut_inLen (f : Bool) (s : State) : (flagwPut f s).inLen = s.inLen := rfl
@[simp] theorem flagwPut_outCap (f : Bool) (s : State) : (flagwPut f s).outCap = s.outCap := rfl
@[simp] theorem flagwPut_decl (f : Bool) (s : State) : (flagwPut f s).decl = s.decl := rfl
@[simp] theorem flagwPut_status (f : Bool) (s : State) : (flagwPut f s).status = s.status := rfl
@[simp] theorem flagwPut_cause (f : Bool) (s : State) : (flagwPut f s).cause = s.cause := rfl
@[simp] theorem flagwPut_outLen (f : Bool) (s : State) : (flagwPut f s).outLen = s.outLen := rfl
@[simp] theorem flagwPut_inPos (f : Bool) (s : State) : (flagwPut f s).inPos = s.inPos := rfl
@[simp] theorem flagwPut_file (f : Bool) (s : State) : (flagwPut f s).file = s.file := rfl
@[simp] theorem flagwPut_overlap (f : Bool) (s : State) : (flagwPut f s).overlap = s.overlap := rfl
@[simp] theorem flagwPut_host (f : Bool) (s : State) : (flagwPut f s).host = s.host := rfl
@[simp] theorem flagwPut_freeCtr (f : Bool) (s : State) : (flagwPut f s).freeCtr = s.freeCtr := rfl

/-! ### finish -/

@[simp] theorem finish_cfg (s : State) : (finish s).cfg = s.cfg := rfl
@[simp] theorem finish_ring (s : State) : (finish s).ring = s.ring := rfl
@[simp] theorem finish_inp (s : State) : (finish s).inp = s.inp := rfl
@[simp] theorem finish_out (s : State) : (finish s).out = s.out := rfl
@[simp] theorem finish_wr (s : State) : (finish s).wr = s.wr := rfl
@[simp] theorem finish_rd (s : State) : (finish s).rd = s.rd := rfl
@[simp] theorem finish_ip (s : State) : (finish s).ip = s.ip := rfl
@[simp] theorem finish_op (s : State) : (finish s).op = s.op := rfl
@[simp] theorem finish_dist (s : State) : (finish s).dist = s.dist := rfl
@[simp] theorem finish_len (s : State) : (finish s).len = s.len := rfl
@[simp] theorem finish_bestLen (s : State) : (finish s).bestLen = s.bestLen := rfl
@[simp] theorem finish_bestDist (s : State) : (finish s).bestDist = s.bestDist := rfl
@[simp] theorem finish_faAcc (s : State) : (finish s).faAcc = s.faAcc := rfl
@[simp] theorem finish_faCnt (s : State) : (finish s).faCnt = s.faCnt := rfl
@[simp] theorem finish_faSlot (s : State) : (finish s).faSlot = s.faSlot := rfl
@[simp] theorem finish_frByte (s : State) : (finish s).frByte = s.frByte := rfl
@[simp] theorem finish_frRem (s : State) : (finish s).frRem = s.frRem := rfl
@[simp] theorem finish_fbReg (s : State) : (finish s).fbReg = s.fbReg := rfl
@[simp] theorem finish_opsel (s : State) : (finish s).opsel = s.opsel := rfl
@[simp] theorem finish_inLen (s : State) : (finish s).inLen = s.inLen := rfl
@[simp] theorem finish_outCap (s : State) : (finish s).outCap = s.outCap := rfl
@[simp] theorem finish_decl (s : State) : (finish s).decl = s.decl := rfl
@[simp] theorem finish_status (s : State) : (finish s).status = .done := rfl
@[simp] theorem finish_cause (s : State) : (finish s).cause = s.cause := rfl
@[simp] theorem finish_outLen (s : State) : (finish s).outLen = s.op := rfl
@[simp] theorem finish_inPos (s : State) : (finish s).inPos = s.ip := rfl
@[simp] theorem finish_file (s : State) : (finish s).file = s.file := rfl
@[simp] theorem finish_overlap (s : State) : (finish s).overlap = s.overlap := rfl
@[simp] theorem finish_host (s : State) : (finish s).host = s.host := rfl
@[simp] theorem finish_freeCtr (s : State) : (finish s).freeCtr = s.freeCtr := rfl

/-! ### findMatch -/

@[simp] theorem findMatch_cfg (look : List Byte) (s : State) : (findMatch look s).cfg = s.cfg := rfl
@[simp] theorem findMatch_ring (look : List Byte) (s : State) : (findMatch look s).ring = s.ring := rfl
@[simp] theorem findMatch_inp (look : List Byte) (s : State) : (findMatch look s).inp = s.inp := rfl
@[simp] theorem findMatch_out (look : List Byte) (s : State) : (findMatch look s).out = s.out := rfl
@[simp] theorem findMatch_wr (look : List Byte) (s : State) : (findMatch look s).wr = s.wr := rfl
@[simp] theorem findMatch_rd (look : List Byte) (s : State) : (findMatch look s).rd = s.rd := rfl
@[simp] theorem findMatch_ip (look : List Byte) (s : State) : (findMatch look s).ip = s.ip := rfl
@[simp] theorem findMatch_op (look : List Byte) (s : State) : (findMatch look s).op = s.op := rfl
@[simp] theorem findMatch_dist (look : List Byte) (s : State) : (findMatch look s).dist = s.dist := rfl
@[simp] theorem findMatch_len (look : List Byte) (s : State) : (findMatch look s).len = s.len := rfl
@[simp] theorem findMatch_bestLen (look : List Byte) (s : State) : (findMatch look s).bestLen = BitVec.ofNat 5 (bestMatch s look).1 := rfl
@[simp] theorem findMatch_bestDist (look : List Byte) (s : State) : (findMatch look s).bestDist = BitVec.ofNat 13 (bestMatch s look).2 := rfl
@[simp] theorem findMatch_faAcc (look : List Byte) (s : State) : (findMatch look s).faAcc = s.faAcc := rfl
@[simp] theorem findMatch_faCnt (look : List Byte) (s : State) : (findMatch look s).faCnt = s.faCnt := rfl
@[simp] theorem findMatch_faSlot (look : List Byte) (s : State) : (findMatch look s).faSlot = s.faSlot := rfl
@[simp] theorem findMatch_frByte (look : List Byte) (s : State) : (findMatch look s).frByte = s.frByte := rfl
@[simp] theorem findMatch_frRem (look : List Byte) (s : State) : (findMatch look s).frRem = s.frRem := rfl
@[simp] theorem findMatch_fbReg (look : List Byte) (s : State) : (findMatch look s).fbReg = s.fbReg := rfl
@[simp] theorem findMatch_opsel (look : List Byte) (s : State) : (findMatch look s).opsel = s.opsel := rfl
@[simp] theorem findMatch_inLen (look : List Byte) (s : State) : (findMatch look s).inLen = s.inLen := rfl
@[simp] theorem findMatch_outCap (look : List Byte) (s : State) : (findMatch look s).outCap = s.outCap := rfl
@[simp] theorem findMatch_decl (look : List Byte) (s : State) : (findMatch look s).decl = s.decl := rfl
@[simp] theorem findMatch_status (look : List Byte) (s : State) : (findMatch look s).status = s.status := rfl
@[simp] theorem findMatch_cause (look : List Byte) (s : State) : (findMatch look s).cause = s.cause := rfl
@[simp] theorem findMatch_outLen (look : List Byte) (s : State) : (findMatch look s).outLen = s.outLen := rfl
@[simp] theorem findMatch_inPos (look : List Byte) (s : State) : (findMatch look s).inPos = s.inPos := rfl
@[simp] theorem findMatch_file (look : List Byte) (s : State) : (findMatch look s).file = s.file := rfl
@[simp] theorem findMatch_overlap (look : List Byte) (s : State) : (findMatch look s).overlap = s.overlap := rfl
@[simp] theorem findMatch_host (look : List Byte) (s : State) : (findMatch look s).host = s.host := rfl
@[simp] theorem findMatch_freeCtr (look : List Byte) (s : State) : (findMatch look s).freeCtr = s.freeCtr := rfl

/-! ### setMatchA -/

@[simp] theorem setMatchA_cfg (h l : BitVec 4) (dLo : Byte) (s : State) : (setMatchA h l dLo s).cfg = s.cfg := rfl
@[simp] theorem setMatchA_ring (h l : BitVec 4) (dLo : Byte) (s : State) : (setMatchA h l dLo s).ring = s.ring := rfl
@[simp] theorem setMatchA_inp (h l : BitVec 4) (dLo : Byte) (s : State) : (setMatchA h l dLo s).inp = s.inp := rfl
@[simp] theorem setMatchA_out (h l : BitVec 4) (dLo : Byte) (s : State) : (setMatchA h l dLo s).out = s.out := rfl
@[simp] theorem setMatchA_wr (h l : BitVec 4) (dLo : Byte) (s : State) : (setMatchA h l dLo s).wr = s.wr := rfl
@[simp] theorem setMatchA_rd (h l : BitVec 4) (dLo : Byte) (s : State) : (setMatchA h l dLo s).rd = aReadIndex s.wr (aDist h dLo) := rfl
@[simp] theorem setMatchA_ip (h l : BitVec 4) (dLo : Byte) (s : State) : (setMatchA h l dLo s).ip = s.ip := rfl
@[simp] theorem setMatchA_op (h l : BitVec 4) (dLo : Byte) (s : State) : (setMatchA h l dLo s).op = s.op := rfl
@[simp] theorem setMatchA_dist (h l : BitVec 4) (dLo : Byte) (s : State) : (setMatchA h l dLo s).dist = aDist h dLo := rfl
@[simp] theorem setMatchA_len (h l : BitVec 4) (dLo : Byte) (s : State) : (setMatchA h l dLo s).len = aLen s.cfg l := rfl
@[simp] theorem setMatchA_bestLen (h l : BitVec 4) (dLo : Byte) (s : State) : (setMatchA h l dLo s).bestLen = s.bestLen := rfl
@[simp] theorem setMatchA_bestDist (h l : BitVec 4) (dLo : Byte) (s : State) : (setMatchA h l dLo s).bestDist = s.bestDist := rfl
@[simp] theorem setMatchA_faAcc (h l : BitVec 4) (dLo : Byte) (s : State) : (setMatchA h l dLo s).faAcc = s.faAcc := rfl
@[simp] theorem setMatchA_faCnt (h l : BitVec 4) (dLo : Byte) (s : State) : (setMatchA h l dLo s).faCnt = s.faCnt := rfl
@[simp] theorem setMatchA_faSlot (h l : BitVec 4) (dLo : Byte) (s : State) : (setMatchA h l dLo s).faSlot = s.faSlot := rfl
@[simp] theorem setMatchA_frByte (h l : BitVec 4) (dLo : Byte) (s : State) : (setMatchA h l dLo s).frByte = s.frByte := rfl
@[simp] theorem setMatchA_frRem (h l : BitVec 4) (dLo : Byte) (s : State) : (setMatchA h l dLo s).frRem = s.frRem := rfl
@[simp] theorem setMatchA_fbReg (h l : BitVec 4) (dLo : Byte) (s : State) : (setMatchA h l dLo s).fbReg = s.fbReg := rfl
@[simp] theorem setMatchA_opsel (h l : BitVec 4) (dLo : Byte) (s : State) : (setMatchA h l dLo s).opsel = s.opsel := rfl
@[simp] theorem setMatchA_inLen (h l : BitVec 4) (dLo : Byte) (s : State) : (setMatchA h l dLo s).inLen = s.inLen := rfl
@[simp] theorem setMatchA_outCap (h l : BitVec 4) (dLo : Byte) (s : State) : (setMatchA h l dLo s).outCap = s.outCap := rfl
@[simp] theorem setMatchA_decl (h l : BitVec 4) (dLo : Byte) (s : State) : (setMatchA h l dLo s).decl = s.decl := rfl
@[simp] theorem setMatchA_status (h l : BitVec 4) (dLo : Byte) (s : State) : (setMatchA h l dLo s).status = s.status := rfl
@[simp] theorem setMatchA_cause (h l : BitVec 4) (dLo : Byte) (s : State) : (setMatchA h l dLo s).cause = s.cause := rfl
@[simp] theorem setMatchA_outLen (h l : BitVec 4) (dLo : Byte) (s : State) : (setMatchA h l dLo s).outLen = s.outLen := rfl
@[simp] theorem setMatchA_inPos (h l : BitVec 4) (dLo : Byte) (s : State) : (setMatchA h l dLo s).inPos = s.inPos := rfl
@[simp] theorem setMatchA_file (h l : BitVec 4) (dLo : Byte) (s : State) : (setMatchA h l dLo s).file = s.file := rfl
@[simp] theorem setMatchA_overlap (h l : BitVec 4) (dLo : Byte) (s : State) : (setMatchA h l dLo s).overlap = s.overlap := rfl
@[simp] theorem setMatchA_host (h l : BitVec 4) (dLo : Byte) (s : State) : (setMatchA h l dLo s).host = s.host := rfl
@[simp] theorem setMatchA_freeCtr (h l : BitVec 4) (dLo : Byte) (s : State) : (setMatchA h l dLo s).freeCtr = s.freeCtr := rfl

/-! ### raiseFault -/

@[simp] theorem raiseFault_cfg (f : Cause) (s : State) : (raiseFault f s).cfg = s.cfg := rfl
@[simp] theorem raiseFault_inp (f : Cause) (s : State) : (raiseFault f s).inp = s.inp := rfl
@[simp] theorem raiseFault_out (f : Cause) (s : State) : (raiseFault f s).out = [] := rfl
@[simp] theorem raiseFault_opsel (f : Cause) (s : State) : (raiseFault f s).opsel = s.opsel := rfl
@[simp] theorem raiseFault_inLen (f : Cause) (s : State) : (raiseFault f s).inLen = s.inLen := rfl
@[simp] theorem raiseFault_outCap (f : Cause) (s : State) : (raiseFault f s).outCap = s.outCap := rfl
@[simp] theorem raiseFault_decl (f : Cause) (s : State) : (raiseFault f s).decl = s.decl := rfl
@[simp] theorem raiseFault_status (f : Cause) (s : State) : (raiseFault f s).status = .fault := rfl
@[simp] theorem raiseFault_cause (f : Cause) (s : State) : (raiseFault f s).cause = f := rfl
@[simp] theorem raiseFault_file (f : Cause) (s : State) : (raiseFault f s).file = s.file := rfl
@[simp] theorem raiseFault_overlap (f : Cause) (s : State) : (raiseFault f s).overlap = s.overlap := rfl
@[simp] theorem raiseFault_host (f : Cause) (s : State) : (raiseFault f s).host = s.host := rfl

/-! ### beginCommand -/

@[simp] theorem beginCommand_cfg (s : State) : (beginCommand s).cfg = s.cfg := rfl
@[simp] theorem beginCommand_ring (s : State) : (beginCommand s).ring = s.ring := rfl
@[simp] theorem beginCommand_inp (s : State) : (beginCommand s).inp = s.inp := rfl
@[simp] theorem beginCommand_out (s : State) : (beginCommand s).out = [] := rfl
@[simp] theorem beginCommand_wr (s : State) : (beginCommand s).wr = s.wr := rfl
@[simp] theorem beginCommand_ip (s : State) : (beginCommand s).ip = 0 := rfl
@[simp] theorem beginCommand_op (s : State) : (beginCommand s).op = 0 := rfl
@[simp] theorem beginCommand_faAcc (s : State) : (beginCommand s).faAcc = s.faAcc := rfl
@[simp] theorem beginCommand_faCnt (s : State) : (beginCommand s).faCnt = s.faCnt := rfl
@[simp] theorem beginCommand_faSlot (s : State) : (beginCommand s).faSlot = s.faSlot := rfl
@[simp] theorem beginCommand_frByte (s : State) : (beginCommand s).frByte = s.frByte := rfl
@[simp] theorem beginCommand_frRem (s : State) : (beginCommand s).frRem = s.frRem := rfl
@[simp] theorem beginCommand_fbReg (s : State) : (beginCommand s).fbReg = s.fbReg := rfl
@[simp] theorem beginCommand_opsel (s : State) : (beginCommand s).opsel = s.opsel := rfl
@[simp] theorem beginCommand_inLen (s : State) : (beginCommand s).inLen = s.inLen := rfl
@[simp] theorem beginCommand_outCap (s : State) : (beginCommand s).outCap = s.outCap := rfl
@[simp] theorem beginCommand_decl (s : State) : (beginCommand s).decl = s.decl := rfl
@[simp] theorem beginCommand_status (s : State) : (beginCommand s).status = .busy := rfl
@[simp] theorem beginCommand_cause (s : State) : (beginCommand s).cause = .none := rfl
@[simp] theorem beginCommand_file (s : State) : (beginCommand s).file = s.file := rfl
@[simp] theorem beginCommand_overlap (s : State) : (beginCommand s).overlap = s.overlap := rfl
@[simp] theorem beginCommand_host (s : State) : (beginCommand s).host = s.host := rfl

/-! ### powerOnReset -/

@[simp] theorem powerOnReset_cfg (s : State) : (powerOnReset s).cfg = s.cfg := rfl
@[simp] theorem powerOnReset_inp (s : State) : (powerOnReset s).inp = s.inp := rfl
@[simp] theorem powerOnReset_out (s : State) : (powerOnReset s).out = [] := rfl
@[simp] theorem powerOnReset_opsel (s : State) : (powerOnReset s).opsel = 0 := rfl
@[simp] theorem powerOnReset_status (s : State) : (powerOnReset s).status = .idle := rfl
@[simp] theorem powerOnReset_cause (s : State) : (powerOnReset s).cause = .none := rfl
@[simp] theorem powerOnReset_file (s : State) : (powerOnReset s).file = s.file := rfl
@[simp] theorem powerOnReset_overlap (s : State) : (powerOnReset s).overlap = s.overlap := rfl
@[simp] theorem powerOnReset_host (s : State) : (powerOnReset s).host = s.host := rfl

end Sys2Proof.Machine
end

