-- ==== Sys2Proof/Laws/Ops.lean ====
section
/-! SUPPORT. For each shared operation, what its reads give after an update and one lemma that says
everything it can do. Provers cite these and unfold the operations no further. -/

namespace Sys2Proof.Machine

/-! ## Flow -/

@[simp] theorem bind_go {α β : Type} (a : α) (s : State) (f : α → State → Flow β) :
    (Flow.go a s).bind f = f a s := rfl

@[simp] theorem bind_halt {α β : Type} (r : Result) (f : α → State → Flow β) :
    (Flow.halt r : Flow α).bind f = .halt r := rfl

@[simp] theorem result_go {α : Type} (a : α) (s : State) : (Flow.go a s).result = .next s := rfl

@[simp] theorem result_halt {α : Type} (r : Result) : (Flow.halt r : Flow α).result = r := rfl

/-- A composition goes on exactly when both parts do. -/
theorem bind_eq_go {α β : Type} {x : Flow α} {f : α → State → Flow β} {b : β} {t : State} :
    x.bind f = .go b t ↔ ∃ a u, x = .go a u ∧ f a u = .go b t := by
  cases x with
  | go a s => simp
  | halt r => simp

/-- A composition halts in its first part or in its second. -/
theorem bind_eq_halt {α β : Type} {x : Flow α} {f : α → State → Flow β} {r : Result} :
    x.bind f = .halt r ↔ x = .halt r ∨ ∃ a u, x = .go a u ∧ f a u = .halt r := by
  cases x with
  | go a s => simp
  | halt r' => simp

/-! ## The three spaces -/

@[simp] theorem unlisted_ring (c : Config) : unlisted c .ring = some c.fill := rfl
@[simp] theorem unlisted_inp (c : Config) : unlisted c .inp = none := rfl
@[simp] theorem unlisted_out (c : Config) : unlisted c .out = none := rfl

theorem readIn_eq (s : State) (a : Nat) : readIn s a = s.inp.read? a := by simp [readIn]

theorem readOut_eq (s : State) (a : Nat) : readOut s a = s.out.read? a := by simp [readOut]

/-- A write to OUT is read back. -/
@[simp] theorem readOut_writeOut_same (a : Nat) (v : Byte) (s : State) : readOut (writeOut a v s) a = some v := by
  simp [readOut_eq, Memory.store_none]

/-- A write to OUT leaves every other byte of it alone. -/
theorem readOut_writeOut_other {a b : Nat} (v : Byte) (s : State) (h : b ≠ a) :
    readOut (writeOut a v s) b = readOut s b := by
  simp [readOut_eq, Memory.store_none, Memory.read?_write_other _ _ h]

/-- Reading OUT depends on the memory OUT alone. -/
theorem readOut_congr {s t : State} (h : t.out = s.out) (a : Nat) : readOut t a = readOut s a := by
  simp [readOut_eq, h]

/-- Reading IN depends on the memory IN alone. -/
theorem readIn_congr {s t : State} (h : t.inp = s.inp) (a : Nat) : readIn t a = readIn s a := by
  simp [readIn_eq, h]

/-- IN after bytes are placed in it: those bytes, and beyond them what it held (spec 70 R334). -/
theorem readIn_of_placeBytes {s t : State} {bs : List Byte} (h : t.inp = s.inp.placeBytes bs) (k : Nat) :
    readIn t k = if k < bs.length then bs[k]? else readIn s k := by
  simp only [readIn_eq, h, Memory.read?_placeBytes]

/-- A ring cell depends on RING and `FILL` alone. -/
theorem ringGet_congr {s t : State} (h : t.ring = s.ring) (hc : t.cfg = s.cfg) (i : RingIdx) :
    ringGet t i = ringGet s i := by
  simp [ringGet, h, hc]

/-- RING_PUT writes the cell its old cursor designates (spec 40 R132). -/
@[simp] theorem ringGet_ringPut_same (b : Byte) (s : State) : ringGet (ringPut b s) (ringIndex s.wr) = b := by
  simp [ringGet]

/-- RING_PUT leaves every other cell alone. -/
theorem ringGet_ringPut_other (b : Byte) (s : State) {i : RingIdx} (h : i ≠ ringIndex s.wr) :
    ringGet (ringPut b s) i = ringGet s i := by
  have h' : i.toNat ≠ (ringIndex s.wr).toNat := fun e => h (BitVec.eq_of_toNat_eq e)
  simp [ringGet, Memory.load_store_other _ _ _ h']

/-- After RING_INIT every cell is `FILL` (spec 40 R131). -/
@[simp] theorem ringGet_ringInit (s : State) (i : RingIdx) : ringGet (ringInit s) i = s.cfg.fill := by
  simp [ringGet, Memory.load]

/-! ## The access primitives -/

/-- Everything FETCH does (spec 20 R66). -/
theorem fetch_cases (s : State) :
    (s.ip < s.inLen ∧ ∃ b, readIn s s.ip.toNat = some b ∧ fetch s = .go b { s with ip := s.ip + 1 }) ∨
    (s.ip < s.inLen ∧ readIn s s.ip.toNat = none ∧ fetch s = .halt (.fault .inUnplaced)) ∨
    (¬ s.ip < s.inLen ∧ fetch s = .halt (.next (raiseFault .inputUnderrun s))) := by
  unfold fetch
  by_cases h : s.ip < s.inLen
  · cases hb : readIn s s.ip.toNat with
    | some b => exact .inl ⟨h, b, rfl, by simp [h]⟩
    | none => exact .inr (.inl ⟨h, rfl, by simp [h]⟩)
  · exact .inr (.inr ⟨h, by simp [h, raiseFlow]⟩)

/-- PUT_OUT with room (spec 20 R67). -/
theorem putOut_of_lt {v : Byte} {s : State} (h : s.op < cap s) :
    putOut v s = .go () { writeOut s.op.toNat v s with op := s.op + 1 } := by simp [putOut, h]

/-- PUT_OUT without room (spec 20 R67). -/
theorem putOut_of_not_lt {v : Byte} {s : State} (h : ¬ s.op < cap s) :
    putOut v s = .halt (.next (raiseFault .outputOverrun s)) := by simp [putOut, h, raiseFlow]

/-- What PUT_OUT did when it went on. -/
theorem putOut_go {v : Byte} {s t : State} (h : putOut v s = .go () t) :
    s.op < cap s ∧ t = { writeOut s.op.toNat v s with op := s.op + 1 } := by
  by_cases hc : s.op < cap s
  · rw [putOut_of_lt hc] at h; exact ⟨hc, by simpa using h.symm⟩
  · rw [putOut_of_not_lt hc] at h; cases h

/-- Everything GET_OUT does (spec 20 R68). -/
theorem getOut_cases (d : Nat) (s : State) :
    (s.op.toNat < d ∧ getOut d s = .halt (.next (raiseFault .backrefUnderflow s))) ∨
    (d ≤ s.op.toNat ∧ ∃ b, readOut s (s.op.toNat - d) = some b ∧ getOut d s = .go b s) ∨
    (d ≤ s.op.toNat ∧ readOut s (s.op.toNat - d) = none ∧ getOut d s = .halt (.fault .outUnwritten)) := by
  unfold getOut
  by_cases h : s.op.toNat < d
  · exact .inl ⟨h, by simp [h, raiseFlow]⟩
  · cases hb : readOut s (s.op.toNat - d) with
    | some b => exact .inr (.inl ⟨by omega, b, rfl, by simp [h]⟩)
    | none => exact .inr (.inr ⟨by omega, rfl, by simp [h]⟩)

/-- An advance of OP that has room does not wrap. -/
theorem succ_toNat_of_lt {a b : Size} (h : a < b) : (a + 1).toNat = a.toNat + 1 := by
  have h1 : a.toNat < b.toNat := h
  have h2 := b.isLt
  rw [BitVec.toNat_add, show (1 : Size).toNat = 1 from rfl, Nat.mod_eq_of_lt (by omega)]

/-! ## The flag-bit writer and readers -/

/-- What FLAGW_RESERVE did when it went on (spec 42 R171). -/
theorem flagwReserve_go {s t : State} (h : flagwReserve s = .go () t) :
    s.op < cap s ∧
      t = { writeOut s.op.toNat 0 s with op := s.op + 1, faSlot := s.op, faAcc := 0, faCnt := 0 } := by
  obtain ⟨_, u, hu, ht⟩ := bind_eq_go.1 h
  obtain ⟨hc, rfl⟩ := putOut_go hu
  exact ⟨hc, by simpa [writeOut] using ht.symm⟩

/-- FLAGW_RESERVE without room (spec 42 R171). -/
theorem flagwReserve_of_not_lt {s : State} (h : ¬ s.op < cap s) :
    flagwReserve s = .halt (.next (raiseFault .outputOverrun { s with faSlot := s.op })) := by
  have h' : ¬ ({ s with faSlot := s.op } : State).op < cap { s with faSlot := s.op } := h
  simp only [flagwReserve]
  rw [putOut_of_not_lt h']
  rfl

/-- FLAGW_RESERVE with room (spec 42 R171). -/
theorem flagwReserve_of_lt {s : State} (h : s.op < cap s) :
    flagwReserve s =
      .go () { writeOut s.op.toNat 0 s with op := s.op + 1, faSlot := s.op, faAcc := 0, faCnt := 0 } := by
  have h' : ({ s with faSlot := s.op } : State).op < cap { s with faSlot := s.op } := h
  simp only [flagwReserve]
  rw [putOut_of_lt h']
  rfl

/-- FLAGR_A_GET with flag bits left: no byte is fetched (spec 42 R180). -/
theorem flagrAGet_of_rem {s : State} (h : s.frRem ≠ 0) :
    flagrAGet s = .go s.frByte.msb { s with frRem := s.frRem - 1, frByte := s.frByte <<< 1 } := by
  simp only [flagrAGet, frRefill]; rw [if_neg h]; rfl

/-- FLAGR_A_GET with none left: the next flag byte is fetched first (spec 42 R180). -/
theorem flagrAGet_of_fetch {s t : State} {b : Byte} (h : s.frRem = 0) (hf : fetch s = .go b t) :
    flagrAGet s = .go b.msb { t with frRem := 7, frByte := b <<< 1 } := by
  simp [flagrAGet, frRefill, h, hf]

/-- FLAGR_B_GET with flag bits left: no byte is fetched (spec 42 R185). -/
theorem flagrBGet_of_marker {s : State} (h : (s.fbReg >>> 1).extractLsb' 8 8 ≠ 0) :
    flagrBGet s = .go ((s.fbReg >>> 1).getLsbD 0) { s with fbReg := s.fbReg >>> 1 } := by
  simp only [flagrBGet]; rw [if_neg h]

/-! ## The copy engines -/

/-- One step and then `n` more advance a cursor by `n + 1`. -/
theorem advance_succ {w : Nat} (a : BitVec w) (n : Nat) : a + 1 + BitVec.ofNat w n = a + BitVec.ofNat w (n + 1) := by
  rw [BitVec.ofNat_add, BitVec.add_assoc, BitVec.add_comm (BitVec.ofNat w n)]; rfl

/-- COPY_A ends the step only by raising OUTPUT_OVERRUN (spec 44 R227, R231). -/
theorem copyA_halt {n : Nat} {s : State} {r : Result} (h : copyA n s = .halt r) :
    ∃ t, r = .next (raiseFault .outputOverrun t) := by
  induction n generalizing s with
  | zero => cases h
  | succ n ih =>
    rcases bind_eq_halt.1 h with h | ⟨_, u, _, h⟩
    · by_cases hc : s.op < cap s
      · rw [putOut_of_lt hc] at h; cases h
      · rw [putOut_of_not_lt hc] at h; exact ⟨s, by simpa using h.symm⟩
    · exact ih h

/-- When COPY_A goes on it has changed RING, OUT, WR, RD and OP only, and moved each cursor by the
number of steps (spec 44 R226). -/
theorem copyA_go {n : Nat} {s t : State} (h : copyA n s = .go () t) :
    t = { s with
      ring := t.ring
      out := t.out
      wr := s.wr + BitVec.ofNat 16 n
      rd := s.rd + BitVec.ofNat 12 n
      op := s.op + BitVec.ofNat 32 n } := by
  induction n generalizing s with
  | zero => cases h; simp
  | succ n ih =>
    obtain ⟨_, u, hu, h⟩ := bind_eq_go.1 h
    obtain ⟨_, rfl⟩ := putOut_go hu
    have h1 := ih h
    rw [h1]
    simp only [ringPut, writeOut, advance_succ]

/-- COPY_B ends the step only by raising OUTPUT_OVERRUN or BACKREF_UNDERFLOW, or on a byte of OUT
that nothing has written (spec 45 R252). -/
theorem copyB_halt {n : Nat} {s : State} {r : Result} (h : copyB n s = .halt r) :
    r = .fault .outUnwritten ∨
      ∃ t, r = .next (raiseFault .outputOverrun t) ∨ r = .next (raiseFault .backrefUnderflow t) := by
  induction n generalizing s with
  | zero => cases h
  | succ n ih =>
    rcases bind_eq_halt.1 h with h | ⟨b, u, hg, h⟩
    · rcases getOut_cases s.dist.toNat s with ⟨_, e⟩ | ⟨_, _, _, e⟩ | ⟨_, _, e⟩ <;> rw [e] at h
      · exact .inr ⟨s, .inr (by simpa using h.symm)⟩
      · cases h
      · exact .inl (by simpa using h.symm)
    · rcases bind_eq_halt.1 h with h | ⟨_, v, _, h⟩
      · by_cases hc : u.op < cap u
        · rw [putOut_of_lt hc] at h; cases h
        · rw [putOut_of_not_lt hc] at h; exact .inr ⟨u, .inl (by simpa using h.symm)⟩
      · exact ih h

/-- When COPY_B goes on it has changed OUT and OP only (spec 45 R252). -/
theorem copyB_go {n : Nat} {s t : State} (h : copyB n s = .go () t) :
    t = { s with out := t.out, op := s.op + BitVec.ofNat 32 n } := by
  induction n generalizing s with
  | zero => cases h; simp
  | succ n ih =>
    obtain ⟨b, u, hg, h⟩ := bind_eq_go.1 h
    obtain ⟨_, v, hv, h⟩ := bind_eq_go.1 h
    rcases getOut_cases s.dist.toNat s with ⟨_, e⟩ | ⟨_, _, _, e⟩ | ⟨_, _, e⟩ <;> rw [e] at hg <;> cases hg
    obtain ⟨_, rfl⟩ := putOut_go hv
    have h1 := ih h
    rw [h1]
    simp only [writeOut, advance_succ]

/-- When the encoder's ring update goes on it has changed RING, WR and IP only (spec 43 R204). -/
theorem ringPutInput_go {n : Nat} {s t : State} (h : ringPutInput n s = .go () t) :
    t = { s with
      ring := t.ring
      wr := s.wr + BitVec.ofNat 16 n
      ip := s.ip + BitVec.ofNat 32 n } := by
  induction n generalizing s with
  | zero => cases h; simp
  | succ n ih =>
    simp only [ringPutInput] at h
    split at h
    · have h1 := ih h
      rw [h1]
      simp only [ringPut, consume, show BitVec.ofNat 32 1 = (1 : Size) from rfl, advance_succ]
    · cases h

/-! ## Canonical memories -/

theorem wf_freeRing (c : Config) (n : Nat) : Memory.wf (some c.fill) ringSize (freeRing c n) = true :=
  Memory.wf_tabulate _ _ (Nat.le_refl _)

/-- RING_PUT keeps RING canonical. -/
theorem wf_ringPut {b : Byte} {s : State} (h : Memory.wf (some s.cfg.fill) ringSize s.ring = true) :
    Memory.wf (some s.cfg.fill) ringSize (ringPut b s).ring = true :=
  Memory.wf_store h (ringIndex s.wr).isLt

/-- A write to OUT below 2^32 keeps OUT canonical. -/
theorem wf_writeOut {a : Nat} {v : Byte} {s : State} (h : Memory.wf none sizeLimit s.out = true) (ha : a < sizeLimit) :
    Memory.wf none sizeLimit (writeOut a v s).out = true :=
  Memory.wf_store h ha

/-- The reset state's memories are canonical. -/
theorem reset_memories_wf :
    Memory.wf (some State.reset.cfg.fill) ringSize State.reset.ring = true ∧
    Memory.wf none sizeLimit State.reset.inp = true ∧ Memory.wf none sizeLimit State.reset.out = true :=
  ⟨rfl, rfl, rfl⟩

/-! ## Looking at IN -/

/-- A run of IN is as long as asked when every byte is placed and below IN_LEN. -/
theorem inRun_length_le (s : State) (n a : Nat) : (inRun s n a).length ≤ n := by
  induction n generalizing a with
  | zero => simp [inRun]
  | succ n ih =>
    simp only [inRun]
    split
    · split
      · simpa using ih (a + 1)
      · simp
    · simp

/-- Each byte of a run is the byte of IN at its index, below IN_LEN. -/
theorem inRun_getElem? {s : State} {n a k : Nat} {b : Byte} (h : (inRun s n a)[k]? = some b) :
    a + k < s.inLen.toNat ∧ readIn s (a + k) = some b := by
  induction n generalizing a k with
  | zero => simp [inRun] at h
  | succ n ih =>
    simp only [inRun] at h
    split at h
    · next ha =>
      split at h
      · next c hc =>
        cases k with
        | zero => simp only [List.getElem?_cons_zero, Option.some.injEq] at h; subst h; exact ⟨by omega, hc⟩
        | succ k =>
          rw [List.getElem?_cons_succ] at h
          have := ih h
          rw [show a + (k + 1) = a + 1 + k by omega]
          exact this
      · simp at h
    · simp at h

/-- A run begins with the byte at its index, if that is placed and below IN_LEN. -/
theorem inRun_cons {s : State} {n a : Nat} {b : Byte} (ha : a < s.inLen.toNat) (hb : readIn s a = some b) :
    inRun s (n + 1) a = b :: inRun s n (a + 1) := by simp [inRun, ha, hb]

/-- A run at or beyond IN_LEN is empty. -/
theorem inRun_of_ge {s : State} {n a : Nat} (ha : s.inLen.toNat ≤ a) : inRun s n a = [] := by
  cases n with
  | zero => rfl
  | succ n => simp [inRun, show ¬ a < s.inLen.toNat by omega]

/-- Where every byte below IN_LEN is placed, a run is cut short by IN_LEN alone. -/
theorem inRun_length_of_placed {s : State} (h : ∀ a, a < s.inLen.toNat → (readIn s a).isSome = true) (n a : Nat) :
    (inRun s n a).length = min n (s.inLen.toNat - a) := by
  induction n generalizing a with
  | zero => simp [inRun]
  | succ n ih =>
    by_cases ha : a < s.inLen.toNat
    · obtain ⟨b, hb⟩ := Option.isSome_iff_exists.1 (h a ha)
      rw [inRun_cons ha hb, List.length_cons, ih]; omega
    · rw [inRun_of_ge (by omega)]; simp; omega

/-- Looking at IN depends on IN and IN_LEN alone. -/
theorem inRun_congr {s t : State} (h : t.inp = s.inp) (hl : t.inLen = s.inLen) (n a : Nat) :
    inRun t n a = inRun s n a := by
  induction n generalizing a with
  | zero => rfl
  | succ n ih => simp only [inRun, hl, readIn_congr h, ih]

/-! ## Launching and fetching tokens -/

/-- A command that can be launched runs its initialisation. -/
theorem launch_of_ok {s : State} {k : State → Result} (hb : s.status ≠ .busy) (ho : s.overlap = false) :
    launch s k = k s := by simp [launch, hb, ho]

/-- A decoded token is executed. -/
theorem runToken_of_ok {sp : Space} {s : State} {i : Instr} {rest : List Byte}
    (h : decode s.cfg sp (inRun s 3 s.ip.toNat) = .ok (i, rest)) : runToken sp s = exec i s := by
  simp [runToken, h]

/-- A token cut short by the end of IN raises INPUT_UNDERRUN. -/
theorem runToken_of_short {sp : Space} {s : State} {e : DecodeError}
    (h : decode s.cfg sp (inRun s 3 s.ip.toNat) = .error e)
    (hl : s.inLen.toNat ≤ s.ip.toNat + (inRun s 3 s.ip.toNat).length) :
    runToken sp s = .next (raiseFault .inputUnderrun s) := by
  simp [runToken, h, missingByte, show ¬ s.ip.toNat + (inRun s 3 s.ip.toNat).length < s.inLen.toNat by omega]

/-- The host's filling of IN completes below the size limit and stops otherwise. -/
theorem fillIn_of_lt {bs : List Byte} {n : Size} {s : State} (h : bs.length < sizeLimit) :
    fillIn bs n s = .next { s with inp := s.inp.placeBytes bs, inLen := n } := by
  simp [fillIn, h]

theorem fillIn_of_not_lt {bs : List Byte} {n : Size} {s : State} (h : ¬ bs.length < sizeLimit) :
    fillIn bs n s = .refused .sizeTooLarge := by
  simp [fillIn, h]

/-- The close is run exactly when the group is full (spec 43 R205). -/
theorem closeIfFull_of_ne {s : State} (h : s.faCnt.toNat ≠ 8) : closeIfFull s = .go () s := by
  simp [closeIfFull, groupSize, h]

theorem closeIfFull_of_eq {s : State} (h : s.faCnt.toNat = 8) : closeIfFull s = flagwClose s := by
  simp [closeIfFull, groupSize, h]

end Sys2Proof.Machine
end

