-- ==== Sys2Proof/Laws/PerInstr.lean ====
section
/-! SUPPORT. The statements made per instruction, one lemma per constructor of Instr. -/

namespace Sys2Proof.Laws.EncodedLength

/-- An instruction's encoding has its row's length, whatever the configuration (spec 30 R120, R110,
R111, R115). -/
def Statement (i : Instr) : Prop := ∀ c : Config, (encode c i).length = i.bytes

theorem aLit (b : Byte) : Statement (.aLit b) := fun _ => rfl
theorem aMatch (h l : BitVec 4) (dLo : Byte) : Statement (.aMatch h l dLo) := fun _ => rfl
theorem bLit (b : Byte) : Statement (.bLit b) := fun _ => rfl
theorem bShort (c : Byte) : Statement (.bShort c) := fun _ => rfl
theorem bLong (sel h : BitVec 4) (dLo : Byte) : Statement (.bLong sel h dLo) := fun _ => rfl
theorem bSuper (h : BitVec 4) (dLo e : Byte) : Statement (.bSuper h dLo e) := fun _ => rfl
theorem bEnd (sel : BitVec 4) : Statement (.bEnd sel) := fun _ => rfl
theorem encA : Statement .encA := fun _ => rfl
theorem decA : Statement .decA := fun _ => rfl
theorem decB : Statement .decB := fun _ => rfl
theorem noCommand : Statement .noCommand := fun _ => rfl
theorem hdrA (compressedSize originalSize : Size) : Statement (.hdrA compressedSize originalSize) := fun _ => rfl
theorem hdrB (decompressedSize : Size) : Statement (.hdrB decompressedSize) := fun _ => rfl

end Sys2Proof.Laws.EncodedLength
end

