-- ==== Sys2Proof/Tests/Slice0.lean ====
section
/-! SUPPORT. Tests whose expected results come from the spec's encodings (30) and worked vectors (95),
and for every obligation with hypotheses a witness that meets them. -/

set_option Elab.async false

namespace Sys2Proof.Tests

open Sys2Proof Sys2Proof.Machine

/-! ## Helpers -/

/-- The next state satisfies `f`. -/
def after (r : Result) (f : State → Bool) : Bool :=
  match r with
  | .next t => f t
  | _ => false

/-- The reference configuration with a short search window, for tests of the encoder. -/
def near : Config := { Config.reference with aMaxDist := 8 }

/-- A running command on `input` with `written` bytes of `output` produced and capacity `n`. -/
def running (op : BitVec 2) (input : List Byte) (ip : Size) (output : List Byte) (n : Size) : State :=
  { State.reset with
    cfg := near
    opsel := op
    status := .busy
    inp := Memory.ofBytes input
    inLen := BitVec.ofNat 32 input.length
    ip := ip
    out := Memory.ofBytes output
    op := BitVec.ofNat 32 output.length
    wr := 3822
    outCap := n
    decl := n }

/-- A machine that has ended a command, with IN, the control registers and host actions given. -/
def waiting (op : BitVec 2) (input : List Byte) (n : Size) (q : List HostAction) : State :=
  { running op input 0 [] n with status := .done, host := q }

/-- DEC_A of V-D1 with its first flag read: IP at the literal's byte. -/
def stA : State := { running 2 [0xA0, 0x41, 0x0F, 0x01, 0x41] 1 [] 20 with frByte := 0x40, frRem := 7 }

/-- DEC_A of V-D1 before its MATCH: `41` emitted, the flag read. -/
def stA2 : State :=
  { running 2 [0xA0, 0x41, 0x0F, 0x01, 0x41] 2 [0x41] 20 with frByte := 0x80, frRem := 6, ring := [(3822, 0x41)], wr := 3823 }

/-- DEC_B of V-B4a before its LONG: `41` emitted, the flag read. -/
def stB : State := { running 3 [0x06, 0x41, 0x10, 0x01, 0x00, 0x00] 2 [0x41] 6 with fbReg := 0x7F83 }

/-- ENC_A after its initialisation on `41 41 41 41 41`. -/
def stE : State := { running 1 [0x41, 0x41, 0x41, 0x41, 0x41] 0 [0x00] 9 with faSlot := 0 }

/-- ENC_A after its first literal on `41 41 41 41 41`. -/
def stE2 : State :=
  { running 1 [0x41, 0x41, 0x41, 0x41, 0x41] 1 [0x00, 0x41] 9 with ring := [(3822, 0x41)], wr := 3823, faAcc := 1, faCnt := 1 }

/-! ## Well-formedness: each check refuses an ill-formed term -/

/-- A SHORT control byte below `0x60` (30 R100). -/
theorem test_wf_short_low : (Instr.bShort 0x5F).wf Config.reference = false := by decide
/-- A LONG control byte of `0x60` (30 R101). -/
theorem test_wf_long_high : (Instr.bLong 0x6 0x0 0x01).wf Config.reference = false := by decide
/-- A LONG whose selector is the superlength code (30 R102). -/
theorem test_wf_long_super : (Instr.bLong 0x5 0x0 0x01).wf Config.reference = false := by decide
/-- A LONG at distance 0 (30 R103). -/
theorem test_wf_long_zero : (Instr.bLong 0x1 0x0 0x00).wf Config.reference = false := by decide
/-- A SUPER at distance 0 (30 R103). -/
theorem test_wf_super_zero : (Instr.bSuper 0x0 0x00 0x07).wf Config.reference = false := by decide
/-- A SUPER under a configuration whose code a long shape cannot hold (30 R119). -/
theorem test_wf_super_code :
    (Instr.bSuper 0x0 0x01 0x07).wf { Config.reference with bSuperCode := 0x6 } = false := by decide
/-- An END whose selector gives a control byte of `0x60` (30 R103). -/
theorem test_wf_end_high : (Instr.bEnd 0x6).wf Config.reference = false := by decide
/-- A configuration whose longest match does not fit the length field (00 R7). -/
theorem test_cfg_wf : Config.reference.wf = true ∧ { Config.reference with aMaxMatch := 19 }.wf = false := by decide

/-! ## Decoding: words written out bit by bit from spec 30 -/

theorem test_decode_a_lit : decode Config.reference (.tokenA true) [0b01000001] = .ok (.aLit 0x41, []) := rfl
theorem test_decode_a_match :
    decode Config.reference (.tokenA false) [0b11110010, 0b00000101] = .ok (.aMatch 0xF 0x2 0x05, []) := rfl
theorem test_decode_b_lit : decode Config.reference (.tokenB false) [0b11111111] = .ok (.bLit 0xFF, []) := rfl
theorem test_decode_b_short : decode Config.reference (.tokenB true) [0b01100000] = .ok (.bShort 0x60, []) := rfl
theorem test_decode_b_long :
    decode Config.reference (.tokenB true) [0b01001111, 0b00000001] = .ok (.bLong 0x4 0xF 0x01, []) := rfl
theorem test_decode_b_super :
    decode Config.reference (.tokenB true) [0b01011010, 0b00000000, 0b11111111] = .ok (.bSuper 0xA 0x00 0xFF, []) := rfl
/-- END is tested before the selector (V-B14). -/
theorem test_decode_b_end :
    decode Config.reference (.tokenB true) [0b01010000, 0b00000000] = .ok (.bEnd 0x5, []) := rfl
theorem test_decode_commands :
    decode Config.reference .command [0b00] = .ok (.noCommand, []) ∧
    decode Config.reference .command [0b01] = .ok (.encA, []) ∧
    decode Config.reference .command [0b10] = .ok (.decA, []) ∧
    decode Config.reference .command [0b11] = .ok (.decB, []) := ⟨rfl, rfl, rfl, rfl⟩
theorem test_decode_hdr_a :
    decode Config.reference .headerA
      [0x56, 0x52, 0x41, 0x4D, 0x2D, 0x57, 0x41, 0x44, 5, 0, 0, 0, 20, 1, 0, 0] = .ok (.hdrA 5 276, []) := rfl
theorem test_decode_hdr_b :
    decode Config.reference .headerB [0x4C, 0x5A, 0x4E, 0x50, 0, 0, 1, 6] = .ok (.hdrB 262, []) := rfl
/-- A file in the other format, and one cut short, are rejected by name (46 R280, R272). -/
theorem test_decode_rejects :
    decode Config.reference .headerB [0x56, 0x52, 0x41, 0x4D, 0, 0, 0, 0] = .error .badMagic ∧
    decode Config.reference .headerB [0x4C, 0x5A, 0x4E] = .error .truncated ∧
    decode Config.reference .command [0x04] = .error .notACommand ∧
    decode Config.reference (.tokenB true) [0x50, 0x01] = .error .truncated := ⟨rfl, rfl, rfl, rfl⟩
/-- The encoder on the same words. -/
theorem test_encode :
    encode Config.reference (.aMatch 0xF 0x2 0x05) = [0xF2, 0x05] ∧
    encode Config.reference (.bLong 0x4 0xF 0x01) = [0x4F, 0x01] ∧
    encode Config.reference (.bSuper 0xA 0x00 0xFF) = [0x5A, 0x00, 0xFF] ∧
    encode Config.reference (.hdrA 5 276) =
      [0x56, 0x52, 0x41, 0x4D, 0x2D, 0x57, 0x41, 0x44, 5, 0, 0, 0, 20, 1, 0, 0] := ⟨rfl, rfl, rfl, rfl⟩
/-- Table words, first byte most significant. -/
theorem test_table_word :
    decodeTableWord 8 0x01 = some .encA ∧ decodeTableWord 16 0x1001 = some (.bLong 0x1 0x0 0x01) ∧
    decodeTableWord 24 0x500100 = some (.bSuper 0x0 0x01 0x00) := by decide +kernel
/-- The step after placing a table word runs its instruction. -/
theorem test_fetch_word :
    after (step (State.reset.withFetchWord 8 0x02)) (fun t => t.status == .busy && t.opsel == 2) = true ∧
    after (step (State.reset.withFetchWord 8 0x00)) (fun t => t.cause == .badCommand) = true := by decide +kernel

/-! ## One instruction, one step (spec 95) -/

/-- The first token of V-D1. -/
theorem test_a_lit : after (exec (.aLit 0x41) stA)
    (fun t => t.ip == 2 && t.op == 1 && t.wr == 3823 && readOut t 0 == some 0x41 && ringGet t 3822 == 0x41) = true := by
  decide +kernel
/-- The second token of V-D1: a run at distance 1. -/
theorem test_a_match : after (exec (.aMatch 0x0 0xF 0x01) stA2)
    (fun t => t.ip == 4 && t.op == 19 && t.wr == 3841 && t.dist == 1 && t.len == 18 && readOut t 18 == some 0x41) = true := by
  decide +kernel
/-- V-D7: distance 3845 on a fresh ring reads zeros. -/
theorem test_a_match_warm : after (exec (.aMatch 0xF 0x0 0x05) (running 2 [0x00, 0xF0, 0x05] 1 [] 3))
    (fun t => t.op == 3 && t.rd == 4076 && readOut t 2 == some 0) = true := by decide +kernel
/-- The first token of V-B2. -/
theorem test_b_lit : after (exec (.bLit 0x41) (running 3 [0x02, 0x41, 0x00, 0x00] 1 [] 1))
    (fun t => t.ip == 2 && t.op == 1 && readOut t 0 == some 0x41) = true := by decide +kernel
/-- The SHORT of V-B10: three bytes at distance 2. -/
theorem test_b_short : after (exec (.bShort 0xFE) (running 3 [0x0C, 0x41, 0x42, 0xFE, 0x00, 0x00] 3 [0x41, 0x42] 5))
    (fun t => t.op == 5 && readOut t 2 == some 0x41 && readOut t 3 == some 0x42 && readOut t 4 == some 0x41) = true := by
  decide +kernel
/-- V-B12b: the source is checked before the destination. -/
theorem test_b_short_underflow : after (exec (.bShort 0xFF) (running 3 [0x01, 0xFF] 2 [] 0))
    (fun t => t.status == .fault && t.cause == .backrefUnderflow) = true := by decide +kernel
/-- The LONG of V-B4a: five bytes. -/
theorem test_b_long : after (exec (.bLong 0x1 0x0 0x01) stB)
    (fun t => t.ip == 4 && t.op == 6 && t.len == 4 && readOut t 5 == some 0x41) = true := by decide +kernel
/-- V-B5a: the declared size is one too small. -/
theorem test_b_long_overrun : after (exec (.bLong 0x1 0x0 0x01) { stB with decl := 5 })
    (fun t => t.status == .fault && t.cause == .outputOverrun) = true := by decide +kernel
/-- The SUPER of V-B7: ten bytes. -/
theorem test_b_super :
    after (exec (.bSuper 0x0 0x01 0x00) (running 3 [0x06, 0x41, 0x50, 0x01, 0x00, 0x00, 0x00] 2 [0x41] 11))
    (fun t => t.ip == 5 && t.op == 11 && t.len == 9 && readOut t 10 == some 0x41) = true := by decide +kernel
/-- The END of V-B1, and of V-B5b with the size one too large. -/
theorem test_b_end :
    after (exec (.bEnd 0x0) (running 3 [0x01, 0x00, 0x00] 1 [] 0))
      (fun t => t.status == .done && t.outLen == 0 && t.inPos == 3) = true ∧
    after (exec (.bEnd 0x0) (running 3 [0x01, 0x00, 0x00] 1 [] 1)) (fun t => t.cause == .sizeMismatch) = true := by
  decide +kernel
/-- V-F1: the first flag slot; V-A15a: no room for it. -/
theorem test_enc_a :
    after (exec .encA (waiting 1 [0x41] 2 []))
      (fun t => t.status == .busy && t.op == 1 && t.faSlot == 0 && t.wr == 3822 && readOut t 0 == some 0) = true ∧
    after (exec .encA (waiting 1 [] 0 [])) (fun t => t.cause == .outputOverrun) = true := by decide +kernel
/-- V-R1 in DEC_A's initialisation. -/
theorem test_dec_a : after (exec .decA { waiting 2 [0x00] 0 [] with ring := [(7, 9)], frRem := 3 })
    (fun t => t.status == .busy && t.wr == 3822 && ringGet t 7 == 0 && t.frRem == 0 && t.ip == 0) = true := by
  decide +kernel
/-- DEC_B's initialisation leaves RING alone (10 R53). -/
theorem test_dec_b : after (exec .decB { waiting 3 [0x00] 0 [] with ring := [(7, 9)], fbReg := 3 })
    (fun t => t.status == .busy && t.fbReg == 0 && ringGet t 7 == 9) = true := by decide +kernel
/-- START with OPSEL 0 (60 R305). -/
theorem test_no_command : after (step (waiting 0 [] 0 [.start]))
    (fun t => t.status == .fault && t.cause == .badCommand) = true := by decide +kernel
/-- The 21-byte file of 46 R271, and the same file cut by one byte (46 R272). -/
theorem test_hdr_a :
    after (exec (.hdrA 5 20) { waiting 0 [] 0 [] with file := List.replicate 16 0 ++ [0xA0, 0x41, 0x0F, 0x01, 0x41] })
      (fun t => t.inLen == 5 && t.decl == 20 && readIn t 0 == some 0xA0 && readIn t 4 == some 0x41) = true ∧
    after (exec (.hdrA 5 20) { waiting 0 [] 0 [] with file := List.replicate 20 0 }) (fun t => t.cause == .formatError) = true := by
  decide +kernel
/-- The file of 46 R273. -/
theorem test_hdr_b :
    after (step { waiting 0 [] 0 [.unwrapB] with
        file := [0x4C, 0x5A, 0x4E, 0x50, 0, 0, 0, 0x06, 0x06, 0x41, 0x10, 0x01, 0x00, 0x00] })
      (fun t => t.inLen == 6 && t.decl == 6 && readIn t 1 == some 0x41) = true := by decide +kernel

/-! ## The micro-operations (spec 95 V-R, V-M, V-F) -/

/-- V-R3, V-R4, V-R6: the cursor past the ring's end and its 16-bit wrap. -/
theorem test_ring_put :
    (ringPut 0xAA { stA with wr := 4095 }).ring = [(4095, 0xAA)] ∧
    (ringPut 0xBB { stA with wr := 4096 }).ring = [(0, 0xBB)] ∧
    (ringPut 0xDD { stA with wr := 65535 }).wr = 0 ∧ ringGet { stA with ring := [(4095, 0xDD)] } (ringIndex (0 - 1)) = 0xDD := by
  decide +kernel
/-- V-M2: distance 1 with overlap, capped at 18. -/
theorem test_find_match : bestMatch { stE2 with ring := [(3822, 0x41)] } (List.replicate 18 0x41) = (18, 1) := by
  decide +kernel
/-- V-M7: the smaller of two equal distances. -/
theorem test_find_match_tie :
    bestMatch { stE with
        wr := 3830
        ring := [(3822, 0x41), (3823, 0x42), (3824, 0x43), (3825, 0x51), (3826, 0x41), (3827, 0x42), (3828, 0x43), (3829, 0x52)] }
      [0x41, 0x42, 0x43] = (3, 4) := by decide +kernel
/-- The second search of 41 R161 under both settings of the matcher: (1, 1), and the literal formula's (3, 1). -/
theorem test_matcher :
    bestMatch stE2 [0x41, 0x00, 0x00] = (1, 1) ∧
    bestMatch { stE2 with cfg := { near with matcher := .literalFormula } } [0x41, 0x00, 0x00] = (3, 1) := by
  decide +kernel
/-- V-F3 and V-F4. -/
theorem test_flag_writer :
    readOut (flagwFinish { stE with faAcc := 0x05, faCnt := 3 }) 0 = some 0xA0 ∧
    (match flagwClose { running 1 [] 0 (List.replicate 9 0x41) 10 with faAcc := 0xFF, faCnt := 8 } with
      | .go _ t => t.faSlot == 9 && t.op == 10 && readOut t 0 == some 0xFF && readOut t 9 == some 0
      | .halt _ => false) = true := by decide +kernel
/-- V-F7.1 and V-F7.2. -/
theorem test_flag_reader_a :
    (match readFlags flagrAGet 2 (running 2 [0xA0, 0xFF] 0 [] 9) with
      | .go fs t => fs == [true, false] && t.frByte == 0x80 && t.frRem == 6 && t.ip == 1
      | .halt _ => false) = true := by decide +kernel
/-- V-F8.1 and V-F8.9: the reload, and the one forced by the ninth call. -/
theorem test_flag_reader_b :
    (match readFlags flagrBGet 9 (running 3 [0x06, 0x81] 0 [] 9) with
      | .go fs t => fs == [false, true, true, false, false, false, false, false, true] && t.fbReg == 0xFF81 && t.ip == 2
      | .halt _ => false) = true := by decide +kernel
/-- One pass of the encoder on V-A3's second token: the bytes `0F 01`. -/
theorem test_encoder_pass :
    after (step { running 1 (List.replicate 20 0x41) 1 [0x00, 0x41] 23 with
        ring := [(3822, 0x41)], wr := 3823, faAcc := 1, faCnt := 1 })
      (fun t => t.ip == 19 && t.op == 4 && t.faAcc == 2 && t.faCnt == 2 && readOut t 2 == some 0x0F && readOut t 3 == some 0x01) = true := by
  decide +kernel

/-! ## Witnesses: a concrete state and operands that meet all hypotheses of a statement, or of each of its
clauses, at a boundary of its range -/

theorem witness_DecodeOfEncode :
    (Instr.bShort 0x60).wf Config.reference = true ∧ (Instr.bLong 0x4 0xF 0xFF).wf Config.reference = true ∧
    (Instr.bSuper 0xF 0xFF 0xFF).wf Config.reference = true ∧ (Instr.bEnd 0x5).wf Config.reference = true ∧
    Instr.encA.wf Config.reference = true := by decide

theorem witness_DecodedBytesAreAnEncoding :
    decode Config.reference (.tokenB true) [0x5F, 0xFF, 0x00, 0x07] = .ok (.bSuper 0xF 0xFF 0x00, [0x07]) := rfl

/-- The streams of V-A3 and V-B7. -/
theorem test_assemble :
    assembleA near [.aLit 0x41, .aMatch 0x0 0xF 0x01, .aLit 0x41] = [0xA0, 0x41, 0x0F, 0x01, 0x41] ∧
    assembleA near (List.replicate 8 (.aLit 0x07)) = 0xFF :: List.replicate 8 0x07 ++ [0x00] ∧
    assembleB near [.bLit 0x41, .bSuper 0x0 0x01 0x00, .bEnd 0x0] = [0x06, 0x41, 0x50, 0x01, 0x00, 0x00, 0x00] := by
  decide

theorem witness_AssembledStreamsReadBack :
    (∀ i, i ∈ [Instr.aLit 0x41, .aMatch 0x0 0xF 0x01, .aLit 0x41] → ∃ f, spaceOf near i = .tokenA f) ∧
    InputIs (assembleA near [.aLit 0x41, .aMatch 0x0 0xF 0x01, .aLit 0x41]) { stA with ip := 0, frRem := 0 } ∧
    stA.inLen.toNat = (assembleA near [.aLit 0x41, .aMatch 0x0 0xF 0x01, .aLit 0x41]).length ∧
    near.bReload = 0xFF00 ∧
    (∀ i, i ∈ [Instr.bLit 0x41, .bLong 0x1 0x0 0x01, .bEnd 0x0] → i.wf near = true ∧ ∃ f, spaceOf near i = .tokenB f) ∧
    InputIs (assembleB near [.bLit 0x41, .bLong 0x1 0x0 0x01, .bEnd 0x0]) { stB with ip := 0, fbReg := 0 } ∧
    stB.inLen.toNat = (assembleB near [.bLit 0x41, .bLong 0x1 0x0 0x01, .bEnd 0x0]).length := by
  unfold InputIs; decide +kernel

theorem witness_OperandAssembly : Config.reference.wf = true := by decide

theorem witness_EncoderPacking :
    Config.reference.wf = true ∧
    encMatchByte1 Config.reference 1 3 = (0x0 : BitVec 4) ++ (0x0 : BitVec 4) ∧ encMatchByte2 1 = 0x01 ∧
    encMatchByte1 Config.reference 4096 18 = (0x0 : BitVec 4) ++ (0xF : BitVec 4) ∧ encMatchByte2 4096 = 0x00 := by
  decide

theorem witness_FetchChecksFirst :
    (5 : Size) ≤ { stA with ip := 5 }.ip ∧ { stA with ip := 5 }.inLen = 5 ∧
    { stA with ip := 4 }.ip < { stA with ip := 4 }.inLen ∧ readIn { stA with ip := 4 } 4 = some 0x41 := by decide +kernel

theorem witness_TokenFetchIsFetches :
    decode stA.cfg (.tokenA true) (inRun stA 3 stA.ip.toNat) = .ok (.aLit 0x41, [0x0F, 0x01]) ∧
    InputPlaced { stA with ip := 4 } ∧
    decode stA.cfg (.tokenA false) (inRun { stA with ip := 4 } 3 4) = .error .truncated :=
  ⟨rfl, by unfold InputPlaced; decide +kernel, rfl⟩

theorem witness_PutOutChecksFirst :
    stE.opsel = 1 ∧ stA.opsel = 2 ∧ stB.opsel = 3 ∧ cap { stA with op := 20 } ≤ { stA with op := 20 }.op ∧
    { stA with op := 19 }.op < cap { stA with op := 19 } := by decide +kernel

theorem witness_GetOutChecksFirst : stB.op.toNat < 2 ∧ 1 ≤ stB.op.toNat ∧ readOut stB (stB.op.toNat - 1) = some 0x41 := by
  decide +kernel

theorem witness_RingInitClears : { stA with cfg := Config.reference }.cfg = Config.reference := rfl

theorem witness_FlagCloseFillsAndReserves :
    stE.faSlot < { stE with op := 8 }.op ∧ { stE with op := 8 }.op < cap { stE with op := 8 } ∧
    cap { stE with op := 9 } ≤ { stE with op := 9 }.op ∧ { stE with faCnt := 8 }.faCnt.toNat = 8 ∧
    { stE with faCnt := 7 }.faCnt.toNat ≠ 8 := by decide +kernel

theorem witness_FlagFinishAlignsToTheTop : { stE with faCnt := 7 }.faCnt.toNat ≤ 7 ∧ stE.faCnt.toNat ≤ 7 := by decide

theorem witness_FlagsArePackedOldestHighest :
    (List.replicate 8 true).length ≤ 8 ∧ stE.faAcc = 0 ∧ stE.faCnt = 0 := by decide

theorem witness_FlagReaderAIsMsbFirst :
    { stA with frRem := 0, ip := 0 }.frRem = 0 ∧
    ∀ j, j < (9 + 7) / 8 → 0 + j < stA.inLen.toNat ∧ (readIn { stA with frRem := 0, ip := 0 } (0 + j)).isSome = true := by
  decide +kernel

theorem witness_FlagReaderBIsLsbFirst :
    stB.cfg.bReload = 0xFF00 ∧ { stB with fbReg := 0, ip := 0 }.fbReg = 0 ∧
    ∀ j, j < (9 + 7) / 8 → 0 + j < stB.inLen.toNat ∧ (readIn { stB with fbReg := 0, ip := 0 } (0 + j)).isSome = true := by
  decide +kernel

theorem witness_ALitToken :
    { stA with op := 19 }.op < cap { stA with op := 19 } ∧
    { stA with ip := 4 }.ip < stA.inLen ∧ readIn { stA with ip := 4 } 4 = some 0x41 ∧
    stA.inLen ≤ { stA with ip := 5 }.ip := by decide +kernel

theorem witness_AMatchToken :
    stA2.cfg.wf = true ∧ { stA2 with op := 2 }.op.toNat + (15 + stA2.cfg.aMinMatch) ≤ (cap stA2).toNat ∧
    { stA2 with ip := 3 }.ip.toNat + 1 < stA2.inLen.toNat ∧ readIn stA2 3 = some 0x01 ∧ readIn stA2 4 = some 0x41 ∧
    InputPlaced { stA2 with ip := 4 } ∧ stA2.inLen.toNat < { stA2 with ip := 4 }.ip.toNat + 2 := by
  unfold InputPlaced; decide +kernel

theorem witness_AMatchOverrun : stA2.cfg.wf = true ∧ (cap stA2).toNat < { stA2 with op := 3 }.op.toNat + (15 + 3) := by
  decide +kernel

theorem witness_AMatchDistanceZero : stA2.cfg.wf = true ∧ { stA2 with op := 2 }.op.toNat + (15 + 3) ≤ (cap stA2).toNat := by
  decide +kernel

theorem ring_holds_at_launch : RingHolds stA 0 (readOut stA) := by
  refine ⟨rfl, fun d h1 _ => ?_⟩
  simp [show ¬ d ≤ 0 by omega, historyByte, ringGet, stA, running, State.reset, Memory.load]

/-- V-D1's ring after one byte: the byte one back is `41`, every other reads `FILL`. -/
theorem ring_holds_after_one : RingHolds stA2 1 (readOut stA2) := by
  unfold RingHolds
  refine ⟨by decide, fun d h1 h2 => ?_⟩
  by_cases hd : d ≤ 1
  · obtain rfl : d = 1 := by omega
    decide +kernel
  · have hi : (ringIndex (stA2.wr - BitVec.ofNat 16 d)).toNat ≠ 3822 := by
      have hw : stA2.wr = 3823 := rfl
      simp only [hw, ringIndex]
      simp only [BitVec.toNat_setWidth, BitVec.toNat_sub, BitVec.toNat_ofNat, show (3823 : Cursor).toNat = 3823 from rfl]
      omega
    have hr : ringGet stA2 (ringIndex (stA2.wr - BitVec.ofNat 16 d)) = 0 := by
      show (Memory.load (some 0) [(3822, 0x41)] _).getD 0 = (0 : Byte)
      simp [Memory.load, Memory.read?, Ne.symm hi]
    rw [if_neg hd, historyByte, hr]
    rfl

/-- At launch with distance 1 (V-D6) and distance field 0 (V-D21); and with one byte emitted, which distance 2
passes and distance 1 does not. -/
theorem witness_AMatchBeyondEmittedReadsFill :
    stA.cfg.wf = true ∧ RingHolds stA 0 (readOut stA) ∧ RingHolds stA2 1 (readOut stA2) ∧
    (1 = if (0x0 : BitVec 4) = 0 ∧ (0x01 : Byte) = 0 then 4096 else 0 * 256 + 1) ∧
    (4096 = if (0x0 : BitVec 4) = 0 ∧ (0x00 : Byte) = 0 then 4096 else 0 * 256 + 0) ∧
    stA.op.toNat + 3 ≤ (cap stA).toNat ∧ { stA2 with op := 17 }.op.toNat + 3 ≤ (cap stA2).toNat ∧
    0 < 1 - 2 % 1 ∧ 1 < 2 - 0 % 2 ∧ ¬ 1 < 1 - 0 % 1 :=
  ⟨by decide, ring_holds_at_launch, ring_holds_after_one, by decide, by decide, by decide +kernel, by decide +kernel,
    by decide, by decide, by decide⟩

theorem witness_BLitToken :
    { stB with op := 5 }.op < cap { stB with op := 5 } ∧ cap { stB with op := 6 } ≤ { stB with op := 6 }.op ∧
    { stB with ip := 5 }.ip < stB.inLen ∧ readIn stB 5 = some 0x00 ∧ stB.inLen ≤ { stB with ip := 6 }.ip := by
  decide +kernel

theorem written_stB : OutWritten stB stB.op.toNat := by unfold OutWritten; decide +kernel

/-- The clauses of a format B copy: `DIST` one more than OP, the capacity one too small, and just enough. -/
theorem witness_MatchBOutcome :
    stB.op.toNat < 2 ∧ 0 < 2 + stB.cfg.bCopyBias ∧ OutWritten { stB with decl := 3 } stB.op.toNat ∧ 1 ≤ stB.op.toNat ∧
    (cap { stB with decl := 3 }).toNat < stB.op.toNat + (2 + stB.cfg.bCopyBias) ∧
    stB.op.toNat + (2 + stB.cfg.bCopyBias) ≤ (cap { stB with decl := 4 }).toNat := by
  unfold OutWritten; decide +kernel

theorem witness_BShortToken :
    stB.cfg.wf = true ∧ (Instr.bShort 0xFF).wf stB.cfg = true ∧ (Instr.bShort 0x60).wf stB.cfg = true ∧
    (running 3 [0x01, 0xFF] 1 [] 0).ip < (running 3 [0x01, 0xFF] 1 [] 0).inLen ∧
    readIn (running 3 [0x01, 0xFF] 1 [] 0) 1 = some 0xFF ∧ stB.inLen ≤ { stB with ip := 6 }.ip := by decide +kernel

theorem witness_BLongToken :
    stB.cfg.wf = true ∧ (Instr.bLong 0x1 0x0 0x01).wf stB.cfg = true ∧ stB.ip.toNat + 1 < stB.inLen.toNat ∧
    readIn stB stB.ip.toNat = some (longControl 0x1 0x0) ∧ readIn stB (stB.ip.toNat + 1) = some 0x01 ∧
    { stB with inLen := 3 }.ip.toNat + 1 = { stB with inLen := 3 }.inLen.toNat := by decide +kernel

/-- A state before a SUPER token, as in V-B7. -/
def stS : State := running 3 [0x06, 0x41, 0x50, 0x01, 0x00] 2 [0x41] 11

theorem witness_BSuperToken :
    stS.cfg.wf = true ∧ (Instr.bSuper 0x0 0x01 0x00).wf stS.cfg = true ∧ stS.ip.toNat + 2 < stS.inLen.toNat ∧
    readIn stS stS.ip.toNat = some (longControl stS.cfg.bSuperCode 0x0) ∧ readIn stS (stS.ip.toNat + 1) = some 0x01 ∧
    readIn stS (stS.ip.toNat + 2) = some 0x00 ∧
    { stS with inLen := 4 }.ip.toNat + 2 = { stS with inLen := 4 }.inLen.toNat := by decide +kernel

/-- A state before an END token, as in V-B1. -/
def stEnd : State := running 3 [0x01, 0x00, 0x00] 1 [] 0

theorem witness_BEndToken :
    stEnd.op = stEnd.decl ∧ { stEnd with decl := 1 }.op ≠ { stEnd with decl := 1 }.decl ∧
    (Instr.bEnd 0x0).wf stEnd.cfg = true ∧ stEnd.ip.toNat + 1 < stEnd.inLen.toNat ∧
    readIn stEnd stEnd.ip.toNat = some (longControl 0x0 0) ∧ readIn stEnd (stEnd.ip.toNat + 1) = some 0 := by
  decide +kernel

theorem witness_EncALaunch :
    Launchable (waiting 1 [0x41] 1 []) ∧ (waiting 1 [0x41] 1 []).opsel = 1 ∧ 0 < (waiting 1 [0x41] 1 []).outCap.toNat ∧
    { waiting 1 [0x41] 1 [] with cfg := Config.reference }.cfg = Config.reference ∧
    Launchable (waiting 1 [] 0 []) ∧ (waiting 1 [] 0 []).outCap = 0 := by
  unfold Launchable; decide +kernel

theorem witness_DecALaunch : Launchable (waiting 2 [] 0 []) ∧ Launchable State.reset := by unfold Launchable; decide +kernel

theorem witness_DecBLaunch : Launchable (waiting 3 [] 0 []) := by unfold Launchable; decide +kernel

theorem witness_NoCommandIsBad :
    State.reset.status ≠ .busy ∧ State.reset.opsel = 0 ∧ (waiting 3 [] 0 []).status ≠ .busy ∧ (waiting 3 [] 0 []).opsel ≠ 0 := by
  decide +kernel

theorem witness_LaunchRefusals :
    stA.status = .busy ∧ { State.reset with overlap := true }.status ≠ .busy ∧ { State.reset with overlap := true }.overlap = true := by
  decide +kernel

/-- The kinds of the causes (60 R294, third column). -/
theorem test_kinds :
    Cause.badCommand.kind = none ∧ Cause.none.kind = none ∧ Cause.inputUnderrun.kind = some .decodeSizeMismatch ∧
    Cause.sizeMismatch.kind = some .decodeSizeMismatch ∧ Cause.outputOverrun.kind = some .outOfBounds ∧
    Cause.backrefUnderflow.kind = some .outOfBounds ∧ Cause.formatError.kind = some .formatError := by decide

/-- A machine whose host holds the file of V-B4a's payload, or of V-D1's. -/
def stF (file : List Byte) : State := { waiting 0 [] 0 [] with file := file }

theorem witness_UnwrapAToken :
    (stF []).status ≠ .busy ∧ (stF (List.replicate 15 0)).file.length < 16 ∧
    (stF (be64Bytes near.aMagic ++ [1, 0, 0, 0, 0, 0, 0, 0] ++ [0])).file =
      be64Bytes near.aMagic ++ [1, 0, 0, 0, 0, 0, 0, 0] ++ [0] ∧
    (stF (be64Bytes near.aMagic ++ [1, 0, 0, 0, 0, 0, 0, 0] ++ [0])).file.length = 16 + 1 ∧
    (stF (be64Bytes near.aMagic ++ [2, 0, 0, 0, 0, 0, 0, 0] ++ [0])).file.length ≠ 16 + 2 ∧
    List.replicate 8 (0 : Byte) ≠ be64Bytes (stF []).cfg.aMagic := by decide +kernel

theorem witness_UnwrapBToken :
    (stF []).status ≠ .busy ∧ (stF (List.replicate 7 0)).file.length < 8 ∧
    (stF (be32Bytes near.bMagic ++ [0, 0, 0, 6] ++ [])).file = be32Bytes near.bMagic ++ [0, 0, 0, 6] ++ [] ∧
    6 ≤ (stF []).cfg.bMaxDeclared.toNat ∧ ([] : List Byte).length < sizeLimit ∧
    [(0 : Byte), 0, 0, 0] ≠ be32Bytes (stF []).cfg.bMagic ∧
    { stF [] with cfg := { near with bMaxDeclared := 5 } }.cfg.bMaxDeclared.toNat < 6 := by decide +kernel

/-- A finished ENC_A with V-A2's payload and a WRAP_A pending. -/
def stW : State := { running 1 [0x41] 1 [0x80, 0x41] 2 with status := .done, outLen := 2, inPos := 1, host := [.wrapA] }

/-- The file of V-A2's payload (46 R281(b)). -/
theorem test_wrap_a : after (step stW)
    (fun t => t.file == [0x56, 0x52, 0x41, 0x4D, 0x2D, 0x57, 0x41, 0x44, 2, 0, 0, 0, 1, 0, 0, 0, 0x80, 0x41] && t.host == []) =
      true := by decide +kernel

theorem witness_WrapThenUnwrap :
    (stF (wrapA near [0x00] 0)).status ≠ .busy ∧ [(0x00 : Byte)].length < sizeLimit ∧
    (stF (wrapA near [0x00] 0)).file = wrapA (stF []).cfg [0x00] 0 ∧
    stW.status ≠ .busy ∧ stW.host = .wrapA :: [] ∧ stW.status = .done ∧ [(0x80 : Byte), 0x41].length = stW.outLen.toNat ∧
    (∀ k, k < [(0x80 : Byte), 0x41].length → readOut stW k = [(0x80 : Byte), 0x41][k]?) ∧
    { State.reset with host := [.wrapA] }.status ≠ .busy ∧ { State.reset with host := [.wrapA] }.status ≠ .done ∧
    { State.reset with host := [.wrapA] }.host = .wrapA :: [] := by decide +kernel

theorem witness_StepRunsDecodedInstruction_A :
    stA.status = .busy ∧ stA.opsel = 2 ∧ stA.op < stA.decl ∧
    ∃ t, flagrAGet stA = .go false t ∧
      decode t.cfg (.tokenA false) (inRun t 3 t.ip.toNat) = .ok (.aMatch 0x4 0x1 0x0F, [0x01]) :=
  ⟨rfl, rfl, by decide +kernel, _, rfl, rfl⟩

theorem witness_StepRunsDecodedInstruction_B :
    stB.status = .busy ∧ stB.opsel = 3 ∧
    ∃ t, flagrBGet { stB with fbReg := 0xFF02 } = .go true t ∧
      decode t.cfg (.tokenB true) (inRun t 3 t.ip.toNat) = .ok (.bLong 0x1 0x0 0x01, [0x00]) :=
  ⟨rfl, rfl, _, rfl, rfl⟩

/-- DEC_B of V-B23 after its eight literals: OP is DECL, the flag register is used up, and no byte is left. -/
def stB23 : State :=
  { running 3 [0x00, 0x41, 0x42, 0x43, 0x44, 0x45, 0x46, 0x47, 0x48] 9
      [0x41, 0x42, 0x43, 0x44, 0x45, 0x46, 0x47, 0x48] 8 with fbReg := 0x01FE }

/-- V-B23: DECL bytes are out and there is no END: the ninth flag finds no byte. -/
theorem test_no_end_underruns :
    after (step stB23) (fun t => t.status == .fault && t.cause == .inputUnderrun) = true := by decide +kernel

/-- A flag byte that is missing, and a token cut short after its flag, in each format. -/
theorem witness_StepRunsDecodedInstruction_underrun :
    stB23.status = .busy ∧ stB23.opsel = 3 ∧ stB23.fbReg.toNat / 2 < 256 ∧ stB23.inLen ≤ stB23.ip ∧
    stB23.op = stB23.decl ∧
    { stA with frRem := 0, ip := 5 }.op < stA.decl ∧ { stA with frRem := 0, ip := 5 }.frRem = 0 ∧
    { stA with frRem := 0, ip := 5 }.inLen ≤ { stA with frRem := 0, ip := 5 }.ip ∧
    InputPlaced { stA with inLen := 2 } ∧ InputPlaced { stB with inLen := 3, fbReg := 0xFF02 } ∧
    (∃ t e, flagrAGet { stA with inLen := 2 } = .go false t ∧
      decode t.cfg (.tokenA false) (inRun t 3 t.ip.toNat) = .error e) ∧
    (∃ t e, flagrBGet { stB with inLen := 3, fbReg := 0xFF02 } = .go true t ∧
      decode t.cfg (.tokenB true) (inRun t 3 t.ip.toNat) = .error e) :=
  ⟨rfl, rfl, by decide, by decide, rfl, by decide, rfl, by decide, by unfold InputPlaced; decide +kernel,
    by unfold InputPlaced; decide +kernel, ⟨_, _, rfl, rfl⟩, ⟨_, _, rfl, rfl⟩⟩

theorem witness_StepRunsDecodedInstruction_host :
    (waiting 1 [] 0 [.start]).status ≠ .busy ∧ (waiting 1 [] 0 [.start]).host = .start :: [] ∧
    (waiting 1 [] 0 [.unwrapA]).host = .unwrapA :: [] ∧ (waiting 1 [] 0 [.unwrapB]).host = .unwrapB :: [] ∧
    decode near .headerA (wrapA near [0x00] 0) = .ok (.hdrA 1 0, [0x00]) ∧
    decode near .headerB (be32Bytes near.bMagic ++ [0, 0, 0, 6]) = .ok (.hdrB 6, []) :=
  ⟨by decide, rfl, rfl, rfl, rfl, rfl⟩

theorem witness_DecAEndsOnOutputLength :
    stA.status = .busy ∧ stA.opsel = 2 ∧ { stA with op := 20 }.decl ≤ { stA with op := 20 }.op := by decide +kernel

theorem witness_EncoderPass :
    stE.status = .busy ∧ stE.opsel = 1 ∧ stE.ip < stE.inLen ∧ InputPlaced stE ∧ InputPlaced stE2 ∧
    (findMatch (lookAhead stE) stE).bestLen.toNat < stE.cfg.aMinMatch ∧
    stE2.cfg.aMinMatch ≤ (findMatch (lookAhead stE2) stE2).bestLen.toNat ∧
    { stE with ip := 5 }.inLen ≤ { stE with ip := 5 }.ip := by
  unfold InputPlaced; decide +kernel

theorem witness_EncoderLiteral :
    readIn stE stE.ip.toNat = some 0x41 ∧ { stE with op := 8 }.op < cap { stE with op := 8 } ∧
    cap { stE with op := 9 } ≤ { stE with op := 9 }.op := by decide +kernel

/-- The encoder after its second search: 4 bytes at distance 1. -/
def stE3 : State := { stE2 with bestLen := 4, bestDist := 1 }

theorem witness_EncoderMatch :
    stE3.cfg.aMinMatch ≤ stE3.bestLen.toNat ∧ stE3.bestLen.toNat ≤ stE3.cfg.aMinMatch + 15 ∧
    (∀ k, k < stE3.bestLen.toNat → readIn stE3 (stE3.ip.toNat + k) = some 0x41) ∧
    stE3.ip.toNat + stE3.bestLen.toNat < sizeLimit ∧ { stE3 with op := 7 }.op.toNat + 2 ≤ (cap stE3).toNat ∧
    (cap stE3).toNat < { stE3 with op := 8 }.op.toNat + 2 := by decide +kernel

theorem witness_MatchLenIsTheRun :
    stE2.cfg.matcher = .overlapAware ∧
    { stE2 with cfg := { near with matcher := .literalFormula } }.cfg.matcher = .literalFormula ∧
    InputPlaced stE2 ∧ 0 < (lookAhead stE2).length ∧
    matchLen stE2 [0x41, 0x00] 1 = 1 ∧ matchLen stE2 [0x41, 0x00] 1 < [(0x41 : Byte), 0x00].length := by
  unfold InputPlaced; decide +kernel

theorem witness_FindMatchIsLongestNearest :
    stE2.cfg.wf = true ∧ (lookAhead stE2).length ≤ stE2.cfg.aMaxMatch ∧ bestMatch stE2 (lookAhead stE2) = (4, 1) ∧
    bestMatch stE [0x41] = (0, 0) := by decide +kernel

theorem witness_MatchFoundExpandsToInput :
    stE2.cfg.wf = true ∧ stE2.cfg.matcher = .overlapAware ∧ bestMatch stE2 (lookAhead stE2) = (4, 1) ∧
    stE2.cfg.aMinMatch ≤ 4 ∧ stA2.cfg = stE2.cfg ∧ stA2.ring = stE2.ring ∧ stA2.wr = stE2.wr ∧
    stA2.op.toNat + 4 ≤ (cap stA2).toNat ∧ encMatchByte1 stE2.cfg 1 4 = (0x0 : BitVec 4) ++ (0x1 : BitVec 4) ∧
    encMatchByte2 1 = 0x01 := by decide +kernel

theorem inv_stA : EngineInv stA := by
  unfold EngineInv MemoriesCanonical CauseAgrees RunningOk ResultWritten WriterOk OutWritten; decide +kernel

theorem inv_stB : EngineInv stB := by
  unfold EngineInv MemoriesCanonical CauseAgrees RunningOk ResultWritten WriterOk OutWritten; decide +kernel

theorem inv_stE2 : EngineInv stE2 := by
  unfold EngineInv MemoriesCanonical CauseAgrees RunningOk ResultWritten WriterOk OutWritten; decide +kernel

theorem witness_StepKeepsInv : EngineInv stA ∧ (∃ t, step stA = .next t) ∧ EngineInv stB ∧ (∃ t, step stB = .next t) ∧
    EngineInv stE2 ∧ ∃ t, step stE2 = .next t :=
  ⟨inv_stA, ⟨_, rfl⟩, inv_stB, ⟨_, rfl⟩, inv_stE2, ⟨_, rfl⟩⟩

theorem ring_inv_stA : RingInv stA := by
  refine fun _ => ⟨fun h => absurd h (by decide), fun _ => ring_holds_at_launch⟩

theorem witness_StepKeepsRingInv : RingInv stA ∧ ∃ t, step stA = .next t := ⟨ring_inv_stA, _, rfl⟩

theorem witness_ConfigIsFixed : ∃ t, step stA = .next t := ⟨_, rfl⟩

/-- The host about to place one byte, or a file of one byte, over an IN of two. -/
def stFill (a : HostAction) : State := { waiting 1 [0x41, 0x42] 0 [a] with file := [0x43] }

/-- A shorter input leaves the byte of IN beyond it (70 R334), and only a placed file writes IN_LEN (46 R275). -/
theorem test_shorter_fill_keeps_in :
    after (step (stFill (.loadIn [0x43])))
      (fun t => readIn t 0 == some 0x43 && readIn t 1 == some 0x42 && t.inLen == 2) = true ∧
    after (step (stFill .fileToIn))
      (fun t => readIn t 0 == some 0x43 && readIn t 1 == some 0x42 && t.inLen == 1) = true := by decide +kernel

theorem witness_ControlRegisterRules :
    stA.status = .busy ∧ (∃ t, step stA = .next t) ∧ (4 : BitVec 3) ≤ 4 ∧
    (stFill (.loadIn [0x43])).status ≠ .busy ∧ (stFill (.loadIn [0x43])).host = .loadIn [0x43] :: [] ∧
    [(0x43 : Byte)].length < sizeLimit ∧ (stFill .fileToIn).status ≠ .busy ∧ (stFill .fileToIn).host = .fileToIn :: [] ∧
    (stFill .fileToIn).file.length < sizeLimit ∧
    (stFill (.writeReg 3 7)).status ≠ .busy ∧ (stFill (.writeReg 3 7)).host = .writeReg 3 7 :: [] ∧
    (stFill (.setFile [])).host = .setFile [] :: [] ∧ (stFill (.place true)).host = .place true :: [] ∧
    (waiting 1 [] 0 []).status ≠ .busy ∧ (waiting 1 [] 0 []).host = [] :=
  ⟨rfl, ⟨_, rfl⟩, by decide, by decide, rfl, by decide, by decide, rfl, by decide, by decide, rfl, rfl, rfl, by decide, rfl⟩

theorem witness_CauseIsNoneOutsideFault :
    after (exec .encA (waiting 1 [0x41] 1 [])) (fun t => t.status == .busy) = true ∧
    after (exec .decA (waiting 2 [] 0 [])) (fun _ => true) = true ∧
    (stA.status ≠ .fault → stA.cause = .none) ∧ after (step stA) (fun t => !(t.status == .fault)) = true := by
  decide +kernel

theorem witness_CausesOfEachCommand :
    stE.status = .busy ∧ after (step { stE with outCap := 1 }) (fun t => t.status == .fault) = true ∧
    after (step { stA with ip := 5 }) (fun t => t.status == .fault) = true ∧
    after (step { stB with ip := 6 }) (fun t => t.status == .fault) = true := by decide +kernel

theorem witness_RaiseStopsTheCommand : stA.host = [] := rfl

theorem witness_ResetAction : (waiting 1 [] 0 [.reset]).status ≠ .busy ∧ (waiting 1 [] 0 [.reset]).host = .reset :: [] := by
  decide

theorem inv_stEnd : EngineInv { stEnd with fbReg := 0xFF02 } := by
  unfold EngineInv MemoriesCanonical CauseAgrees RunningOk ResultWritten WriterOk OutWritten; decide +kernel

theorem witness_DoneMeansResult :
    EngineInv { stEnd with fbReg := 0xFF02 } ∧ { stEnd with fbReg := 0xFF02 }.status = .busy ∧
    after (step { stEnd with fbReg := 0xFF02 }) (fun t => t.status == .done) = true ∧ stEnd.opsel ≠ 1 ∧
    EngineInv { stE2 with ip := 5 } ∧ after (step { stE2 with ip := 5 }) (fun t => t.status == .done) = true ∧ stE2.opsel = 1 :=
  ⟨inv_stEnd, rfl, by decide +kernel, by decide,
    by unfold EngineInv MemoriesCanonical CauseAgrees RunningOk ResultWritten WriterOk OutWritten; decide +kernel,
    by decide +kernel, rfl⟩

theorem witness_RunningCommandHasANextState : EngineInv stB ∧ InputPlaced stB ∧ stB.status = .busy :=
  ⟨inv_stB, by unfold InputPlaced; decide +kernel, rfl⟩

theorem witness_EveryCommandEnds :
    near.wf = true ∧ Launchable (waiting 1 [0x41] 2 []) ∧ InputPlaced (waiting 1 [0x41] 2 []) := by
  unfold Launchable InputPlaced; decide +kernel

theorem witness_EncAWithinItsBound :
    near.wf = true ∧ 2 ≤ near.aMinMatch ∧ Launchable (waiting 1 [0x41] 2 []) ∧ InputPlaced (waiting 1 [0x41] 2 []) ∧
    (waiting 1 [0x41] 2 []).opsel = 1 ∧
    encABound (waiting 1 [0x41] 2 []).inLen.toNat ≤ (waiting 1 [0x41] 2 []).outCap.toNat := by
  unfold Launchable InputPlaced; decide +kernel

/-- The clause that compares capacities, at the payload's length and one below it (V-A15b, V-A15c). -/
theorem witness_EncAWithinItsBound_capacity :
    (∃ v, runCommand { waiting 1 [0x41] 1 [] with outCap := 2 } = .next v ∧ v.status = .done ∧ v.outLen.toNat = 2) ∧
    Launchable (waiting 1 [0x41] 1 []) ∧ InputPlaced (waiting 1 [0x41] 1 []) ∧ ¬ 2 ≤ (waiting 1 [0x41] 1 []).outCap.toNat ∧
    2 ≤ (waiting 1 [0x41] 2 []).outCap.toNat ∧ 1 ≤ (waiting 1 [0x41] 1 []).inLen.toNat :=
  ⟨⟨_, rfl, rfl, rfl⟩, by unfold Launchable; decide +kernel, by unfold InputPlaced; decide +kernel, by decide, by decide,
    by decide⟩

/-- V-A2's input and payload, with a short search window. -/
theorem witness_DecodeAOfEncodeA :
    near.wf = true ∧ near.matcher = .overlapAware ∧ Launchable (waiting 1 [0x41] 2 []) ∧
    (∃ t, runCommand (waiting 1 [0x41] 2 []) = .next t ∧ t.status = .done ∧ outBytes t = some [0x80, 0x41] ∧
      t.outLen = (waiting 2 [0x80, 0x41] 1 []).inLen) ∧
    Launchable (waiting 2 [0x80, 0x41] 1 []) ∧ (waiting 2 [0x80, 0x41] 1 []).cfg = (waiting 1 [0x41] 2 []).cfg ∧
    InputIs [0x80, 0x41] (waiting 2 [0x80, 0x41] 1 []) ∧
    (waiting 2 [0x80, 0x41] 1 []).decl = (waiting 1 [0x41] 2 []).inLen :=
  ⟨by decide, rfl, by unfold Launchable; decide +kernel, ⟨_, rfl, rfl, rfl, rfl⟩, by unfold Launchable; decide +kernel,
    rfl, by unfold InputIs; decide +kernel, rfl⟩

theorem witness_ResultDependsOnInputAlone :
    Launchable (waiting 3 [0x01, 0x00, 0x00] 0 []) ∧
    Launchable { waiting 3 [0x01, 0x00, 0x00] 0 [] with outCap := 7, wr := 9, ring := [(7, 9)], freeCtr := 5 } ∧
    ∀ a, a < (waiting 3 [0x01, 0x00, 0x00] 0 []).inLen.toNat →
      readIn { waiting 3 [0x01, 0x00, 0x00] 0 [] with outCap := 7, wr := 9, ring := [(7, 9)], freeCtr := 5 } a =
        readIn (waiting 3 [0x01, 0x00, 0x00] 0 []) a :=
  ⟨by unfold Launchable; decide +kernel, by unfold Launchable; decide +kernel, fun _ _ => rfl⟩

end Sys2Proof.Tests
end

section
/-! SUPPORT. What holds of every state an outcome or a piece of pseudocode ends in, whichever way it
ends; and, as the first use of it, that nothing the machine does writes the configuration (log 2). -/

namespace Sys2Proof.Machine

variable {α β : Type} {P : State → Prop} {s : State}

/-! ## Predicates on the ends of a step -/

/-- `P` holds of the next state, if the outcome has one. -/
def NextSat (P : State → Prop) (r : Result) : Prop := ∀ t, r = .next t → P t

@[simp] theorem nextSat_next {t : State} : NextSat P (.next t) ↔ P t :=
  ⟨fun h => h t rfl, fun h _ e => by cases e; exact h⟩

@[simp] theorem nextSat_fault (r : Fault) : NextSat P (.fault r) := fun _ e => by cases e

@[simp] theorem nextSat_refused (r : Refusal) : NextSat P (.refused r) := fun _ e => by cases e

/-- `P` holds of the state in which the pseudocode ends, going on or halting (spec 60 R298). -/
def Flow.Sat (P : State → Prop) : Flow α → Prop
  | .go _ s => P s
  | .halt r => NextSat P r

@[simp] theorem sat_go {a : α} : (Flow.go a s).Sat P ↔ P s := Iff.rfl

@[simp] theorem sat_halt {r : Result} : (Flow.halt r : Flow α).Sat P ↔ NextSat P r := Iff.rfl

/-- A composition ends in `P` if its first part does and its second does from any state in `P`. -/
theorem Flow.Sat.bind {x : Flow α} {f : α → State → Flow β} (hx : x.Sat P)
    (hf : ∀ a t, P t → (f a t).Sat P) : (x.bind f).Sat P := by
  cases x with
  | go a t => exact hf a t hx
  | halt r => exact hx

/-- A step ends as its pseudocode does. -/
theorem Flow.Sat.result {x : Flow α} (hx : x.Sat P) : NextSat P x.result := by
  cases x with
  | go a t => simpa using hx
  | halt r => exact hx

/-! ## The configuration of a state -/

/-- The configuration record of `s` is `c`. -/
def HasCfg (c : Config) (s : State) : Prop := s.cfg = c

variable {c : Config}

/-- A state with the configuration of one that has `c` has `c`. -/
theorem HasCfg.congr {t : State} (h : HasCfg c s) (e : t.cfg = s.cfg) : HasCfg c t := e.trans h

/-! ## The access primitives, the flag bits and the copy engines -/

theorem fetch_hasCfg (h : HasCfg c s) : (fetch s).Sat (HasCfg c) := by
  rcases fetch_cases s with ⟨_, b, _, e⟩ | ⟨_, _, e⟩ | ⟨_, e⟩ <;> rw [e]
  · exact h.congr rfl
  · simp
  · simpa using h.congr (raiseFault_cfg _ s)

theorem putOut_hasCfg {v : Byte} (h : HasCfg c s) : (putOut v s).Sat (HasCfg c) := by
  by_cases hc : s.op < cap s
  · rw [putOut_of_lt hc]; exact h.congr (writeOut_cfg s.op.toNat v s)
  · rw [putOut_of_not_lt hc]; simpa using h.congr (raiseFault_cfg _ s)

theorem getOut_hasCfg {d : Nat} (h : HasCfg c s) : (getOut d s).Sat (HasCfg c) := by
  rcases getOut_cases d s with ⟨_, e⟩ | ⟨_, b, _, e⟩ | ⟨_, _, e⟩ <;> rw [e]
  · simpa using h.congr (raiseFault_cfg _ s)
  · exact h
  · simp

theorem flagwReserve_hasCfg (h : HasCfg c s) : (flagwReserve s).Sat (HasCfg c) := by
  refine (putOut_hasCfg ?_).bind fun _ _ ht => ?_
  · exact h.congr rfl
  · exact ht.congr rfl

theorem closeIfFull_hasCfg (h : HasCfg c s) : (closeIfFull s).Sat (HasCfg c) := by
  by_cases hf : s.faCnt.toNat = 8
  · rw [closeIfFull_of_eq hf]; exact flagwReserve_hasCfg (h.congr (fillSlot_cfg _ s))
  · rw [closeIfFull_of_ne hf]; exact h

theorem frRefill_hasCfg (h : HasCfg c s) : (frRefill s).Sat (HasCfg c) := by
  unfold frRefill
  split
  · exact (fetch_hasCfg h).bind fun _ _ ht => ht.congr rfl
  · exact h

theorem flagrAGet_hasCfg (h : HasCfg c s) : (flagrAGet s).Sat (HasCfg c) :=
  (frRefill_hasCfg h).bind fun _ _ ht => ht.congr rfl

theorem flagrBGet_hasCfg (h : HasCfg c s) : (flagrBGet s).Sat (HasCfg c) := by
  by_cases hm : (s.fbReg >>> 1).extractLsb' 8 8 = 0
  · simp only [flagrBGet, hm, if_true]
    refine (fetch_hasCfg ?_).bind fun _ _ ht => ?_
    · exact h.congr rfl
    · exact ht.congr rfl
  · rw [flagrBGet_of_marker hm]; exact h.congr rfl

theorem copyA_hasCfg {n : Nat} (h : HasCfg c s) : (copyA n s).Sat (HasCfg c) := by
  induction n generalizing s with
  | zero => exact h
  | succ n ih => exact (putOut_hasCfg h).bind fun _ _ ht => ih (ht.congr rfl)

theorem copyB_hasCfg {n : Nat} (h : HasCfg c s) : (copyB n s).Sat (HasCfg c) := by
  induction n generalizing s with
  | zero => exact h
  | succ n ih =>
    exact (getOut_hasCfg h).bind fun _ _ ht => (putOut_hasCfg ht).bind fun _ _ hu => ih hu

/-! ## The instructions -/

theorem matchB_hasCfg {d : BitVec 13} {l : BitVec 9} (h : HasCfg c s) : (matchB d l s).Sat (HasCfg c) :=
  copyB_hasCfg (h.congr rfl)

theorem endB_hasCfg (h : HasCfg c s) : HasCfg c (endB s) := by
  unfold endB
  split
  · exact h.congr (finish_cfg s)
  · exact h.congr (raiseFault_cfg _ s)

/-- A launch keeps the configuration if the initialisation it runs does. -/
theorem launch_hasCfg {k : State → Result} (hk : NextSat (HasCfg c) (k s)) :
    NextSat (HasCfg c) (launch s k) := by
  unfold launch
  split
  · simp
  · split
    · simp
    · exact hk

theorem execEncA_hasCfg (h : HasCfg c s) : NextSat (HasCfg c) (execEncA s) := by
  have hinit : HasCfg c (encInit s) := h.congr rfl
  unfold execEncA
  exact launch_hasCfg (flagwReserve_hasCfg hinit).result

theorem execDecA_hasCfg (h : HasCfg c s) : NextSat (HasCfg c) (execDecA s) := by
  unfold execDecA
  exact launch_hasCfg (nextSat_next.2 (h.congr rfl))

theorem execDecB_hasCfg (h : HasCfg c s) : NextSat (HasCfg c) (execDecB s) := by
  unfold execDecB
  exact launch_hasCfg (nextSat_next.2 (h.congr rfl))

theorem execNoCommand_hasCfg (h : HasCfg c s) : NextSat (HasCfg c) (execNoCommand s) := by
  unfold execNoCommand
  split
  · simp
  · simpa using h.congr (raiseFault_cfg _ s)

theorem formatError_hasCfg (h : HasCfg c s) : HasCfg c (formatError s) := h.congr (raiseFault_cfg .formatError s)

theorem execHdrA_hasCfg {m n : Size} (h : HasCfg c s) : NextSat (HasCfg c) (execHdrA m n s) := by
  unfold execHdrA
  split
  · simp
  · split
    · exact nextSat_next.2 (h.congr rfl)
    · exact nextSat_next.2 (formatError_hasCfg h)

theorem execHdrB_hasCfg {n : Size} (h : HasCfg c s) : NextSat (HasCfg c) (execHdrB n s) := by
  unfold execHdrB
  split
  · simp
  · split
    · exact nextSat_next.2 (formatError_hasCfg h)
    · split
      · simp
      · exact nextSat_next.2 (h.congr rfl)

theorem exec_hasCfg {i : Instr} (h : HasCfg c s) : NextSat (HasCfg c) (exec i s) := by
  have hconsume (n : Nat) : HasCfg c (consume n s) := h.congr (consume_cfg n s)
  cases i with
  | aLit b =>
    refine ((putOut_hasCfg (hconsume 1)).bind fun _ t ht => ?_).result
    exact ht.congr (ringPut_cfg b t)
  | aMatch hi l dLo => exact (copyA_hasCfg ((hconsume 2).congr (setMatchA_cfg hi l dLo _))).result
  | bLit b => exact (putOut_hasCfg (hconsume 1)).result
  | bShort x => exact (matchB_hasCfg (hconsume 1)).result
  | bLong sel hi dLo => exact (matchB_hasCfg (hconsume 2)).result
  | bSuper hi dLo e => exact (matchB_hasCfg (hconsume 3)).result
  | bEnd sel => exact nextSat_next.2 (endB_hasCfg ((hconsume 2).congr rfl))
  | encA => exact execEncA_hasCfg h
  | decA => exact execDecA_hasCfg h
  | decB => exact execDecB_hasCfg h
  | noCommand => exact execNoCommand_hasCfg h
  | hdrA m n => exact execHdrA_hasCfg h
  | hdrB n => exact execHdrB_hasCfg h

/-! ## The engine's move -/

theorem ringPutInput_hasCfg {n : Nat} (h : HasCfg c s) : (ringPutInput n s).Sat (HasCfg c) := by
  induction n generalizing s with
  | zero => exact h
  | succ n ih =>
    unfold ringPutInput
    split
    · exact ih (h.congr rfl)
    · simp

theorem emitLiteral_hasCfg (h : HasCfg c s) : (emitLiteral s).Sat (HasCfg c) := by
  unfold emitLiteral
  split
  · exact (putOut_hasCfg (h.congr (flagwPut_cfg _ s))).bind fun _ _ ht => ht.congr rfl
  · simp

theorem emitMatch_hasCfg (h : HasCfg c s) : (emitMatch s).Sat (HasCfg c) :=
  (putOut_hasCfg (h.congr (flagwPut_cfg _ s))).bind fun _ _ ht =>
    (putOut_hasCfg ht).bind fun _ _ hu => ringPutInput_hasCfg hu

theorem emitToken_hasCfg (h : HasCfg c s) : (emitToken s).Sat (HasCfg c) := by
  unfold emitToken
  split
  · exact emitMatch_hasCfg h
  · exact emitLiteral_hasCfg h

theorem encTurn_hasCfg (h : HasCfg c s) : NextSat (HasCfg c) (encTurn s) := by
  unfold encTurn
  split
  · split
    · exact ((emitToken_hasCfg (h.congr (findMatch_cfg _ s))).bind fun _ _ ht => closeIfFull_hasCfg ht).result
    · simp
  · exact nextSat_next.2 (h.congr rfl)

theorem missingByte_hasCfg (h : HasCfg c s) : NextSat (HasCfg c) (missingByte s) := by
  unfold missingByte
  split
  · simp
  · simpa using h.congr (raiseFault_cfg _ s)

theorem runToken_hasCfg {sp : Space} (h : HasCfg c s) : NextSat (HasCfg c) (runToken sp s) := by
  unfold runToken
  split
  · exact exec_hasCfg h
  · exact missingByte_hasCfg h

/-- A token keeps the configuration if the reading of its flag does. -/
theorem withFlag_hasCfg {x : Flow Bool} {sp : Bool → Space} (hx : x.Sat (HasCfg c)) :
    NextSat (HasCfg c) (withFlag x sp) := by
  cases x with
  | go f t => exact runToken_hasCfg hx
  | halt r => exact hx

theorem decATurn_hasCfg (h : HasCfg c s) : NextSat (HasCfg c) (decATurn s) := by
  unfold decATurn
  split
  · exact withFlag_hasCfg (flagrAGet_hasCfg h)
  · exact nextSat_next.2 (h.congr (finish_cfg s))

theorem engineTurn_hasCfg (h : HasCfg c s) : NextSat (HasCfg c) (engineTurn s) := by
  unfold engineTurn
  split
  · exact encTurn_hasCfg h
  · split
    · exact decATurn_hasCfg h
    · split
      · exact withFlag_hasCfg (flagrBGet_hasCfg h)
      · simp

/-! ## The host's move -/

@[simp] theorem writeReg_cfg (n : BitVec 3) (v : BitVec 32) (s : State) : (writeReg n v s).cfg = s.cfg := by
  unfold writeReg
  split_ifs <;> rfl

theorem fillIn_hasCfg {bs : List Byte} {n : Size} (h : HasCfg c s) : NextSat (HasCfg c) (fillIn bs n s) := by
  by_cases hl : bs.length < sizeLimit
  · rw [fillIn_of_lt hl]; exact nextSat_next.2 (h.congr rfl)
  · rw [fillIn_of_not_lt hl]; simp

theorem unwrap_hasCfg {sp : Space} (h : HasCfg c s) : NextSat (HasCfg c) (unwrap sp s) := by
  unfold unwrap
  split
  · exact exec_hasCfg h
  · exact nextSat_next.2 (formatError_hasCfg h)

theorem wrapFile_hasCfg (h : HasCfg c s) : NextSat (HasCfg c) (wrapFile s) := by
  unfold wrapFile
  split
  · split
    · exact nextSat_next.2 (h.congr rfl)
    · simp
  · simp

theorem hostAct_hasCfg {a : HostAction} (h : HasCfg c s) : NextSat (HasCfg c) (hostAct a s) := by
  cases a with
  | writeReg n v => exact nextSat_next.2 (h.congr (writeReg_cfg n v s))
  | loadIn bytes => exact fillIn_hasCfg h
  | setFile bytes => exact nextSat_next.2 (h.congr rfl)
  | fileToIn => exact fillIn_hasCfg h
  | place overlap => exact nextSat_next.2 (h.congr rfl)
  | start => exact exec_hasCfg h
  | reset => exact nextSat_next.2 (h.congr (powerOnReset_cfg s))
  | wrapA => exact wrapFile_hasCfg h
  | unwrapA => exact unwrap_hasCfg h
  | unwrapB => exact unwrap_hasCfg h

theorem hostTurn_hasCfg (h : HasCfg c s) : NextSat (HasCfg c) (hostTurn s) := by
  unfold hostTurn
  split
  · exact nextSat_next.2 h
  · exact hostAct_hasCfg (h.congr rfl)

/-! ## The step -/

theorem step_hasCfg (h : HasCfg c s) : NextSat (HasCfg c) (step s) := by
  unfold step machineStep
  split
  · exact engineTurn_hasCfg h
  · exact hostTurn_hasCfg h

/-- Settles O48: no operation a step is made of, of the engine's or of the host's, writes the
configuration record, whichever way the step ends. -/
theorem configIsFixed : Obligations.ConfigIsFixed := by
  unfold Obligations.ConfigIsFixed
  intro s t h
  exact step_hasCfg (c := s.cfg) rfl t h

end Sys2Proof.Machine
end

section
/-! SUPPORT. What the engine's operations leave alone while a command runs, and how they stop: they
keep the control registers, IN, the configuration, STATE and CAUSE, and halt only by raising a fault
(spec 20 R76, 60 R298). -/

namespace Sys2Proof.Machine

variable {α β : Type} {s₀ s t : State}

/-- What no operation of a running command writes: the configuration, the control registers and IN,
and STATE and CAUSE until the command ends. -/
def held (s : State) : Config × BitVec 2 × Size × Size × Size × Memory × Status × Cause :=
  (s.cfg, s.opsel, s.inLen, s.outCap, s.decl, s.inp, s.status, s.cause)

/-- `t` is a state of the same running command as `s₀`. -/
def Working (s₀ t : State) : Prop := held t = held s₀

/-- `t` is a state in which a fault was raised while the command of `s₀` was running. -/
def FaultedFrom (s₀ t : State) : Prop := ∃ f u, f ≠ Cause.none ∧ Working s₀ u ∧ t = raiseFault f u

theorem Working.refl (s : State) : Working s s := rfl

theorem Working.congr (h : Working s₀ s) (e : held t = held s) : Working s₀ t := e.trans h

theorem Working.sameCommand (h : Working s₀ t) : SameCommand s₀ t := by
  simp only [Working, held, Prod.mk.injEq] at h
  obtain ⟨hcfg, hopsel, hinLen, houtCap, hdecl, hinp, -, -⟩ := h
  exact ⟨hcfg, hopsel, hinLen, houtCap, hdecl, hinp⟩

theorem Working.status (h : Working s₀ t) : t.status = s₀.status := by
  simp only [Working, held, Prod.mk.injEq] at h
  obtain ⟨-, -, -, -, -, -, hstatus, -⟩ := h
  exact hstatus

theorem Working.cause (h : Working s₀ t) : t.cause = s₀.cause := by
  simp only [Working, held, Prod.mk.injEq] at h
  obtain ⟨-, -, -, -, -, -, -, hcause⟩ := h
  exact hcause

theorem Working.opsel (h : Working s₀ t) : t.opsel = s₀.opsel := by
  obtain ⟨-, hopsel, -⟩ := h.sameCommand
  exact hopsel

theorem Working.inp (h : Working s₀ t) : t.inp = s₀.inp := by
  obtain ⟨-, -, -, -, -, hinp⟩ := h.sameCommand
  exact hinp

theorem FaultedFrom.status (h : FaultedFrom s₀ t) : t.status = .fault := by
  obtain ⟨f, u, _, _, rfl⟩ := h
  exact raiseFault_status f u

theorem FaultedFrom.sameCommand (h : FaultedFrom s₀ t) : SameCommand s₀ t := by
  obtain ⟨f, u, _, hu, rfl⟩ := h
  exact hu.sameCommand

/-- The pseudocode goes on within the running command of `s₀`, or halts by raising a fault. -/
def Flow.Works (s₀ : State) : Flow α → Prop
  | .go _ t => Working s₀ t
  | .halt r => NextSat (FaultedFrom s₀) r

@[simp] theorem works_go {a : α} : (Flow.go a s).Works s₀ ↔ Working s₀ s := Iff.rfl

@[simp] theorem works_halt {r : Result} : (Flow.halt r : Flow α).Works s₀ ↔ NextSat (FaultedFrom s₀) r := Iff.rfl

theorem Flow.Works.bind {x : Flow α} {f : α → State → Flow β} (hx : x.Works s₀)
    (hf : ∀ a t, Working s₀ t → (f a t).Works s₀) : (x.bind f).Works s₀ := by
  cases x with
  | go a t => exact hf a t hx
  | halt r => exact hx

/-- A step whose pseudocode works ends where the pseudocode goes on, or in a fault. -/
theorem Flow.Works.result {x : Flow α} (hx : x.Works s₀) (h : x.result = .next t) :
    (∃ a, x = .go a t ∧ Working s₀ t) ∨ FaultedFrom s₀ t := by
  cases x with
  | go a u => cases h; exact .inl ⟨a, rfl, hx⟩
  | halt r => exact .inr (hx t h)

/-- A raise inside a running command. -/
theorem faultedFrom_raiseFault {f : Cause} (hf : f ≠ .none) (h : Working s₀ s) :
    FaultedFrom s₀ (raiseFault f s) := ⟨f, s, hf, h, rfl⟩

/-! ## The access primitives, the flag bits and the copy engines -/

theorem fetch_works (h : Working s₀ s) : (fetch s).Works s₀ := by
  rcases fetch_cases s with ⟨_, b, _, e⟩ | ⟨_, _, e⟩ | ⟨_, e⟩ <;> rw [e]
  · exact h.congr rfl
  · simp
  · simpa using faultedFrom_raiseFault (by decide) h

theorem putOut_works {v : Byte} (h : Working s₀ s) : (putOut v s).Works s₀ := by
  by_cases hc : s.op < cap s
  · rw [putOut_of_lt hc]; exact h.congr rfl
  · rw [putOut_of_not_lt hc]; simpa using faultedFrom_raiseFault (by decide) h

theorem getOut_works {d : Nat} (h : Working s₀ s) : (getOut d s).Works s₀ := by
  rcases getOut_cases d s with ⟨_, e⟩ | ⟨_, b, _, e⟩ | ⟨_, _, e⟩ <;> rw [e]
  · simpa using faultedFrom_raiseFault (by decide) h
  · exact h
  · simp

theorem flagwReserve_works (h : Working s₀ s) : (flagwReserve s).Works s₀ := by
  refine (putOut_works ?_).bind fun _ _ ht => ?_
  · exact h.congr rfl
  · exact ht.congr rfl

theorem closeIfFull_works (h : Working s₀ s) : (closeIfFull s).Works s₀ := by
  by_cases hf : s.faCnt.toNat = 8
  · rw [closeIfFull_of_eq hf]; exact flagwReserve_works (h.congr rfl)
  · rw [closeIfFull_of_ne hf]; exact h

theorem flagrAGet_works (h : Working s₀ s) : (flagrAGet s).Works s₀ := by
  by_cases hr : s.frRem = 0
  · rcases fetch_cases s with ⟨_, b, _, e⟩ | ⟨_, _, e⟩ | ⟨_, e⟩
    · rw [flagrAGet_of_fetch hr e]; exact h.congr rfl
    · simp [flagrAGet, frRefill, hr, e]
    · simpa [flagrAGet, frRefill, hr, e] using faultedFrom_raiseFault (by decide) h
  · rw [flagrAGet_of_rem hr]; exact h.congr rfl

theorem flagrBGet_works (h : Working s₀ s) : (flagrBGet s).Works s₀ := by
  by_cases hm : (s.fbReg >>> 1).extractLsb' 8 8 = 0
  · simp only [flagrBGet, hm, if_true]
    refine (fetch_works ?_).bind fun _ _ ht => ?_
    · exact h.congr rfl
    · exact ht.congr rfl
  · rw [flagrBGet_of_marker hm]; exact h.congr rfl

theorem copyA_works {n : Nat} (h : Working s₀ s) : (copyA n s).Works s₀ := by
  induction n generalizing s with
  | zero => exact h
  | succ n ih => exact (putOut_works h).bind fun _ _ ht => ih (ht.congr rfl)

theorem copyB_works {n : Nat} (h : Working s₀ s) : (copyB n s).Works s₀ := by
  induction n generalizing s with
  | zero => exact h
  | succ n ih =>
    exact (getOut_works h).bind fun _ _ ht => (putOut_works ht).bind fun _ _ hu => ih hu

theorem matchB_works {d : BitVec 13} {l : BitVec 9} (h : Working s₀ s) : (matchB d l s).Works s₀ :=
  copyB_works (h.congr rfl)

theorem putOut_ringPut_works {b : Byte} (h : Working s₀ s) :
    ((putOut b s).bind fun _ t => .go () (ringPut b t)).Works s₀ :=
  (putOut_works h).bind fun _ _ ht => ht.congr rfl

/-! ## The encoder's tokens -/

theorem ringPutInput_works {n : Nat} (h : Working s₀ s) : (ringPutInput n s).Works s₀ := by
  induction n generalizing s with
  | zero => exact h
  | succ n ih =>
    unfold ringPutInput
    split
    · exact ih (h.congr rfl)
    · simp

theorem emitLiteral_works (h : Working s₀ s) : (emitLiteral s).Works s₀ := by
  unfold emitLiteral
  split
  · refine (putOut_works ?_).bind fun _ _ ht => ?_
    · exact h.congr rfl
    · exact ht.congr rfl
  · simp

theorem emitMatch_works (h : Working s₀ s) : (emitMatch s).Works s₀ := by
  refine (putOut_works ?_).bind fun _ _ ht => (putOut_works ht).bind fun _ _ hu => ringPutInput_works hu
  exact h.congr rfl

theorem emitToken_works (h : Working s₀ s) : (emitToken s).Works s₀ := by
  unfold emitToken
  split
  · exact emitMatch_works h
  · exact emitLiteral_works h

/-! ## A move of the engine -/

/-- `t` is the end in DONE of the command of `s₀`: OUT_LEN is OP and IN_POS is IP, the encoder has come to
IN_LEN and a decoder to DECL, if the cursor had not passed it (spec 10 R40). -/
def CompletedFrom (s₀ t : State) : Prop :=
  ∃ u, Working s₀ u ∧ t = finish u ∧
    (s₀.opsel = 1 → s₀.ip ≤ s₀.inLen → u.ip = u.inLen) ∧
    (s₀.opsel ≠ 1 → s₀.op ≤ s₀.decl → u.op = u.decl)

/-- Where a move of the engine that has a next state leads: on in the command, to its end, or to a fault. -/
def MovedFrom (s₀ t : State) : Prop := Working s₀ t ∨ CompletedFrom s₀ t ∨ FaultedFrom s₀ t

theorem MovedFrom.sameCommand (h : MovedFrom s₀ t) : SameCommand s₀ t := by
  rcases h with h | ⟨u, hu, rfl, -, -⟩ | h
  · exact h.sameCommand
  · exact hu.sameCommand
  · exact h.sameCommand

theorem MovedFrom.working_of_busy (h : MovedFrom s₀ t) (hb : t.status = .busy) : Working s₀ t := by
  rcases h with h | ⟨u, _, rfl, -, -⟩ | h
  · exact h
  · cases hb
  · rw [h.status] at hb; cases hb

theorem MovedFrom.completed_of_done (h : MovedFrom s₀ t) (hs : s₀.status = .busy) (hd : t.status = .done) :
    CompletedFrom s₀ t := by
  rcases h with h | h | h
  · rw [h.status, hs] at hd; cases hd
  · exact h
  · rw [h.status] at hd; cases hd

theorem Flow.Works.moved {x : Flow α} (hx : x.Works s₀) : NextSat (MovedFrom s₀) x.result := by
  intro t h
  rcases hx.result h with ⟨_, _, ht⟩ | ht
  · exact .inl ht
  · exact .inr (.inr ht)

/-- A missing byte raises INPUT_UNDERRUN, or stops the model. -/
theorem missingByte_moved (h : Working s₀ s) : NextSat (FaultedFrom s₀) (missingByte s) := by
  unfold missingByte
  split
  · simp
  · simpa using faultedFrom_raiseFault (by decide) h

theorem endB_moved (ho : s₀.opsel ≠ 1) (h : Working s₀ s) : MovedFrom s₀ (endB s) := by
  unfold endB
  split
  · next he => exact .inr (.inl ⟨s, h, rfl, fun h1 => absurd h1 ho, fun _ _ => he⟩)
  · exact .inr (.inr (faultedFrom_raiseFault (by decide) h))

/-- While a decoder runs, an instruction is a token that works, ends the command or faults; commands and
headers are refused (log 10). -/
theorem exec_moved {i : Instr} (hb : s₀.status = .busy) (ho : s₀.opsel ≠ 1) (h : Working s₀ s) :
    NextSat (MovedFrom s₀) (exec i s) := by
  have hs : s.status = .busy := h.status.trans hb
  have hconsume (n : Nat) : Working s₀ (consume n s) := h.congr rfl
  cases i with
  | aLit b => exact (putOut_ringPut_works (hconsume 1)).moved
  | aMatch hi l dLo =>
    have hset : Working s₀ (setMatchA hi l dLo (consume 2 s)) := (hconsume 2).congr rfl
    exact (copyA_works hset).moved
  | bLit b => exact (putOut_works (hconsume 1)).moved
  | bShort x => exact (matchB_works (hconsume 1)).moved
  | bLong sel hi dLo => exact (matchB_works (hconsume 2)).moved
  | bSuper hi dLo e => exact (matchB_works (hconsume 3)).moved
  | bEnd sel => exact nextSat_next.2 (endB_moved ho (h.congr rfl))
  | encA => simp [exec, execEncA, launch, hs]
  | decA => simp [exec, execDecA, launch, hs]
  | decB => simp [exec, execDecB, launch, hs]
  | noCommand => simp [exec, execNoCommand, hs]
  | hdrA m n => simp [exec, execHdrA, hs]
  | hdrB n => simp [exec, execHdrB, hs]

/-- A token after its flag moves the engine if the reading of the flag works. -/
theorem withFlag_moved {x : Flow Bool} {sp : Bool → Space} (hb : s₀.status = .busy) (ho : s₀.opsel ≠ 1)
    (hx : x.Works s₀) : NextSat (MovedFrom s₀) (withFlag x sp) := by
  cases x with
  | go f t =>
    simp only [withFlag, runToken]
    split
    · exact exec_moved hb ho hx
    · exact fun u hu => .inr (.inr (missingByte_moved hx u hu))
  | halt r => exact fun t ht => .inr (.inr (hx t ht))

theorem encTurn_moved (ho : s.opsel = 1) : NextSat (MovedFrom s) (encTurn s) := by
  unfold encTurn
  split
  · split
    · exact ((emitToken_works rfl).bind fun _ _ ht => closeIfFull_works ht).moved
    · simp
  · next hlt =>
    refine nextSat_next.2 (.inr (.inl ⟨flagwFinish s, rfl, rfl, fun _ hle => ?_, fun h => absurd ho h⟩))
    exact BitVec.le_antisymm hle (BitVec.not_lt.1 hlt)

theorem decATurn_moved (hb : s.status = .busy) (ho : s.opsel ≠ 1) : NextSat (MovedFrom s) (decATurn s) := by
  unfold decATurn
  split
  · exact withFlag_moved hb ho (flagrAGet_works rfl)
  · next hlt =>
    refine nextSat_next.2 (.inr (.inl ⟨s, rfl, rfl, fun h => absurd h ho, fun _ hle => ?_⟩))
    exact BitVec.le_antisymm hle (BitVec.not_lt.1 hlt)

/-- Everything a step of a running command can do (spec 10 R38, 60 R298). -/
theorem step_moved (hb : s.status = .busy) : NextSat (MovedFrom s) (step s) := by
  simp only [step, machineStep, hb, if_true, engineTurn]
  split
  · next h1 => exact encTurn_moved h1
  · next h1 =>
    split
    · exact decATurn_moved hb h1
    · split
      · exact withFlag_moved hb h1 (flagrBGet_works rfl)
      · simp

end Sys2Proof.Machine
end

section
/-! SUPPORT. The output side of the invariant, the flag writer's, and how far the encoder's search
reaches: what the operations keep of them. -/

namespace Sys2Proof.Machine

variable {s t : State}

/-! ## The output written so far -/

theorem cap_of_enc (h : s.opsel = 1) : cap s = s.outCap := if_pos h

theorem cap_of_dec (h : s.opsel ≠ 1) : cap s = s.decl := if_neg h

/-- RING and OUT are canonical, OP is within the capacity, and every byte of OUT up to OP has a value
(spec 10 R22, R44). -/
structure OutputOk (s : State) : Prop where
  ring_wf : Memory.wf (some s.cfg.fill) ringSize s.ring = true
  out_wf : Memory.wf none sizeLimit s.out = true
  op_le : s.op ≤ cap s
  written : OutWritten s s.op.toNat

/-- What `OutputOk` speaks of. -/
def outputSide (s : State) : Config × Memory × Memory × Size × Size := (s.cfg, s.ring, s.out, s.op, cap s)

theorem OutputOk.congr (h : OutputOk s) (e : outputSide t = outputSide s) : OutputOk t := by
  simp only [outputSide, Prod.mk.injEq] at e
  obtain ⟨hcfg, hring, hout, hop, hcap⟩ := e
  refine ⟨?_, ?_, ?_, fun a ha => ?_⟩
  · rw [hcfg, hring]; exact h.ring_wf
  · rw [hout]; exact h.out_wf
  · rw [hop, hcap]; exact h.op_le
  · rw [readOut_congr hout]; exact h.written a (hop ▸ ha)

/-- A write to OUT gives its byte a value and takes none away. -/
theorem readOut_writeOut_isSome {a b : Nat} {v : Byte} (h : b ≠ a → (readOut s b).isSome = true) :
    (readOut (writeOut a v s) b).isSome = true := by
  by_cases hb : b = a
  · simp [hb]
  · rw [readOut_writeOut_other _ _ hb]; exact h hb

/-- A write to a byte of the output so far. -/
theorem OutputOk.of_writeOut {v : Byte} (a : Size) (h : OutputOk s) : OutputOk (writeOut a.toNat v s) :=
  ⟨h.ring_wf, wf_writeOut h.out_wf a.isLt, h.op_le, fun b hb => readOut_writeOut_isSome fun _ => h.written b hb⟩

theorem OutputOk.of_putOut {v : Byte} (h : OutputOk s) (hp : putOut v s = .go () t) : OutputOk t := by
  obtain ⟨hlt, rfl⟩ := putOut_go hp
  refine ⟨h.ring_wf, (h.of_writeOut s.op).out_wf, ?_, fun b hb => ?_⟩
  · have := succ_toNat_of_lt hlt
    exact BitVec.le_def.2 (this ▸ hlt)
  · refine readOut_writeOut_isSome fun hne => h.written b ?_
    have := succ_toNat_of_lt hlt
    simp only at hb
    omega

theorem OutputOk.of_ringPut {b : Byte} (h : OutputOk s) : OutputOk (ringPut b s) :=
  ⟨wf_ringPut h.ring_wf, h.out_wf, h.op_le, h.written⟩

theorem OutputOk.of_flagwPut (f : Bool) (h : OutputOk s) : OutputOk (flagwPut f s) := h.congr rfl

theorem OutputOk.of_copyA {n : Nat} (h : OutputOk s) (hc : copyA n s = .go () t) : OutputOk t := by
  induction n generalizing s with
  | zero => cases hc; exact h
  | succ n ih =>
    obtain ⟨_, u, hu, hc⟩ := bind_eq_go.1 hc
    refine ih ?_ hc
    exact (h.of_putOut hu).of_ringPut.congr rfl

theorem OutputOk.of_copyB {n : Nat} (h : OutputOk s) (hc : copyB n s = .go () t) : OutputOk t := by
  induction n generalizing s with
  | zero => cases hc; exact h
  | succ n ih =>
    obtain ⟨b, u, hg, hc⟩ := bind_eq_go.1 hc
    obtain ⟨_, v, hv, hrest⟩ := bind_eq_go.1 hc
    rcases getOut_cases s.dist.toNat s with ⟨_, e⟩ | ⟨_, _, _, e⟩ | ⟨_, _, e⟩ <;> rw [e] at hg <;> cases hg
    exact ih (h.of_putOut hv) hrest

theorem OutputOk.of_ringPutInput {n : Nat} (h : OutputOk s) (hr : ringPutInput n s = .go () t) : OutputOk t := by
  induction n generalizing s with
  | zero => cases hr; exact h
  | succ n ih =>
    simp only [ringPutInput] at hr
    split at hr
    · next b _ => exact ih (s := consume 1 (ringPut b s)) (h.of_ringPut.congr rfl) hr
    · cases hr

/-! ## The flag writer -/

/-- The flag writer holds at most `n` flags of its group, and its slot lies in the output (spec 42 R176). -/
def WriterWithin (n : Nat) (s : State) : Prop :=
  s.faSlot < s.op ∧ s.faCnt.toNat ≤ n ∧ s.faAcc.toNat < 2 ^ s.faCnt.toNat

theorem writerOk_iff : WriterOk s ↔ WriterWithin 7 s := Iff.rfl

theorem WriterWithin.of_putOut {n : Nat} {v : Byte} (h : WriterWithin n s) (hp : putOut v s = .go () t) :
    WriterWithin n t := by
  obtain ⟨hlt, rfl⟩ := putOut_go hp
  obtain ⟨hslot, hcnt, hacc⟩ := h
  refine ⟨BitVec.lt_def.2 ?_, hcnt, hacc⟩
  have hop := succ_toNat_of_lt hlt
  have := BitVec.lt_def.1 hslot
  exact hop ▸ Nat.lt_succ_of_lt this

/-- One more flag goes below the others: the accumulator doubles and takes the flag as bit 0. -/
theorem toNat_pushFlag {a : BitVec 8} (f : Bool) (h : a.toNat < 128) :
    ((a <<< 1) ||| (BitVec.ofBool f).setWidth 8).toNat = 2 * a.toNat + f.toNat := by
  have hf : f.toNat < 2 ^ 1 := Bool.toNat_lt f
  calc ((a <<< 1) ||| (BitVec.ofBool f).setWidth 8).toNat
      = (a.toNat <<< 1 % 256) ||| f.toNat := by
        rw [BitVec.toNat_or, BitVec.toNat_shiftLeft, BitVec.toNat_setWidth, BitVec.toNat_ofBool,
          Nat.mod_eq_of_lt (a := f.toNat) (by omega)]
    _ = a.toNat <<< 1 + f.toNat := by
        rw [Nat.mod_eq_of_lt (by rw [Nat.shiftLeft_eq]; omega), Nat.shiftLeft_add_eq_or_of_lt hf]
    _ = 2 * a.toNat + f.toNat := by rw [Nat.shiftLeft_eq]; omega

/-- FLAGW_PUT adds a flag to a group with room (spec 42 R172). -/
theorem WriterWithin.of_flagwPut {n : Nat} (f : Bool) (hn : n ≤ 7) (h : WriterWithin n s) :
    WriterWithin (n + 1) (flagwPut f s) := by
  obtain ⟨hslot, hcnt, hacc⟩ := h
  have hsucc : (s.faCnt + 1).toNat = s.faCnt.toNat + 1 := by bv_omega
  have hpow : 2 ^ s.faCnt.toNat ≤ 2 ^ 7 := Nat.pow_le_pow_right (by decide) (by omega)
  refine ⟨hslot, ?_, ?_⟩
  · rw [flagwPut_faCnt, hsucc]; omega
  · rw [flagwPut_faAcc, flagwPut_faCnt, hsucc, toNat_pushFlag f (by omega), Nat.pow_succ]
    have := Bool.toNat_le f
    omega

/-- FLAGW_RESERVE leaves the writer cleared, its slot below OP (spec 42 R171). -/
theorem writerOk_of_flagwReserve (h : flagwReserve s = .go () t) : WriterOk t := by
  obtain ⟨hlt, rfl⟩ := flagwReserve_go h
  exact ⟨BitVec.lt_def.2 (succ_toNat_of_lt hlt ▸ Nat.lt_succ_self _), Nat.zero_le _, by simp⟩

theorem OutputOk.of_flagwReserve (h : OutputOk s) (hr : flagwReserve s = .go () t) : OutputOk t := by
  obtain ⟨hlt, rfl⟩ := flagwReserve_go hr
  exact (h.of_putOut (putOut_of_lt hlt)).congr rfl

/-- The close of a full group leaves the writer between groups, or within one (spec 43 R205). -/
theorem writerOk_of_closeIfFull (h : WriterWithin 8 s) (hc : closeIfFull s = .go () t) : WriterOk t := by
  by_cases hf : s.faCnt.toNat = 8
  · rw [closeIfFull_of_eq hf] at hc
    exact writerOk_of_flagwReserve hc
  · rw [closeIfFull_of_ne hf] at hc
    cases hc
    obtain ⟨hslot, hcnt, hacc⟩ := h
    exact ⟨hslot, by omega, hacc⟩

theorem OutputOk.of_closeIfFull (h : OutputOk s) (hc : closeIfFull s = .go () t) : OutputOk t := by
  by_cases hf : s.faCnt.toNat = 8
  · rw [closeIfFull_of_eq hf] at hc
    exact OutputOk.of_flagwReserve (h.of_writeOut s.faSlot) hc
  · rw [closeIfFull_of_ne hf] at hc
    cases hc
    exact h

/-! ## How far the search reaches -/

theorem runLen_le_length (s : State) (look : List Byte) (d k : Nat) (bs : List Byte) :
    runLen s look d k bs ≤ bs.length := by
  induction bs generalizing k with
  | nil => simp [runLen]
  | cons b bs ih =>
    simp only [runLen, List.length_cons]
    split
    · exact Nat.succ_le_succ (ih (k + 1))
    · exact Nat.zero_le _

theorem scan_fst_le_length (s : State) (look : List Byte) (n d : Nat) (best : Nat × Nat)
    (h : best.1 ≤ look.length) : (scan s look n d best).1 ≤ look.length := by
  have hrun (d : Nat) : matchLen s look d ≤ look.length := runLen_le_length s look d 0 look
  induction n generalizing d best with
  | zero => exact h
  | succ n ih =>
    simp only [scan]
    split
    · split
      · exact hrun d
      · exact ih _ _ (hrun d)
    · exact ih _ _ h

/-- The match found is no longer than the input left (spec 41 R152). -/
theorem findMatch_bestLen_le (s : State) :
    (findMatch (lookAhead s) s).bestLen.toNat ≤ s.inLen.toNat - s.ip.toNat :=
  calc (findMatch (lookAhead s) s).bestLen.toNat
      = (bestMatch s (lookAhead s)).1 % 2 ^ 5 := by rw [findMatch_bestLen, BitVec.toNat_ofNat]
    _ ≤ (bestMatch s (lookAhead s)).1 := Nat.mod_le _ _
    _ ≤ (lookAhead s).length := scan_fst_le_length s _ _ _ _ (Nat.zero_le _)
    _ ≤ lookLimit s := inRun_length_le s _ _
    _ ≤ s.inLen.toNat - s.ip.toNat := Nat.min_le_right _ _

/-! ## What an encoder's token does when it goes on -/

/-- From `s` to `v` a flag was recorded and one or two bytes were appended to OUT. -/
def Appended (s v : State) : Prop :=
  ∃ f b u, putOut b (flagwPut f s) = .go () u ∧ (v = u ∨ ∃ b', putOut b' u = .go () v)

theorem OutputOk.of_appended (h : OutputOk s) (ha : Appended s t) : OutputOk t := by
  obtain ⟨f, b, u, hu, rfl | ⟨b', hv⟩⟩ := ha
  · exact (h.of_flagwPut f).of_putOut hu
  · exact ((h.of_flagwPut f).of_putOut hu).of_putOut hv

theorem WriterOk.of_appended (h : WriterOk s) (ha : Appended s t) : WriterWithin 8 t := by
  obtain ⟨f, b, u, hu, hv⟩ := ha
  have hflag := (writerOk_iff.1 h).of_flagwPut f (Nat.le_refl 7)
  rcases hv with rfl | ⟨b', hv⟩
  · exact hflag.of_putOut hu
  · exact (hflag.of_putOut hu).of_putOut hv

/-- RING, its cursor and the whole input side: what appending to OUT leaves alone. -/
def inputSide (s : State) : Config × Memory × Cursor × Memory × Size × Size :=
  (s.cfg, s.ring, s.wr, s.inp, s.inLen, s.ip)

/-- Two states with one input side have IP and IN_LEN in common. -/
theorem ip_inLen_of_inputSide (e : inputSide t = inputSide s) : t.ip = s.ip ∧ t.inLen = s.inLen := by
  simp only [inputSide, Prod.mk.injEq] at e
  obtain ⟨-, -, -, -, hinLen, hip⟩ := e
  exact ⟨hip, hinLen⟩

theorem closeIfFull_inputSide (hc : closeIfFull s = .go () t) : inputSide t = inputSide s := by
  by_cases hf : s.faCnt.toNat = 8
  · rw [closeIfFull_of_eq hf] at hc
    obtain ⟨_, rfl⟩ := flagwReserve_go hc
    rfl
  · rw [closeIfFull_of_ne hf] at hc
    cases hc
    rfl

theorem putOut_inputSide {b : Byte} (h : putOut b s = .go () t) : inputSide t = inputSide s := by
  obtain ⟨_, rfl⟩ := putOut_go h
  rfl

theorem Appended.inputSide (ha : Appended s t) : inputSide t = inputSide s := by
  obtain ⟨f, b, u, hu, rfl | ⟨b', hv⟩⟩ := ha
  · exact (putOut_inputSide hu).trans rfl
  · exact ((putOut_inputSide hv).trans (putOut_inputSide hu)).trans rfl

theorem ringPutInput_one {b : Byte} (h : readIn s s.ip.toNat = some b) :
    ringPutInput 1 s = .go () (consume 1 (ringPut b s)) := by simp [ringPutInput, h]

/-- A literal token appends its byte and gives it to the ring (spec 43 R203). -/
theorem emitLiteral_go (h : emitLiteral s = .go () t) :
    ∃ u, Appended s u ∧ ringPutInput 1 u = .go () t := by
  unfold emitLiteral at h
  split at h
  · next b hb =>
    obtain ⟨_, u, hu, ht⟩ := bind_eq_go.1 h
    have hread : readIn u u.ip.toNat = some b := by obtain ⟨_, rfl⟩ := putOut_go hu; exact hb
    exact ⟨u, ⟨_, b, u, hu, .inl rfl⟩, (ringPutInput_one hread).trans ht⟩
  · cases h

/-- A match token appends its two bytes and gives the input matched to the ring (spec 43 R204). -/
theorem emitMatch_go (h : emitMatch s = .go () t) :
    ∃ v, Appended s v ∧ ringPutInput s.bestLen.toNat v = .go () t := by
  obtain ⟨_, u, hu, h⟩ := bind_eq_go.1 h
  obtain ⟨_, v, hv, h⟩ := bind_eq_go.1 h
  exact ⟨v, ⟨_, _, u, hu, .inr ⟨_, hv⟩⟩, h⟩

/-- A pass of the encoder that goes on has appended a token's bytes and given the ring the `n` input bytes
the token stands for, none of them at or beyond IN_LEN (spec 43 R202 to R204). -/
theorem emitToken_go (hip : s.ip < s.inLen) (h : emitToken (findMatch (lookAhead s) s) = .go () t) :
    ∃ n v, Appended (findMatch (lookAhead s) s) v ∧ ringPutInput n v = .go () t ∧
      v.ip.toNat + n ≤ v.inLen.toNat := by
  have hlt : s.ip.toNat < s.inLen.toNat := hip
  unfold emitToken at h
  split at h
  · obtain ⟨v, hv, hr⟩ := emitMatch_go h
    obtain ⟨e₁, e₂⟩ := ip_inLen_of_inputSide hv.inputSide
    have := findMatch_bestLen_le s
    refine ⟨_, v, hv, hr, ?_⟩
    rw [e₁, e₂, findMatch_ip, findMatch_inLen]
    omega
  · obtain ⟨v, hv, hr⟩ := emitLiteral_go h
    obtain ⟨e₁, e₂⟩ := ip_inLen_of_inputSide hv.inputSide
    refine ⟨1, v, hv, hr, ?_⟩
    rw [e₁, e₂, findMatch_ip, findMatch_inLen]
    omega

/-- The encoder's ring update leaves the output side and the flag writer alone. -/
theorem WriterWithin.of_ringPutInput {n m : Nat} (h : WriterWithin m s) (hr : ringPutInput n s = .go () t) :
    WriterWithin m t := by
  rw [ringPutInput_go hr]
  exact h

theorem ringPutInput_ip_le {n : Nat} (hr : ringPutInput n s = .go () t) (hn : s.ip.toNat + n ≤ s.inLen.toNat) :
    t.ip ≤ t.inLen := by
  rw [ringPutInput_go hr]
  have := s.inLen.isLt
  refine BitVec.le_def.2 ?_
  simp only [BitVec.toNat_add, BitVec.toNat_ofNat]
  omega

end Sys2Proof.Machine
end

section
/-! SUPPORT. The machine's invariant: each move of the engine and of the host keeps it. -/

namespace Sys2Proof.Machine

variable {α : Type} {s t : State}

/-! ## The decoders' token lengths -/

theorem decodeTokenA_length {c : Config} {f : Bool} {bs rest : List Byte} {i : Instr}
    (h : decodeTokenA c f bs = .ok (i, rest)) : i.bytes + rest.length = bs.length := by
  unfold decodeTokenA at h
  split at h
  · cases h
  · split at h
    · cases h; simp [Instr.bytes]; omega
    · split at h <;> cases h
      simp [Instr.bytes]; omega

theorem decodeLongB_length {c : Config} {ctl lo : Byte} {r rest : List Byte} {i : Instr}
    (h : decodeLongB c ctl lo r = .ok (i, rest)) : i.bytes + rest.length = r.length + 2 := by
  unfold decodeLongB at h
  split at h
  · cases h; simp [Instr.bytes]; omega
  · split at h
    · split at h <;> cases h
      simp [Instr.bytes]; omega
    · cases h; simp [Instr.bytes]; omega

theorem decodeTokenB_length {c : Config} {f : Bool} {bs rest : List Byte} {i : Instr}
    (h : decodeTokenB c f bs = .ok (i, rest)) : i.bytes + rest.length = bs.length := by
  unfold decodeTokenB at h
  split at h
  · cases h
  · split at h
    · cases h; simp [Instr.bytes]; omega
    · split at h
      · cases h; simp [Instr.bytes]; omega
      · split at h
        · cases h
        · exact decodeLongB_length h

theorem inRun_length_le_left {n a : Nat} (h : a ≤ s.inLen.toNat) : a + (inRun s n a).length ≤ s.inLen.toNat := by
  induction n generalizing a with
  | zero => simpa [inRun] using h
  | succ n ih =>
    simp only [inRun]
    split
    · next ha =>
      split
      · have := ih (a := a + 1) ha
        simp only [List.length_cons]
        omega
      · simpa using h
    · simpa using h

/-! ## The invariant of a running command -/

theorem EngineInv.outputOk (h : EngineInv s) (hb : s.status = .busy) : OutputOk s := by
  obtain ⟨⟨hring, -, hout⟩, -, hrun, -⟩ := h
  obtain ⟨-, -, hop, hwritten, -⟩ := hrun hb
  exact ⟨hring, hout, hop, hwritten⟩

theorem EngineInv.inp_wf (h : EngineInv s) : Memory.wf none sizeLimit s.inp = true := by
  obtain ⟨⟨-, hinp, -⟩, -⟩ := h
  exact hinp

theorem EngineInv.opsel_ne_zero (h : EngineInv s) (hb : s.status = .busy) : s.opsel ≠ 0 := by
  obtain ⟨-, -, hrun, -⟩ := h
  obtain ⟨hopsel, -⟩ := hrun hb
  exact hopsel

theorem EngineInv.ip_le (h : EngineInv s) (hb : s.status = .busy) : s.ip ≤ s.inLen := by
  obtain ⟨-, -, hrun, -⟩ := h
  obtain ⟨-, hip, -⟩ := hrun hb
  exact hip

theorem EngineInv.writerOk (h : EngineInv s) (hb : s.status = .busy) (ho : s.opsel = 1) : WriterOk s := by
  obtain ⟨-, -, hrun, -⟩ := h
  obtain ⟨-, -, -, -, hwriter, -⟩ := hrun hb
  exact hwriter ho

theorem EngineInv.frRem_le (h : EngineInv s) (hb : s.status = .busy) (ho : s.opsel = 2) : s.frRem.toNat ≤ 8 := by
  obtain ⟨-, -, hrun, -⟩ := h
  obtain ⟨-, -, -, -, -, hreader⟩ := hrun hb
  exact hreader ho

theorem EngineInv.op_le_decl (h : EngineInv s) (hb : s.status = .busy) (ho : s.opsel ≠ 1) : s.op ≤ s.decl := by
  rw [← cap_of_dec ho]
  exact (h.outputOk hb).op_le

/-- The invariant of a running command, put together. -/
theorem engineInv_of_busy (hb : s.status = .busy) (hcause : s.cause = .none)
    (hinp : Memory.wf none sizeLimit s.inp = true) (hopsel : s.opsel ≠ 0) (hout : OutputOk s) (hip : s.ip ≤ s.inLen)
    (hwriter : s.opsel = 1 → WriterOk s) (hreader : s.opsel = 2 → s.frRem.toNat ≤ 8) : EngineInv s := by
  refine ⟨⟨hout.ring_wf, hinp, hout.out_wf⟩, ?_, fun _ => ?_, fun hd => ?_⟩
  · simp [CauseAgrees, hb, hcause]
  · exact ⟨hopsel, hip, hout.op_le, hout.written, hwriter, hreader⟩
  · rw [hb] at hd; cases hd

theorem EngineInv.cause_eq_none (h : EngineInv s) (hs : s.status ≠ .fault) : s.cause = .none := by
  obtain ⟨-, hcause, -, -⟩ := h
  exact Decidable.not_not.1 fun hne => hs (hcause.2 hne)

/-- A later state of a running command has the invariant if its cursors and flag registers are in range and
its output is written. -/
theorem EngineInv.of_working (h : EngineInv s) (hb : s.status = .busy) (hw : Working s t) (hout : OutputOk t)
    (hip : t.ip ≤ t.inLen) (hwriter : t.opsel = 1 → WriterOk t) (hreader : t.opsel = 2 → t.frRem.toNat ≤ 8) :
    EngineInv t := by
  have hcause : s.cause = .none := h.cause_eq_none (by simp [hb])
  exact engineInv_of_busy (hw.status.trans hb) (hw.cause.trans hcause) (hw.inp ▸ h.inp_wf)
    (hw.opsel ▸ h.opsel_ne_zero hb) hout hip hwriter hreader

/-- The same for a decoder that leaves IP and the flag reader alone. -/
theorem EngineInv.of_decoding (h : EngineInv s) (hb : s.status = .busy) (ho : s.opsel ≠ 1) (hw : Working s t)
    (hout : OutputOk t) (hip : t.ip = s.ip) (hrem : t.frRem = s.frRem) : EngineInv t := by
  obtain ⟨-, eopsel, einLen, -⟩ := hw.sameCommand
  refine h.of_working hb hw hout ?_ (fun h1 => absurd (eopsel ▸ h1) ho) fun h2 => ?_
  · rw [hip, einLen]; exact h.ip_le hb
  · exact hrem ▸ h.frRem_le hb (eopsel ▸ h2)

/-- Raising a fault gives a state with the invariant. -/
theorem engineInv_raiseFault {f : Cause} (hf : f ≠ .none)
    (h : Memory.wf none sizeLimit s.inp = true) : EngineInv (raiseFault f s) := by
  refine ⟨⟨wf_freeRing s.cfg s.freeCtr, h, rfl⟩, ?_, fun hb => ?_, fun hd => ?_⟩
  · simpa [CauseAgrees] using hf
  · cases hb
  · cases hd

theorem EngineInv.of_faulted (h : EngineInv s) (hf : FaultedFrom s t) : EngineInv t := by
  obtain ⟨f, u, hne, hu, rfl⟩ := hf
  exact engineInv_raiseFault hne (hu.inp ▸ h.inp_wf)

/-- Ending a running command in DONE keeps the invariant. -/
theorem EngineInv.of_finish (h : EngineInv s) (hb : s.status = .busy) : EngineInv (finish s) := by
  have hout := h.outputOk hb
  obtain ⟨hmem, hcause, -, -⟩ := h
  refine ⟨hmem, ?_, fun hb' => ?_, fun _ => hout.written⟩
  · simpa [CauseAgrees, hb] using hcause
  · cases hb'

/-! ## The decoders -/

/-- IP moves past bytes below IN_LEN. -/
theorem EngineInv.of_consume {n : Nat} (h : EngineInv s) (hb : s.status = .busy) (ho : s.opsel ≠ 1)
    (hn : s.ip.toNat + n ≤ s.inLen.toNat) : EngineInv (consume n s) := by
  refine h.of_working hb rfl ((h.outputOk hb).congr rfl) ?_ (fun h1 => absurd h1 ho) (h.frRem_le hb)
  have := s.inLen.isLt
  refine BitVec.le_def.2 ?_
  simp only [consume_ip, consume_inLen, BitVec.toNat_add, BitVec.toNat_ofNat]
  omega

/-- Pseudocode of a decoder that leaves IP and the flag reader alone keeps the invariant. -/
theorem EngineInv.of_works {x : Flow α} (h : EngineInv s) (hb : s.status = .busy) (ho : s.opsel ≠ 1)
    (hx : x.Works s) (hgo : ∀ a t, x = .go a t → OutputOk t ∧ t.ip = s.ip ∧ t.frRem = s.frRem) :
    NextSat EngineInv x.result := by
  intro t ht
  rcases hx.result ht with ⟨a, hxa, hw⟩ | hf
  · obtain ⟨hout, hip, hrem⟩ := hgo a t hxa
    exact h.of_decoding hb ho hw hout hip hrem
  · exact h.of_faulted hf

theorem EngineInv.of_matchB {d : BitVec 13} {l : BitVec 9} (h : EngineInv s) (hb : s.status = .busy)
    (ho : s.opsel ≠ 1) : NextSat EngineInv (matchB d l s).result := by
  have hset : OutputOk { s with dist := d, len := l } := (h.outputOk hb).congr rfl
  refine h.of_works hb ho (matchB_works rfl) fun _ t ht => ⟨hset.of_copyB ht, ?_, ?_⟩
  · rw [copyB_go ht]
  · rw [copyB_go ht]

theorem EngineInv.of_endB (h : EngineInv s) (hb : s.status = .busy) : EngineInv (endB s) := by
  unfold endB
  split
  · exact h.of_finish hb
  · exact h.of_faulted (faultedFrom_raiseFault (by decide) rfl)

/-- A token whose bytes lie below IN_LEN keeps the invariant of a running decoder. -/
theorem EngineInv.of_exec {i : Instr} (h : EngineInv s) (hb : s.status = .busy) (ho : s.opsel ≠ 1)
    (hn : s.ip.toNat + i.bytes ≤ s.inLen.toNat) : NextSat EngineInv (exec i s) := by
  cases i with
  | aLit b =>
    have hc := h.of_consume hb ho hn
    refine hc.of_works hb ho (putOut_ringPut_works rfl) fun _ t ht => ?_
    obtain ⟨_, u, hu, hu'⟩ := bind_eq_go.1 ht
    cases hu'
    refine ⟨((hc.outputOk hb).of_putOut hu).of_ringPut, ?_⟩
    obtain ⟨_, rfl⟩ := putOut_go hu
    exact ⟨rfl, rfl⟩
  | aMatch hi l dLo =>
    have hc := h.of_consume hb ho hn
    have hset : OutputOk (setMatchA hi l dLo (consume 2 s)) := (hc.outputOk hb).congr rfl
    refine hc.of_works hb ho (copyA_works rfl) fun _ t ht => ⟨hset.of_copyA ht, ?_⟩
    rw [copyA_go ht]
    exact ⟨rfl, rfl⟩
  | bLit b =>
    have hc := h.of_consume hb ho hn
    refine hc.of_works hb ho (putOut_works rfl) fun _ t ht => ⟨(hc.outputOk hb).of_putOut ht, ?_⟩
    obtain ⟨_, rfl⟩ := putOut_go ht
    exact ⟨rfl, rfl⟩
  | bShort x => exact (h.of_consume hb ho hn).of_matchB hb ho
  | bLong sel hi dLo => exact (h.of_consume hb ho hn).of_matchB hb ho
  | bSuper hi dLo e => exact (h.of_consume hb ho hn).of_matchB hb ho
  | bEnd sel =>
    have hc := h.of_consume hb ho hn
    refine nextSat_next.2 (EngineInv.of_endB ?_ hb)
    exact hc.of_decoding hb ho rfl ((hc.outputOk hb).congr rfl) rfl rfl
  | encA => simp [exec, execEncA, launch, hb]
  | decA => simp [exec, execDecA, launch, hb]
  | decB => simp [exec, execDecB, launch, hb]
  | noCommand => simp [exec, execNoCommand, hb]
  | hdrA m n => simp [exec, execHdrA, hb]
  | hdrB n => simp [exec, execHdrB, hb]

/-- The bytes of a decoded token lie below IN_LEN. -/
theorem decode_bytes_le {f : Bool} {sp : Space} {i : Instr} {rest : List Byte}
    (hsp : sp = .tokenA f ∨ sp = .tokenB f) (hip : s.ip ≤ s.inLen)
    (h : decode s.cfg sp (inRun s 3 s.ip.toNat) = .ok (i, rest)) : s.ip.toNat + i.bytes ≤ s.inLen.toNat := by
  have hrun := inRun_length_le_left (n := 3) (BitVec.le_def.1 hip)
  have hlen : i.bytes + rest.length = (inRun s 3 s.ip.toNat).length := by
    rcases hsp with rfl | rfl
    · exact decodeTokenA_length h
    · exact decodeTokenB_length h
  omega

theorem EngineInv.of_runToken {f : Bool} {sp : Space} (hsp : sp = .tokenA f ∨ sp = .tokenB f) (h : EngineInv s)
    (hb : s.status = .busy) (ho : s.opsel ≠ 1) : NextSat EngineInv (runToken sp s) := by
  cases hd : decode s.cfg sp (inRun s 3 s.ip.toNat) with
  | ok r =>
    obtain ⟨i, rest⟩ := r
    rw [runToken_of_ok hd]
    exact h.of_exec hb ho (decode_bytes_le hsp (h.ip_le hb) hd)
  | error e =>
    simp only [runToken, hd]
    exact fun t ht => h.of_faulted (missingByte_moved rfl t ht)

/-- What FLAGR_A_GET did when it went on: it wrote IP, FR_BYTE and FR_REM (spec 42 R180). -/
theorem flagrAGet_go {f : Bool} (h : flagrAGet s = .go f t) :
    (s.frRem ≠ 0 ∧ t = { s with frRem := s.frRem - 1, frByte := t.frByte }) ∨
    (s.ip < s.inLen ∧ t = { s with ip := s.ip + 1, frRem := 7, frByte := t.frByte }) := by
  by_cases hr : s.frRem = 0
  · rcases fetch_cases s with ⟨hlt, b, _, e⟩ | ⟨_, _, e⟩ | ⟨_, e⟩
    · rw [flagrAGet_of_fetch hr e] at h
      cases h
      exact .inr ⟨hlt, rfl⟩
    · simp [flagrAGet, frRefill, hr, e] at h
    · simp [flagrAGet, frRefill, hr, e] at h
  · rw [flagrAGet_of_rem hr] at h
    cases h
    exact .inl ⟨hr, rfl⟩

/-- What FLAGR_B_GET did when it went on: it wrote FB_REG, and IP if it fetched (spec 42 R185). -/
theorem flagrBGet_go {f : Bool} (h : flagrBGet s = .go f t) :
    t = { s with fbReg := t.fbReg } ∨ (s.ip < s.inLen ∧ t = { s with ip := s.ip + 1, fbReg := t.fbReg }) := by
  by_cases hm : (s.fbReg >>> 1).extractLsb' 8 8 = 0
  · simp only [flagrBGet, hm, if_true] at h
    obtain ⟨b, u, hu, hu'⟩ := bind_eq_go.1 h
    rcases fetch_cases { s with fbReg := s.fbReg >>> 1 } with ⟨hlt, _, _, e⟩ | ⟨_, _, e⟩ | ⟨_, e⟩ <;>
      rw [e] at hu <;> cases hu
    cases hu'
    exact .inr ⟨hlt, rfl⟩
  · rw [flagrBGet_of_marker hm] at h
    cases h
    exact .inl rfl

theorem succ_le_of_lt {a b : Size} (h : a < b) : a + 1 ≤ b := by
  have := succ_toNat_of_lt h
  exact BitVec.le_def.2 (this ▸ h)

theorem EngineInv.of_flagrAGet {f : Bool} (h : EngineInv s) (hb : s.status = .busy) (ho : s.opsel ≠ 1)
    (hf : flagrAGet s = .go f t) : EngineInv t := by
  have hout := h.outputOk hb
  have hip := h.ip_le hb
  rcases flagrAGet_go hf with ⟨hr, e⟩ | ⟨hlt, e⟩ <;> rw [e]
  · refine h.of_working hb rfl (hout.congr rfl) hip (fun h1 => absurd h1 ho) fun h2 => ?_
    have := h.frRem_le hb h2
    simp only
    bv_omega
  · exact h.of_working hb rfl (hout.congr rfl) (succ_le_of_lt hlt) (fun h1 => absurd h1 ho)
      fun _ => show (7 : BitVec 4).toNat ≤ 8 by decide

theorem EngineInv.of_flagrBGet {f : Bool} (h : EngineInv s) (hb : s.status = .busy) (ho : s.opsel ≠ 1)
    (hf : flagrBGet s = .go f t) : EngineInv t := by
  have hout := h.outputOk hb
  rcases flagrBGet_go hf with e | ⟨hlt, e⟩ <;> rw [e]
  · exact h.of_working hb rfl (hout.congr rfl) (h.ip_le hb) (fun h1 => absurd h1 ho) (h.frRem_le hb)
  · exact h.of_working hb rfl (hout.congr rfl) (succ_le_of_lt hlt) (fun h1 => absurd h1 ho) (h.frRem_le hb)

/-- A token after its flag keeps the invariant of a running decoder if the reading of the flag does. -/
theorem EngineInv.of_withFlag {x : Flow Bool} {sp : Bool → Space} (h : EngineInv s) (hb : s.status = .busy)
    (ho : s.opsel ≠ 1) (hsp : ∀ f, sp f = .tokenA f ∨ sp f = .tokenB f) (hx : x.Works s)
    (hgo : ∀ f t, x = .go f t → EngineInv t) : NextSat EngineInv (withFlag x sp) := by
  cases x with
  | go f t =>
    have hw : Working s t := hx
    exact (hgo f t rfl).of_runToken (hsp f) (hw.status.trans hb) (hw.opsel ▸ ho)
  | halt r => exact fun t ht => h.of_faulted (hx t ht)

theorem EngineInv.of_decATurn (h : EngineInv s) (hb : s.status = .busy) (ho : s.opsel ≠ 1) :
    NextSat EngineInv (decATurn s) := by
  unfold decATurn
  split
  · exact h.of_withFlag hb ho (fun _ => .inl rfl) (flagrAGet_works rfl) fun _ _ hf => h.of_flagrAGet hb ho hf
  · exact nextSat_next.2 (h.of_finish hb)

theorem EngineInv.of_decBTurn (h : EngineInv s) (hb : s.status = .busy) (ho : s.opsel ≠ 1) :
    NextSat EngineInv (decBTurn s) :=
  h.of_withFlag hb ho (fun _ => .inr rfl) (flagrBGet_works rfl) fun _ _ hf => h.of_flagrBGet hb ho hf

/-! ## The encoder -/

theorem EngineInv.of_encFinish (h : EngineInv s) (hb : s.status = .busy) : EngineInv (encFinish s) := by
  refine EngineInv.of_finish ?_ hb
  exact h.of_working hb rfl ((h.outputOk hb).of_writeOut s.faSlot) (h.ip_le hb) (h.writerOk hb) (h.frRem_le hb)

/-- A pass of the encoder's loop from `s` to `t`: a token's bytes are appended, the ring is given the `n` input
bytes the token stands for, none of them at or beyond IN_LEN, and a full group is closed (spec 43 R202 to R205). -/
def EncPassed (s t : State) : Prop :=
  ∃ n u v, Appended (findMatch (lookAhead s) s) u ∧ u.ip.toNat + n ≤ u.inLen.toNat ∧
    ringPutInput n u = .go () v ∧ closeIfFull v = .go () t

/-- Everything a turn of the encoder can do (spec 43 R202 to R206). -/
theorem encTurn_next (h : encTurn s = .next t) :
    t = encFinish s ∨ FaultedFrom s t ∨ (Working s t ∧ EncPassed s t) := by
  unfold encTurn at h
  split at h
  · next hlt =>
    split at h
    · have hworks : ((emitToken (findMatch (lookAhead s) s)).bind fun _ t => closeIfFull t).Works s :=
        (emitToken_works rfl).bind fun _ _ ht => closeIfFull_works ht
      rcases hworks.result h with ⟨_, hgo, hw⟩ | hf
      · obtain ⟨_, v, hv, hclose⟩ := bind_eq_go.1 hgo
        obtain ⟨n, u, hu, hring, hn⟩ := emitToken_go hlt hv
        exact .inr (.inr ⟨hw, n, u, v, hu, hn, hring, hclose⟩)
      · exact .inr (.inl hf)
    · cases h
  · exact .inl (by simpa using h.symm)

theorem EngineInv.of_encPassed (h : EngineInv s) (hb : s.status = .busy) (ho : s.opsel = 1) (hw : Working s t)
    (hp : EncPassed s t) : EngineInv t := by
  obtain ⟨n, u, v, hu, hn, hring, hclose⟩ := hp
  have hfound : OutputOk (findMatch (lookAhead s) s) := (h.outputOk hb).congr rfl
  have hwriting : WriterOk (findMatch (lookAhead s) s) := h.writerOk hb ho
  have hout : OutputOk t := ((hfound.of_appended hu).of_ringPutInput hring).of_closeIfFull hclose
  have hwt : WriterOk t := writerOk_of_closeIfFull ((hwriting.of_appended hu).of_ringPutInput hring) hclose
  obtain ⟨e₁, e₂⟩ := ip_inLen_of_inputSide (closeIfFull_inputSide hclose)
  refine h.of_working hb hw hout ?_ (fun _ => hwt) fun h2 => absurd (hw.opsel.symm.trans h2) (by simp [ho])
  rw [e₁, e₂]
  exact ringPutInput_ip_le hring hn

theorem EngineInv.of_encTurn (h : EngineInv s) (hb : s.status = .busy) (ho : s.opsel = 1) :
    NextSat EngineInv (encTurn s) := by
  intro t ht
  rcases encTurn_next ht with rfl | hf | ⟨hw, hp⟩
  · exact h.of_encFinish hb
  · exact h.of_faulted hf
  · exact h.of_encPassed hb ho hw hp

end Sys2Proof.Machine
end

section
/-! SUPPORT. The states the commands are launched in (spec 10 R51 to R53), the codes the host reads, and
the reset state. -/

namespace Sys2Proof.Machine

variable {s t : State}

/-! ## The launched states -/

/-- ENC_A once its first flag slot is reserved. -/
def encStart (s : State) : State := { encInit s with out := [(0, 0)], op := 1, faSlot := 0 }

/-- DEC_A after its initialisation. -/
def decAStart (s : State) : State := { ringInit (beginCommand s) with frByte := 0, frRem := 0 }

/-- DEC_B after its initialisation. -/
def decBStart (s : State) : State := { beginCommand s with fbReg := 0 }

/-- A codec command that has a next state was launched. -/
theorem launch_next {k : State → Result} (h : launch s k = .next t) : Launchable s ∧ k s = .next t := by
  unfold launch at h
  split at h
  · cases h
  · next hb =>
    split at h
    · cases h
    · next ho => exact ⟨⟨hb, by simpa using ho⟩, h⟩

theorem launchable_of_next {i : Instr} (hi : i = .encA ∨ i = .decA ∨ i = .decB) (h : exec i s = .next t) :
    Launchable s := by
  rcases hi with rfl | rfl | rfl
  all_goals
    simp only [exec, execEncA, execDecA, execDecB] at h
    exact (launch_next h).1

/-- ENC_A's reservation with room (spec 43 R201). -/
theorem flagwReserve_encInit_of_lt (h : 0 < cap s) : flagwReserve (encInit s) = .go () (encStart s) := by
  have hlt : (encInit s).op < cap (encInit s) := h
  rw [flagwReserve_of_lt hlt]
  rfl

/-- ENC_A's reservation without room (spec 43 R201). -/
theorem flagwReserve_encInit_of_not_lt (h : ¬ 0 < cap s) :
    flagwReserve (encInit s) = .halt (.next (raiseFault .outputOverrun (encInit { s with faSlot := 0 }))) := by
  have hlt : ¬ (encInit s).op < cap (encInit s) := h
  rw [flagwReserve_of_not_lt hlt]
  rfl

theorem exec_encA_of_lt (hl : Launchable s) (h : 0 < cap s) : exec .encA s = .next (encStart s) := by
  obtain ⟨hb, ho⟩ := hl
  simp [exec, execEncA, launch_of_ok hb ho, flagwReserve_encInit_of_lt h]

theorem exec_encA_of_not_lt (hl : Launchable s) (h : ¬ 0 < cap s) :
    exec .encA s = .next (raiseFault .outputOverrun (encInit { s with faSlot := 0 })) := by
  obtain ⟨hb, ho⟩ := hl
  simp [exec, execEncA, launch_of_ok hb ho, flagwReserve_encInit_of_not_lt h]

theorem exec_decA (hl : Launchable s) : exec .decA s = .next (decAStart s) := by
  obtain ⟨hb, ho⟩ := hl
  simp [exec, execDecA, launch_of_ok hb ho, decAStart]

theorem exec_decB (hl : Launchable s) : exec .decB s = .next (decBStart s) := by
  obtain ⟨hb, ho⟩ := hl
  simp [exec, execDecB, launch_of_ok hb ho, decBStart]

/-- A ring with no cell listed holds `FILL` in every cell. -/
theorem ringGet_of_nil (h : s.ring = []) (i : RingIdx) : ringGet s i = s.cfg.fill := by
  simp [ringGet, h, Memory.load]

theorem reference_warm_fill (h : s.cfg = Config.reference) : s.cfg.warm = 3822 ∧ s.cfg.fill = 0 := by
  rw [h]
  exact ⟨rfl, rfl⟩

/-- Settles O28: with room the launch ends in `encStart`, whose fields are read off; with none the first
reservation raises OUTPUT_OVERRUN. -/
theorem encALaunch : Obligations.EncALaunch := by
  unfold Obligations.EncALaunch
  intro s hl ho
  refine ⟨fun hcap => ⟨encStart s, exec_encA_of_lt hl ?_, fun _ => ringGet_of_nil rfl _, rfl, fun hc => ?_, rfl, rfl,
    rfl, rfl, rfl, rfl, rfl, rfl, fun a ha => ?_, ⟨rfl, rfl, rfl, rfl, rfl, rfl⟩, rfl, rfl, rfl, rfl, rfl, rfl⟩,
    fun hcap => ⟨_, exec_encA_of_not_lt hl ?_, rfl, rfl, rfl, rfl, rfl, rfl, rfl⟩⟩
  · rw [cap_of_enc ho]; exact hcap
  · obtain ⟨hwarm, hfill⟩ := reference_warm_fill hc
    exact ⟨hwarm, fun i => (ringGet_of_nil rfl i).trans hfill⟩
  · simp [readOut_eq, encStart, Memory.read?, Ne.symm ha]
  · rw [cap_of_enc ho, hcap]; decide

/-- Settles O29: the launch ends in `decAStart`, whose fields are read off. -/
theorem decALaunch : Obligations.DecALaunch := by
  unfold Obligations.DecALaunch
  intro s hl
  refine ⟨decAStart s, exec_decA hl, fun _ => ringGet_of_nil rfl _, rfl, fun hc => ?_, rfl, rfl, rfl, rfl, rfl, rfl,
    ⟨rfl, rfl, rfl, rfl, rfl, rfl⟩, rfl, rfl, rfl, rfl, rfl, rfl, rfl⟩
  obtain ⟨hwarm, hfill⟩ := reference_warm_fill hc
  exact ⟨hwarm, fun i => (ringGet_of_nil rfl i).trans hfill⟩

/-- Settles O30: the launch ends in `decBStart`, whose fields are read off. -/
theorem decBLaunch : Obligations.DecBLaunch := by
  unfold Obligations.DecBLaunch
  intro s hl
  exact ⟨decBStart s, exec_decB hl, rfl, rfl, rfl, rfl, rfl, fun i => ringGet_congr rfl rfl i, rfl,
    ⟨rfl, rfl, rfl, rfl, rfl, rfl⟩, rfl, rfl, rfl, rfl, rfl, rfl, rfl, rfl⟩

/-! ## Reset and the status registers -/

/-- Settles O44: the values are those of the reset state's definition (spec 10 R50). -/
theorem resetState : Obligations.ResetState := by
  unfold Obligations.ResetState
  exact ⟨rfl, rfl, rfl⟩

/-- Settles O45: the memories of the reset state are empty, and its STATE is IDLE. -/
theorem resetHasInv : Obligations.ResetHasInv := by
  unfold Obligations.ResetHasInv
  refine ⟨reset_memories_wf, by simp [CauseAgrees, State.reset], fun hb => ?_, fun hd => ?_⟩
  · cases hb
  · cases hd

/-- Settles O50: the two registers are read as the codes of their values, one case per value. -/
theorem statusCodes : Obligations.StatusCodes := by
  unfold Obligations.StatusCodes
  intro s
  have hstatus : readReg 4 s = s.status.code.setWidth 32 := rfl
  have hcause : readReg 5 s = s.cause.code.setWidth 32 := rfl
  rw [hstatus, hcause]
  refine ⟨?_, ?_, ?_⟩
  · cases s.status <;> rfl
  · cases s.cause <;> rfl
  · cases s.cause <;> decide

end Sys2Proof.Machine
end

section
/-! SUPPORT. What START and the host's other moves can do, said once; and with it that every step keeps
the machine's invariant. -/

namespace Sys2Proof.Machine

variable {s t : State}

/-! ## START -/

theorem commandOf_cases (o : BitVec 2) :
    (o = 0 ∧ commandOf o = .noCommand) ∨ (o = 1 ∧ commandOf o = .encA) ∨ (o = 2 ∧ commandOf o = .decA) ∨
      (o = 3 ∧ commandOf o = .decB) := by
  revert o
  decide

/-- The running states START leads to: the command of OPSEL with its initialisation done. -/
inductive StartedFrom (s : State) : State → Prop
  | encA (ho : s.opsel = 1) (hcap : 0 < cap s) : StartedFrom s (encStart s)
  | decA (ho : s.opsel = 2) : StartedFrom s (decAStart s)
  | decB (ho : s.opsel = 3) : StartedFrom s (decBStart s)

/-- A START that has a next state runs a command, or raises a fault and keeps IN (spec 70 R332, 60 R305). -/
theorem startCommand_next (h : startCommand s = .next t) :
    StartedFrom s t ∨ ∃ f u, f ≠ Cause.none ∧ u.inp = s.inp ∧ t = raiseFault f u := by
  unfold startCommand at h
  rcases commandOf_cases s.opsel with ⟨ho, e⟩ | ⟨ho, e⟩ | ⟨ho, e⟩ | ⟨ho, e⟩ <;> rw [e] at h
  · simp only [exec, execNoCommand] at h
    split at h <;> cases h
    exact .inr ⟨.badCommand, s, by decide, rfl, rfl⟩
  · have hl : Launchable s := launchable_of_next (.inl rfl) h
    by_cases hcap : 0 < cap s
    · rw [exec_encA_of_lt hl hcap] at h
      cases h
      exact .inl (.encA ho hcap)
    · rw [exec_encA_of_not_lt hl hcap] at h
      cases h
      exact .inr ⟨.outputOverrun, encInit { s with faSlot := 0 }, by decide, rfl, rfl⟩
  · rw [exec_decA (launchable_of_next (.inr (.inl rfl)) h)] at h
    cases h
    exact .inl (.decA ho)
  · rw [exec_decB (launchable_of_next (.inr (.inr rfl)) h)] at h
    cases h
    exact .inl (.decB ho)

/-! ## The host's moves -/

/-- What the engine's result consists of: the host's moves other than START and RESET leave it alone. -/
def resultSide (s : State) : Config × Memory × Memory × Status × Cause × Size :=
  (s.cfg, s.ring, s.out, s.status, s.cause, s.outLen)

/-- Where a move of the host that has a next state leads. -/
inductive HostMovedFrom (s t : State) : Prop
  | started (h : StartedFrom s t)
  | kept (e : resultSide t = resultSide s) (hinp : t.inp = s.inp)
  | placed (e : resultSide t = resultSide s) (bs : List Byte) (hlen : bs.length ≤ sizeLimit)
      (hinp : t.inp = s.inp.placeBytes bs)
  | raised (f : Cause) (u : State) (hf : f ≠ .none) (hinp : u.inp = s.inp) (q : List HostAction)
      (e : t = { raiseFault f u with host := q })
  | reset (e : t = powerOnReset s)

theorem writeReg_resultSide (n : BitVec 3) (v : BitVec 32) (s : State) :
    resultSide (writeReg n v s) = resultSide s ∧ (writeReg n v s).inp = s.inp := by
  unfold writeReg
  split_ifs <;> exact ⟨rfl, rfl⟩

theorem fillIn_moved (bs : List Byte) (n : Size) (s : State) : NextSat (HostMovedFrom s) (fillIn bs n s) := by
  by_cases hl : bs.length < sizeLimit
  · rw [fillIn_of_lt hl]
    exact nextSat_next.2 (.placed rfl bs (Nat.le_of_lt hl) rfl)
  · rw [fillIn_of_not_lt hl]
    simp

theorem formatError_moved (s : State) : HostMovedFrom s (formatError s) :=
  .raised .formatError s (by decide) rfl [] rfl

theorem execHdrA_moved (m n : Size) (s : State) : NextSat (HostMovedFrom s) (execHdrA m n s) := by
  unfold execHdrA
  split
  · simp
  · split
    · next hlen =>
      refine nextSat_next.2 (.placed rfl (s.file.drop 16) ?_ rfl)
      have := m.isLt
      rw [List.length_drop, hlen, sizeLimit]
      omega
    · exact nextSat_next.2 (formatError_moved s)

theorem execHdrB_moved (n : Size) (s : State) : NextSat (HostMovedFrom s) (execHdrB n s) := by
  unfold execHdrB
  split
  · simp
  · split
    · exact nextSat_next.2 (formatError_moved s)
    · split
      · simp
      · next hlen =>
        refine nextSat_next.2 (.placed rfl (s.file.drop 8) ?_ rfl)
        rw [List.length_drop]
        omega

/-- What is read from a file of format A is a header A. -/
theorem decodeHeaderA_ok {c : Config} {bs rest : List Byte} {i : Instr}
    (h : decodeHeaderA c bs = .ok (i, rest)) : ∃ m n, i = .hdrA m n := by
  unfold decodeHeaderA at h
  split at h
  · split at h <;> cases h
    exact ⟨_, _, rfl⟩
  · cases h

/-- What is read from a file of format B is a header B. -/
theorem decodeHeaderB_ok {c : Config} {bs rest : List Byte} {i : Instr}
    (h : decodeHeaderB c bs = .ok (i, rest)) : ∃ n, i = .hdrB n := by
  unfold decodeHeaderB at h
  split at h
  · split at h <;> cases h
    exact ⟨_, rfl⟩
  · cases h

theorem unwrapA_moved (s : State) : NextSat (HostMovedFrom s) (unwrap .headerA s) := by
  unfold unwrap
  split
  · next i rest hd =>
    obtain ⟨m, n, rfl⟩ := decodeHeaderA_ok hd
    exact execHdrA_moved m n s
  · exact nextSat_next.2 (formatError_moved s)

theorem unwrapB_moved (s : State) : NextSat (HostMovedFrom s) (unwrap .headerB s) := by
  unfold unwrap
  split
  · next i rest hd =>
    obtain ⟨n, rfl⟩ := decodeHeaderB_ok hd
    exact execHdrB_moved n s
  · exact nextSat_next.2 (formatError_moved s)

theorem wrapFile_moved (s : State) : NextSat (HostMovedFrom s) (wrapFile s) := by
  unfold wrapFile
  split
  · split
    · exact nextSat_next.2 (.kept rfl rfl)
    · simp
  · simp

theorem hostAct_moved (a : HostAction) (s : State) : NextSat (HostMovedFrom s) (hostAct a s) := by
  cases a with
  | writeReg n v =>
    obtain ⟨e, hinp⟩ := writeReg_resultSide n v s
    exact nextSat_next.2 (.kept e hinp)
  | loadIn bytes => exact fillIn_moved _ _ s
  | setFile bytes => exact nextSat_next.2 (.kept rfl rfl)
  | fileToIn => exact fillIn_moved _ _ s
  | place overlap => exact nextSat_next.2 (.kept rfl rfl)
  | start =>
    intro t ht
    rcases startCommand_next ht with h | ⟨f, u, hf, hinp, rfl⟩
    · exact .started h
    · exact .raised f u hf hinp u.host rfl
  | reset => exact nextSat_next.2 (.reset rfl)
  | wrapA => exact wrapFile_moved s
  | unwrapA => exact unwrapA_moved s
  | unwrapB => exact unwrapB_moved s

/-- Everything a step can do while no command runs: nothing, or the host's oldest action on the state whose
queue is the rest (log 9). -/
theorem step_hostMoved (hb : s.status ≠ .busy) (h : step s = .next t) :
    t = s ∨ ∃ a q, s.host = a :: q ∧ HostMovedFrom { s with host := q } t := by
  simp only [step, machineStep, if_neg hb, hostTurn] at h
  split at h
  · exact .inl (by simpa using h.symm)
  · next a q hq => exact .inr ⟨a, q, hq, hostAct_moved a _ t h⟩

/-! ## The invariant over the host's moves -/

theorem size_zero_le (a : Size) : 0 ≤ a := BitVec.not_lt.1 BitVec.not_lt_zero

/-- Before the first byte of output. -/
theorem outputOk_of_op_eq_zero (hring : Memory.wf (some s.cfg.fill) ringSize s.ring = true) (hout : s.out = [])
    (hop : s.op = 0) : OutputOk s := by
  refine ⟨hring, by rw [hout]; rfl, hop ▸ size_zero_le _, fun a ha => ?_⟩
  rw [hop] at ha
  exact absurd ha (Nat.not_lt_zero a)

theorem EngineInv.of_started (h : EngineInv s) (ht : StartedFrom s t) : EngineInv t := by
  have hinp := h.inp_wf
  obtain ⟨⟨hring, -, -⟩, -⟩ := h
  cases ht with
  | encA ho hcap =>
    have hout : OutputOk (encInit s) := outputOk_of_op_eq_zero rfl rfl rfl
    have hstart := flagwReserve_encInit_of_lt hcap
    have hopsel : (encStart s).opsel = 1 := ho
    exact engineInv_of_busy rfl rfl hinp (by simp [hopsel]) (hout.of_flagwReserve hstart) (size_zero_le _)
      (fun _ => writerOk_of_flagwReserve hstart) fun h2 => absurd h2 (by simp [hopsel])
  | decA ho =>
    have hopsel : (decAStart s).opsel = 2 := ho
    exact engineInv_of_busy rfl rfl hinp (by simp [hopsel]) (outputOk_of_op_eq_zero rfl rfl rfl) (size_zero_le _)
      (fun h1 => absurd h1 (by simp [hopsel])) fun _ => Nat.zero_le _
  | decB ho =>
    have hopsel : (decBStart s).opsel = 3 := ho
    exact engineInv_of_busy rfl rfl hinp (by simp [hopsel]) (outputOk_of_op_eq_zero hring rfl rfl) (size_zero_le _)
      (fun h1 => absurd h1 (by simp [hopsel])) fun h2 => absurd h2 (by simp [hopsel])

/-- A host move that leaves the result side alone keeps the invariant, if IN stays canonical. -/
theorem EngineInv.of_resultSide (h : EngineInv s) (hb : s.status ≠ .busy) (e : resultSide t = resultSide s)
    (hinp : Memory.wf none sizeLimit t.inp = true) : EngineInv t := by
  simp only [resultSide, Prod.mk.injEq] at e
  obtain ⟨hcfg, hring, hout, hstatus, hcause, hlen⟩ := e
  obtain ⟨⟨hringwf, -, houtwf⟩, hagrees, -, hresult⟩ := h
  refine ⟨⟨?_, hinp, ?_⟩, ?_, fun hbt => absurd (hstatus ▸ hbt) hb, fun hd a ha => ?_⟩
  · rw [hcfg, hring]; exact hringwf
  · rw [hout]; exact houtwf
  · unfold CauseAgrees; rw [hstatus, hcause]; exact hagrees
  · rw [readOut_congr hout]; exact hresult (hstatus ▸ hd) a (hlen ▸ ha)

theorem engineInv_powerOnReset (h : Memory.wf none sizeLimit s.inp = true) : EngineInv (powerOnReset s) := by
  refine ⟨⟨wf_freeRing s.cfg s.freeCtr, h, rfl⟩, ?_, fun hb => ?_, fun hd => ?_⟩
  · simp [CauseAgrees]
  · cases hb
  · cases hd

theorem EngineInv.of_hostMoved (h : EngineInv s) (hb : s.status ≠ .busy) (ht : HostMovedFrom s t) :
    EngineInv t := by
  have hinp := h.inp_wf
  cases ht with
  | started hs => exact h.of_started hs
  | kept e he => exact h.of_resultSide hb e (he ▸ hinp)
  | placed e bs hlen he => exact h.of_resultSide hb e (he ▸ Memory.wf_placeBytes hinp hlen)
  | raised f u hf hu q e => exact e ▸ (engineInv_raiseFault hf (hu ▸ hinp) : EngineInv (raiseFault f u))
  | reset e => exact e ▸ engineInv_powerOnReset hinp

/-! ## The step -/

theorem EngineInv.of_engineTurn (h : EngineInv s) (hb : s.status = .busy) : NextSat EngineInv (engineTurn s) := by
  unfold engineTurn
  split
  · next h1 => exact h.of_encTurn hb h1
  · next h1 =>
    split
    · exact h.of_decATurn hb h1
    · split
      · exact h.of_decBTurn hb h1
      · simp

/-- Settles O46: the engine's moves keep the invariant by the lemmas of each command's loop, and a move of
the host leaves what it speaks of alone, launches a command or resets. -/
theorem stepKeepsInv : Obligations.StepKeepsInv := by
  unfold Obligations.StepKeepsInv
  intro s t h hs
  by_cases hb : s.status = .busy
  · rw [step, machineStep, if_pos hb] at hs
    exact h.of_engineTurn hb t hs
  · rcases step_hostMoved hb hs with rfl | ⟨a, q, -, hm⟩
    · exact h
    · exact EngineInv.of_hostMoved (s := { s with host := q }) h hb hm

/-! ## The end of a command -/

theorem outRun_of_written {n a : Nat} (h : ∀ k, k < n → (readOut s (a + k)).isSome = true) :
    ∃ p, outRun s n a = some p ∧ p.length = n := by
  induction n generalizing a with
  | zero => exact ⟨[], rfl, rfl⟩
  | succ n ih =>
    obtain ⟨b, hb⟩ := Option.isSome_iff_exists.1 (h 0 (Nat.succ_pos n))
    obtain ⟨p, hp, hlen⟩ := ih (a := a + 1) fun k hk => by
      rw [Nat.add_right_comm]; exact h (k + 1) (Nat.succ_lt_succ hk)
    exact ⟨b :: p, by simp [outRun, show readOut s a = some b from hb, hp], by simp [hlen]⟩

/-- Settles O55: a step to DONE completed the command (`step_moved`), with the cursors where its loop ends;
that the result is written is part of the invariant the step keeps. -/
theorem doneMeansResult : Obligations.DoneMeansResult := by
  unfold Obligations.DoneMeansResult
  intro s t h hb hs hd
  have ht : EngineInv t := stepKeepsInv s t h hs
  obtain ⟨u, hu, e, henc, hdec⟩ := (step_moved hb t hs).completed_of_done hb hd
  obtain ⟨-, -, einLen, -, edecl, -⟩ := hu.sameCommand
  have hcause : t.cause = .none := ht.cause_eq_none (by simp [hd])
  obtain ⟨-, -, -, hwritten⟩ := ht
  refine ⟨hcause, ?_, ?_, fun ho => ?_, fun ho => ?_, ?_⟩
  · rw [e]; rfl
  · rw [e]; rfl
  · rw [e, finish_outLen, hdec ho (h.op_le_decl hb ho), edecl]
  · rw [e, finish_inPos, henc ho (h.ip_le hb), einLen]
  · exact outRun_of_written fun k hk => by rw [Nat.zero_add]; exact hwritten hd k hk

end Sys2Proof.Machine
end

section
/-! SUPPORT. The ring invariant of spec 10 R54: one byte emitted and put keeps it, and with it every step. -/

namespace Sys2Proof.Machine

variable {s t : State}

/-! ## One byte more -/

theorem ringIndex_eq_iff (a b : Cursor) : ringIndex a = ringIndex b ↔ a.toNat % 4096 = b.toNat % 4096 := by
  rw [← BitVec.toNat_inj]
  simp [ringIndex]

/-- The byte just put is one position back. -/
theorem historyByte_ringPut_one (b : Byte) (s : State) : historyByte (ringPut b s) 1 = b := by
  have hcell : (ringPut b s).wr - BitVec.ofNat 16 1 = s.wr := by rw [ringPut_wr]; bv_omega
  rw [historyByte, hcell, ringGet_ringPut_same]

/-- Every byte of the history but the oldest moves one position further back. -/
theorem historyByte_ringPut_succ {d : Nat} (b : Byte) (s : State) (h1 : 1 ≤ d) (hd : d < 4096) :
    historyByte (ringPut b s) (d + 1) = historyByte s d := by
  have hcell : (ringPut b s).wr - BitVec.ofNat 16 (d + 1) = s.wr - BitVec.ofNat 16 d := by
    rw [ringPut_wr]
    bv_omega
  have hne : ringIndex (s.wr - BitVec.ofNat 16 d) ≠ ringIndex s.wr := by
    rw [Ne, ringIndex_eq_iff]
    bv_omega
  rw [historyByte, hcell, ringGet_ringPut_other b s hne, historyByte]

/-- RING, its cursor and the configuration: what the ring invariant reads. -/
def ringSide (s : State) : Config × Memory × Cursor := (s.cfg, s.ring, s.wr)

/-- The ring invariant depends on the ring side and on the bytes emitted so far. -/
theorem RingHolds.congr {e : Nat} {f g : Nat → Option Byte} (h : RingHolds s e f) (hs : ringSide t = ringSide s)
    (hg : ∀ a, a < e → g a = f a) : RingHolds t e g := by
  simp only [ringSide, Prod.mk.injEq] at hs
  obtain ⟨hcfg, hring, hwr⟩ := hs
  obtain ⟨hcur, hhist⟩ := h
  refine ⟨by rw [hwr, hcfg]; exact hcur, fun d h1 hd => ?_⟩
  have hbyte : historyByte t d = historyByte s d := by
    rw [historyByte, historyByte, hwr]
    exact ringGet_congr hring hcfg _
  rw [hbyte, hcfg, hhist d h1 hd]
  split
  · exact (hg _ (by omega)).symm
  · rfl

/-- Emitting a byte and putting it into the ring keeps the ring invariant (spec 40 R130, R132). -/
theorem RingHolds.of_ringPut {e : Nat} {f : Nat → Option Byte} {b : Byte} (h : RingHolds s e f)
    (hb : f e = some b) : RingHolds (ringPut b s) (e + 1) f := by
  obtain ⟨hcur, hhist⟩ := h
  refine ⟨?_, fun d h1 hd => ?_⟩
  · rw [ringPut_wr, ringPut_cfg, hcur, BitVec.add_assoc, BitVec.ofNat_add]
    rfl
  · obtain rfl | ⟨k, rfl, hk⟩ : d = 1 ∨ ∃ k, d = k + 1 ∧ 1 ≤ k := by
      by_cases hd1 : d = 1
      · exact .inl hd1
      · exact .inr ⟨d - 1, by omega, by omega⟩
    · rw [historyByte_ringPut_one, if_pos (by omega), Nat.add_sub_cancel, hb]
    · rw [historyByte_ringPut_succ b s hk (by omega), hhist k hk (by omega), ringPut_cfg, Nat.add_sub_add_right]
      simp only [Nat.add_le_add_iff_right]

/-- RING_INIT begins the ring invariant with nothing emitted (spec 40 R131). -/
theorem ringHolds_of_nil {f : Nat → Option Byte} (hring : s.ring = []) (hwr : s.wr = s.cfg.warm) :
    RingHolds s 0 f := by
  refine ⟨by simpa using hwr, fun d h1 _ => ?_⟩
  rw [if_neg (by omega), historyByte, ringGet_of_nil hring]

/-! ## The encoder -/

/-- The ring invariant of the encoder: it has emitted IN up to IP. -/
def EncRing (s : State) : Prop := RingHolds s s.ip.toNat (readIn s)

theorem EncRing.congr (h : EncRing s) (e : inputSide t = inputSide s) : EncRing t := by
  simp only [inputSide, Prod.mk.injEq] at e
  obtain ⟨hcfg, hring, hwr, hinp, -, hip⟩ := e
  rw [EncRing, hip]
  exact RingHolds.congr h (by simp [ringSide, hcfg, hring, hwr]) fun a _ => readIn_congr hinp a

theorem EncRing.of_ringPutInput {n : Nat} (h : EncRing s) (hn : s.ip.toNat + n ≤ s.inLen.toNat)
    (hr : ringPutInput n s = .go () t) : EncRing t := by
  induction n generalizing s with
  | zero => cases hr; exact h
  | succ n ih =>
    have hip : (consume 1 s).ip.toNat = s.ip.toNat + 1 := succ_toNat_of_lt (b := s.inLen) (BitVec.lt_def.2 (by omega))
    simp only [ringPutInput] at hr
    split at hr
    · next b hb =>
      refine ih (s := consume 1 (ringPut b s)) ?_ ?_ hr
      · have hput := RingHolds.of_ringPut h hb
        rw [← hip] at hput
        exact hput.congr rfl fun _ _ => rfl
      · have : (consume 1 (ringPut b s)).ip.toNat = s.ip.toNat + 1 := hip
        rw [this]
        simp only [consume_inLen, ringPut_inLen]
        omega
    · cases hr

theorem EncRing.of_encPassed (h : EncRing s) (hp : EncPassed s t) : EncRing t := by
  obtain ⟨n, u, v, hu, hn, hring, hclose⟩ := hp
  have hfound : EncRing (findMatch (lookAhead s) s) := h.congr rfl
  exact ((hfound.congr hu.inputSide).of_ringPutInput hn hring).congr (closeIfFull_inputSide hclose)

/-! ## The decoder of format A -/

/-- The ring invariant of the decoder: it has emitted OUT up to OP. -/
def DecRing (s : State) : Prop := RingHolds s s.op.toNat (readOut s)

/-- RING, OUT and their cursors. -/
def decodedSide (s : State) : Config × Memory × Cursor × Memory × Size := (s.cfg, s.ring, s.wr, s.out, s.op)

theorem DecRing.congr (h : DecRing s) (e : decodedSide t = decodedSide s) : DecRing t := by
  simp only [decodedSide, Prod.mk.injEq] at e
  obtain ⟨hcfg, hring, hwr, hout, hop⟩ := e
  rw [DecRing, hop]
  exact RingHolds.congr h (by simp [ringSide, hcfg, hring, hwr]) fun a _ => readOut_congr hout a

/-- A byte appended to OUT and put into the ring keeps the decoder's ring invariant. -/
theorem DecRing.of_putOut_ringPut {b : Byte} (h : DecRing s) (hp : putOut b s = .go () t) :
    DecRing (ringPut b t) := by
  obtain ⟨hlt, rfl⟩ := putOut_go hp
  have happend : RingHolds (writeOut s.op.toNat b s) s.op.toNat (readOut (writeOut s.op.toNat b s)) :=
    RingHolds.congr h rfl fun a ha => readOut_writeOut_other b s (Nat.ne_of_lt ha)
  have hput := happend.of_ringPut (readOut_writeOut_same _ b s)
  rw [← succ_toNat_of_lt hlt] at hput
  exact hput.congr rfl fun _ _ => rfl

theorem DecRing.of_copyA {n : Nat} (h : DecRing s) (hc : copyA n s = .go () t) : DecRing t := by
  induction n generalizing s with
  | zero => cases hc; exact h
  | succ n ih =>
    obtain ⟨_, u, hu, hrest⟩ := bind_eq_go.1 hc
    refine ih ?_ hrest
    exact (h.of_putOut_ringPut hu).congr rfl

/-- The format A tokens of a stream. -/
theorem decodeTokenA_ok {c : Config} {f : Bool} {bs rest : List Byte} {i : Instr}
    (h : decodeTokenA c f bs = .ok (i, rest)) : (∃ b, i = .aLit b) ∨ ∃ hi l dLo, i = .aMatch hi l dLo := by
  unfold decodeTokenA at h
  split at h
  · cases h
  · split at h
    · cases h; exact .inl ⟨_, rfl⟩
    · split at h <;> cases h
      exact .inr ⟨_, _, _, rfl⟩

/-- Pseudocode of a running command that keeps the decoder's ring invariant where it goes on. -/
theorem decRing_of_works {α : Type} {s₀ : State} {x : Flow α} (hx : x.Works s₀)
    (hgo : ∀ a t, x = .go a t → DecRing t) (h : x.result = .next t) (hb : t.status = .busy) : DecRing t := by
  rcases hx.result h with ⟨a, hxa, -⟩ | hf
  · exact hgo a t hxa
  · rw [hf.status] at hb; cases hb

theorem DecRing.of_runToken {f : Bool} (h : DecRing s) (hs : runToken (.tokenA f) s = .next t)
    (hb : t.status = .busy) : DecRing t := by
  unfold runToken at hs
  split at hs
  · next i rest hd =>
    rcases decodeTokenA_ok hd with ⟨b, rfl⟩ | ⟨hi, l, dLo, rfl⟩
    · have hc : DecRing (consume 1 s) := h.congr rfl
      refine decRing_of_works (putOut_ringPut_works rfl) (fun _ u hu => ?_) hs hb
      obtain ⟨_, v, hv, hu'⟩ := bind_eq_go.1 hu
      cases hu'
      exact hc.of_putOut_ringPut hv
    · have hset : DecRing (setMatchA hi l dLo (consume 2 s)) := h.congr rfl
      exact decRing_of_works (copyA_works rfl) (fun _ u hu => hset.of_copyA hu) hs hb
  · rw [(missingByte_moved rfl t hs).status] at hb; cases hb

theorem DecRing.of_decATurn (h : DecRing s) (hs : decATurn s = .next t) (hb : t.status = .busy) : DecRing t := by
  unfold decATurn at hs
  split at hs
  · cases hx : flagrAGet s with
    | go f u =>
      rw [hx] at hs
      refine DecRing.of_runToken (h.congr ?_) hs hb
      rcases flagrAGet_go hx with ⟨-, e⟩ | ⟨-, e⟩ <;> rw [e] <;> rfl
    | halt r =>
      have hw := flagrAGet_works (Working.refl s)
      rw [hx] at hs hw
      rw [(hw t hs).status] at hb; cases hb
  · cases hs; cases hb

/-! ## The step -/

/-- START begins the ring invariant with nothing emitted (spec 10 R51, R52). -/
theorem StartedFrom.ringInv (h : StartedFrom s t) : RingInv t := by
  intro _
  cases h with
  | encA ho hcap =>
    have hopsel : (encStart s).opsel = 1 := ho
    exact ⟨fun _ => ringHolds_of_nil rfl rfl, fun h2 => absurd h2 (by simp [hopsel])⟩
  | decA ho =>
    have hopsel : (decAStart s).opsel = 2 := ho
    exact ⟨fun h1 => absurd h1 (by simp [hopsel]), fun _ => ringHolds_of_nil rfl rfl⟩
  | decB ho =>
    have hopsel : (decBStart s).opsel = 3 := ho
    exact ⟨fun h1 => absurd h1 (by simp [hopsel]), fun h2 => absurd h2 (by simp [hopsel])⟩

theorem status_of_resultSide (e : resultSide t = resultSide s) : t.status = s.status := by
  simp only [resultSide, Prod.mk.injEq] at e
  obtain ⟨-, -, -, hstatus, -⟩ := e
  exact hstatus

/-- After a move of the host a command runs only if it was started. -/
theorem HostMovedFrom.started_of_busy (h : HostMovedFrom s t) (hs : s.status ≠ .busy) (hb : t.status = .busy) :
    StartedFrom s t := by
  cases h with
  | started h => exact h
  | kept e _ => exact absurd (status_of_resultSide e ▸ hb) hs
  | placed e _ _ _ => exact absurd (status_of_resultSide e ▸ hb) hs
  | raised f u _ _ q e => rw [e] at hb; cases hb
  | reset e => rw [e] at hb; cases hb

/-- A step of a running command to a running command keeps the ring invariant of its format. -/
theorem RingInv.of_engineTurn (h : RingInv s) (hsb : s.status = .busy) (hs : engineTurn s = .next t)
    (hw : Working s t) : RingInv t := by
  intro hb
  obtain ⟨henc, hdec⟩ := h hsb
  unfold engineTurn at hs
  refine ⟨fun h1 => ?_, fun h2 => ?_⟩
  · have ho : s.opsel = 1 := hw.opsel ▸ h1
    rw [if_pos ho] at hs
    rcases encTurn_next hs with rfl | hf | ⟨-, hp⟩
    · cases hb
    · rw [hf.status] at hb; cases hb
    · exact EncRing.of_encPassed (henc ho) hp
  · have ho : s.opsel = 2 := hw.opsel ▸ h2
    rw [if_neg (by simp [ho]), if_pos ho] at hs
    exact DecRing.of_decATurn (hdec ho) hs hb

/-- Settles O47: each byte is emitted and put into the ring together, which moves every byte of the history one
position back (`RingHolds.of_ringPut`); START begins with nothing emitted. -/
theorem stepKeepsRingInv : Obligations.StepKeepsRingInv := by
  unfold Obligations.StepKeepsRingInv
  intro s t h hs hb
  by_cases hsb : s.status = .busy
  · have hw : Working s t := (step_moved hsb t hs).working_of_busy hb
    rw [step, machineStep, if_pos hsb] at hs
    exact h.of_engineTurn hsb hs hw hb
  · rcases step_hostMoved hsb hs with rfl | ⟨a, q, -, hm⟩
    · exact h hb
    · exact (hm.started_of_busy hsb hb).ringInv hb

end Sys2Proof.Machine
end

section
/-! SUPPORT. Flags packed one after another by the flag writer, and what the host's register writes and
placements do. -/

namespace Sys2Proof.Machine

variable {s t : State}

/-! ## Flags recorded one after another -/

theorem putFlags_concat (fs : List Bool) (f : Bool) (s : State) :
    putFlags (fs ++ [f]) s = flagwPut f (putFlags fs s) := by
  simp [putFlags]

/-- FLAGW_PUT writes FA_ACC and FA_CNT only (spec 42 R172). -/
theorem putFlags_frame (fs : List Bool) (s : State) :
    putFlags fs s = { s with faAcc := (putFlags fs s).faAcc, faCnt := (putFlags fs s).faCnt } := by
  induction fs using List.reverseRecOn with
  | nil => rfl
  | append_singleton fs f ih =>
    rw [putFlags_concat, ih]
    rfl

/-- The flag put last is bit 0, and the others move one bit up. -/
theorem getLsbD_pushFlag (a : BitVec 8) (f : Bool) {k : Nat} (hk : k < 8) :
    ((a <<< 1) ||| (BitVec.ofBool f).setWidth 8).getLsbD k = if k = 0 then f else a.getLsbD (k - 1) := by
  cases k with
  | zero => simp
  | succ k => simp [hk, BitVec.getLsbD_eq_getElem (show k < 8 by omega)]

/-- The writer after the flags `fs` from a cleared one: how many there are, and each in its bit. -/
theorem putFlags_packed (fs : List Bool) (hlen : fs.length ≤ 8) (hacc : s.faAcc = 0) (hcnt : s.faCnt = 0) :
    (putFlags fs s).faCnt.toNat = fs.length ∧
    (∀ j, j < fs.length → fs[j]? = some ((putFlags fs s).faAcc.getLsbD (fs.length - 1 - j))) ∧
    (putFlags fs s).faAcc.toNat < 2 ^ fs.length := by
  induction fs using List.reverseRecOn with
  | nil => simp [putFlags, hacc, hcnt]
  | append_singleton fs f ih =>
    rw [List.length_append, List.length_singleton] at hlen ⊢
    obtain ⟨ihcnt, ihbits, ihlt⟩ := ih (by omega)
    rw [putFlags_concat, flagwPut_faAcc, flagwPut_faCnt]
    refine ⟨by bv_omega, fun j hj => ?_, ?_⟩
    · rw [getLsbD_pushFlag _ _ (by omega)]
      by_cases hlast : j = fs.length
      · rw [hlast, if_pos (by omega), List.getElem?_concat_length]
      · rw [if_neg (by omega), List.getElem?_append_left (by omega), ihbits j (by omega)]
        congr 2
        omega
    · have hpow : 2 ^ fs.length ≤ 2 ^ 7 := Nat.pow_le_pow_right (by decide) (by omega)
      have := Bool.toNat_le f
      rw [toNat_pushFlag f (by omega), Nat.pow_succ]
      omega

/-- Settles O15, by induction on the flags in the order they are put. -/
theorem flagsArePackedOldestHighest : Obligations.FlagsArePackedOldestHighest := by
  unfold Obligations.FlagsArePackedOldestHighest
  intro fs s hlen hacc hcnt
  obtain ⟨hc, hbits, hlt⟩ := putFlags_packed fs hlen hacc hcnt
  exact ⟨hc, hbits, hlt, putFlags_frame fs s⟩

/-! ## The host's register writes and placements -/

/-- A host write to a status register has no effect (spec 10 R37). -/
theorem writeReg_of_ge {n : BitVec 3} (v : BitVec 32) (s : State) (h : 4 ≤ n) : writeReg n v s = s := by
  have h0 : n ≠ 0 := by rintro rfl; exact absurd h (by decide)
  have h1 : n ≠ 1 := by rintro rfl; exact absurd h (by decide)
  have h2 : n ≠ 2 := by rintro rfl; exact absurd h (by decide)
  have h3 : n ≠ 3 := by rintro rfl; exact absurd h (by decide)
  rw [writeReg, if_neg h0, if_neg h1, if_neg h2, if_neg h3]

/-- Of a value written to OPSEL the low 2 bits are read back (log 32). -/
theorem toNat_readReg_writeReg_opsel (v : BitVec 32) (s : State) :
    (readReg 0 (writeReg 0 v s)).toNat = v.toNat % 4 := by
  have hread : readReg 0 (writeReg 0 v s) = (v.setWidth 2).setWidth 32 := rfl
  rw [hread, BitVec.toNat_setWidth, BitVec.toNat_setWidth]
  omega

/-- Bytes placed in IN are read at their index, and IN beyond them is kept (spec 70 R334). -/
theorem placedIn_of_placeBytes {bs : List Byte} (h : t.inp = s.inp.placeBytes bs) : PlacedIn bs s t := by
  refine ⟨fun k hk => ?_, fun k hk => ?_⟩
  · rw [readIn_of_placeBytes h, if_pos hk]
  · rw [readIn_of_placeBytes h, if_neg (by omega)]

/-- Outside BUSY a step performs the host's oldest action (log 9). -/
theorem step_of_host {a : HostAction} {q : List HostAction} (hb : s.status ≠ .busy) (h : s.host = a :: q) :
    step s = hostAct a { s with host := q } := by
  rw [step, machineStep, if_neg hb, hostTurn, h]

/-- Outside BUSY with nothing pending the machine waits (log 9). -/
theorem step_of_no_host (hb : s.status ≠ .busy) (h : s.host = []) : step s = .next s := by
  rw [step, machineStep, if_neg hb, hostTurn, h]

/-- Settles O49: the engine's part is `step_moved`, that a running command holds the control registers and IN;
the host's is what its writes and placements do, each performed by `step_of_host`. -/
theorem controlRegisterRules : Obligations.ControlRegisterRules := by
  unfold Obligations.ControlRegisterRules
  refine ⟨fun s t hb hs => ?_, fun n v s h => writeReg_of_ge v s h,
    fun v s => ⟨rfl, rfl, rfl, rfl, rfl, rfl, rfl, toNat_readReg_writeReg_opsel v s⟩,
    fun s q bs hb hq hlen => ?_, fun s q hb hq hlen => ?_, fun s q hb => ⟨fun n v hq => ?_, fun bs hq => ?_,
      fun b hq => ?_, step_of_no_host hb⟩⟩
  · exact (step_moved hb t hs).sameCommand.2
  · rw [step_of_host hb hq, hostAct, fillIn_of_lt hlen]
    exact ⟨_, rfl, rfl, placedIn_of_placeBytes rfl⟩
  · rw [step_of_host hb hq, hostAct, fillIn_of_lt hlen]
    refine ⟨_, rfl, rfl, ?_, placedIn_of_placeBytes rfl⟩
    exact (BitVec.toNat_ofNat _ _).trans (Nat.mod_eq_of_lt hlen)
  · rw [step_of_host hb hq, hostAct]
  · rw [step_of_host hb hq, hostAct]
  · rw [step_of_host hb hq, hostAct]

end Sys2Proof.Machine
end

section
/-! SUPPORT. The checked access primitives of spec 20, branch by branch. -/

namespace Sys2Proof.Machine

variable {s t : State}

/-! ## FETCH -/

/-- FETCH past the input (spec 20 R66). -/
theorem fetch_of_not_lt (h : ¬ s.ip < s.inLen) : fetch s = .halt (.next (raiseFault .inputUnderrun s)) := by
  rcases fetch_cases s with ⟨hlt, -⟩ | ⟨hlt, -⟩ | ⟨-, hf⟩
  · exact absurd hlt h
  · exact absurd hlt h
  · exact hf

/-- FETCH of a placed byte below IN_LEN (spec 20 R66). -/
theorem fetch_of_lt {b : Byte} (h : s.ip < s.inLen) (hb : readIn s s.ip.toNat = some b) :
    fetch s = .go b { s with ip := s.ip + 1 } := by
  rcases fetch_cases s with ⟨-, b', hb', hf⟩ | ⟨-, hnone, -⟩ | ⟨hge, -⟩
  · cases hb.symm.trans hb'
    exact hf
  · cases hb.symm.trans hnone
  · exact absurd h hge

/-- Settles O7: the two branches of FETCH's check. -/
theorem fetchChecksFirst : Obligations.FetchChecksFirst := by
  unfold Obligations.FetchChecksFirst
  exact fun s => ⟨fun h => fetch_of_not_lt (BitVec.not_lt.2 h), fun _ h hb => fetch_of_lt h hb⟩

/-! ## PUT_OUT -/

/-- A byte written at OP is one byte appended to OUT. -/
theorem outAppends_of_writeOut {v : Byte} (h : t.out = (writeOut s.op.toNat v s).out) :
    OutAppends s t 1 fun _ => some v := by
  refine ⟨fun k hk => ?_, fun a ha => ?_⟩
  · obtain rfl : k = 0 := by omega
    rw [readOut_congr h]
    exact readOut_writeOut_same _ v s
  · rw [readOut_congr h]
    exact readOut_writeOut_other v s (by omega)

/-- Settles O9: the two branches of PUT_OUT's check, and that the write at OP is the byte appended. -/
theorem putOutChecksFirst : Obligations.PutOutChecksFirst := by
  unfold Obligations.PutOutChecksFirst
  intro v s
  exact ⟨cap_of_enc, fun h => cap_of_dec (by rcases h with h | h <;> simp [h]),
    fun h => putOut_of_not_lt (BitVec.not_lt.2 h),
    fun h => ⟨_, putOut_of_lt h, rfl, outAppends_of_writeOut rfl⟩⟩

/-! ## GET_OUT -/

/-- GET_OUT at a distance beyond the output so far (spec 20 R68). -/
theorem getOut_of_lt {d : Nat} (h : s.op.toNat < d) :
    getOut d s = .halt (.next (raiseFault .backrefUnderflow s)) := by
  rcases getOut_cases d s with ⟨-, hg⟩ | ⟨hle, -⟩ | ⟨hle, -⟩
  · exact hg
  · exact absurd h (Nat.not_lt.2 hle)
  · exact absurd h (Nat.not_lt.2 hle)

/-- GET_OUT of a written byte within the output so far (spec 20 R68). -/
theorem getOut_of_le {d : Nat} {b : Byte} (h : d ≤ s.op.toNat) (hb : readOut s (s.op.toNat - d) = some b) :
    getOut d s = .go b s := by
  rcases getOut_cases d s with ⟨hlt, -⟩ | ⟨-, b', hb', hg⟩ | ⟨-, hnone, -⟩
  · exact absurd hlt (Nat.not_lt.2 h)
  · cases hb.symm.trans hb'
    exact hg
  · cases hb.symm.trans hnone

/-- Settles O10: the two branches of GET_OUT's check; that the distance is at least 1 is not needed. -/
theorem getOutChecksFirst : Obligations.GetOutChecksFirst := by
  unfold Obligations.GetOutChecksFirst
  exact fun d s => ⟨getOut_of_lt, fun _ _ hle hb => getOut_of_le hle hb⟩

end Sys2Proof.Machine
end

section
/-! SUPPORT. The encoder and the decoder of spec 30 undo one another, space by space. -/

namespace Sys2Proof

variable {c : Config} {i : Instr} {bs rest : List Byte}

/-! ## Fields of a byte and bytes of a word -/

/-- Fields laid side by side, as a number: the first above the second. -/
theorem toNat_append_eq {m n : Nat} (x : BitVec m) (y : BitVec n) : (x ++ y).toNat = x.toNat * 2 ^ n + y.toNat := by
  rw [BitVec.toNat_append, ← Nat.shiftLeft_add_eq_or_of_lt y.isLt, Nat.shiftLeft_eq]

@[simp] theorem highNibble_append (x y : BitVec 4) : (x ++ y).extractLsb' 4 4 = x := BitVec.extractLsb'_append_eq_left

@[simp] theorem lowNibble_append (x y : BitVec 4) : (x ++ y).extractLsb' 0 4 = y := BitVec.extractLsb'_append_eq_right

@[simp] theorem append_nibbles (b : Byte) : b.extractLsb' 4 4 ++ b.extractLsb' 0 4 = b := by
  apply BitVec.eq_of_toNat_eq
  simp only [toNat_append_eq, BitVec.extractLsb'_toNat, Nat.shiftRight_eq_div_pow]
  omega

@[simp] theorem highNibble_longControl (sel h : BitVec 4) : (longControl sel h).extractLsb' 4 4 = sel :=
  highNibble_append sel h

@[simp] theorem lowNibble_longControl (sel h : BitVec 4) : (longControl sel h).extractLsb' 0 4 = h :=
  lowNibble_append sel h

/-- A control byte is its selector and its high distance bits. -/
@[simp] theorem longControl_nibbles (b : Byte) : longControl (b.extractLsb' 4 4) (b.extractLsb' 0 4) = b :=
  append_nibbles b

/-- `DIST = H*256 + D_lo` (spec 30 R105). -/
theorem toNat_distField (h : BitVec 4) (dLo : Byte) : (distField h dLo).toNat = h.toNat * 256 + dLo.toNat :=
  toNat_append_eq h dLo

/-- A distance field is zero when both its parts are. -/
theorem distField_eq_zero_iff (h : BitVec 4) (dLo : Byte) : distField h dLo = 0 ↔ h = 0 ∧ dLo = 0 := by
  simp only [← BitVec.toNat_inj, toNat_distField, BitVec.ofNat_eq_ofNat, BitVec.toNat_ofNat, Nat.zero_mod]
  omega

theorem toNat_be32 (b0 b1 b2 b3 : Byte) :
    (be32 b0 b1 b2 b3).toNat = ((b0.toNat * 256 + b1.toNat) * 256 + b2.toNat) * 256 + b3.toNat := by
  simp only [be32, toNat_append_eq, Nat.reducePow]

/-- A word is its four bytes, most significant first. -/
@[simp] theorem be32_extract (v : Size) :
    be32 (v.extractLsb' 24 8) (v.extractLsb' 16 8) (v.extractLsb' 8 8) (v.extractLsb' 0 8) = v := by
  apply BitVec.eq_of_toNat_eq
  simp only [toNat_be32, BitVec.extractLsb'_toNat, Nat.shiftRight_eq_div_pow]
  omega

@[simp] theorem be32Bytes_be32 (b0 b1 b2 b3 : Byte) : be32Bytes (be32 b0 b1 b2 b3) = [b0, b1, b2, b3] := by
  simp only [be32Bytes, List.cons.injEq, and_true, ← BitVec.toNat_inj, toNat_be32, BitVec.extractLsb'_toNat,
    Nat.shiftRight_eq_div_pow]
  omega

/-- Little-endian is big-endian read backwards (spec 00 section 6). -/
theorem le32_eq_be32 (b0 b1 b2 b3 : Byte) : le32 b0 b1 b2 b3 = be32 b3 b2 b1 b0 := rfl

theorem le32Bytes_eq_reverse (v : Size) : le32Bytes v = (be32Bytes v).reverse := rfl

@[simp] theorem le32Bytes_le32 (b0 b1 b2 b3 : Byte) : le32Bytes (le32 b0 b1 b2 b3) = [b0, b1, b2, b3] := by
  simp [le32_eq_be32, le32Bytes_eq_reverse]

@[simp] theorem le32_extract (v : Size) :
    le32 (v.extractLsb' 0 8) (v.extractLsb' 8 8) (v.extractLsb' 16 8) (v.extractLsb' 24 8) = v :=
  be32_extract v

@[simp] theorem be64Bytes_be64 (b0 b1 b2 b3 b4 b5 b6 b7 : Byte) :
    be64Bytes (be64 b0 b1 b2 b3 b4 b5 b6 b7) = [b0, b1, b2, b3, b4, b5, b6, b7] := by
  have hhi : (be64 b0 b1 b2 b3 b4 b5 b6 b7).extractLsb' 32 32 = be32 b0 b1 b2 b3 := BitVec.extractLsb'_append_eq_left
  have hlo : (be64 b0 b1 b2 b3 b4 b5 b6 b7).extractLsb' 0 32 = be32 b4 b5 b6 b7 := BitVec.extractLsb'_append_eq_right
  simp [be64Bytes, hhi, hlo]

/-- A long word is the bytes of its two halves. -/
@[simp] theorem be64_extract (v : BitVec 64) :
    be64 ((v.extractLsb' 32 32).extractLsb' 24 8) ((v.extractLsb' 32 32).extractLsb' 16 8)
      ((v.extractLsb' 32 32).extractLsb' 8 8) ((v.extractLsb' 32 32).extractLsb' 0 8)
      ((v.extractLsb' 0 32).extractLsb' 24 8) ((v.extractLsb' 0 32).extractLsb' 16 8)
      ((v.extractLsb' 0 32).extractLsb' 8 8) ((v.extractLsb' 0 32).extractLsb' 0 8) = v := by
  rw [be64, be32_extract, be32_extract]
  apply BitVec.eq_of_toNat_eq
  simp only [toNat_append_eq, BitVec.extractLsb'_toNat, Nat.shiftRight_eq_div_pow]
  omega

/-! ## The constraints of the rows -/

theorem wf_bShort {ctl : Byte} : (Instr.bShort ctl).wf c = true ↔ c.bShortMin ≤ ctl := decide_eq_true_iff

theorem wf_bEnd {sel : BitVec 4} : (Instr.bEnd sel).wf c = true ↔ longControl sel 0 < c.bShortMin :=
  decide_eq_true_iff

theorem wf_bLong {sel h : BitVec 4} {dLo : Byte} : (Instr.bLong sel h dLo).wf c = true ↔
    longControl sel h < c.bShortMin ∧ sel ≠ c.bSuperCode ∧ distField h dLo ≠ 0 := by
  simp only [Instr.wf, Bool.and_eq_true, decide_eq_true_eq, and_assoc]

theorem wf_bSuper {h : BitVec 4} {dLo e : Byte} : (Instr.bSuper h dLo e).wf c = true ↔
    longControl c.bSuperCode h < c.bShortMin ∧ distField h dLo ≠ 0 := by
  simp only [Instr.wf, Bool.and_eq_true, decide_eq_true_eq]

/-! ## Decoding an encoding -/

/-- The distance field of END alone is zero, so the long shape decodes its own three rows (spec 30 R101 to R104). -/
theorem decodeLongB_end (sel : BitVec 4) : decodeLongB c (longControl sel 0) 0 rest = .ok (.bEnd sel, rest) := by
  have hd : distField 0 0 = 0 := rfl
  simp only [decodeLongB, lowNibble_longControl, highNibble_longControl, if_pos hd]

theorem decodeLongB_super {h : BitVec 4} {dLo e : Byte} (hd : distField h dLo ≠ 0) :
    decodeLongB c (longControl c.bSuperCode h) dLo (e :: rest) = .ok (.bSuper h dLo e, rest) := by
  simp only [decodeLongB, lowNibble_longControl, highNibble_longControl, if_neg hd, if_true]

theorem decodeLongB_long {sel h : BitVec 4} {dLo : Byte} (hsel : sel ≠ c.bSuperCode) (hd : distField h dLo ≠ 0) :
    decodeLongB c (longControl sel h) dLo rest = .ok (.bLong sel h dLo, rest) := by
  simp only [decodeLongB, lowNibble_longControl, highNibble_longControl, if_neg hd, if_neg hsel]

theorem decodeTokenB_short {ctl : Byte} (h : c.bShortMin ≤ ctl) :
    decodeTokenB c c.bMatchFlag (ctl :: rest) = .ok (.bShort ctl, rest) := by
  simp [decodeTokenB, h]

/-- A control byte below `B_SHORT_MIN` begins the long shape (spec 30 R100, R101). -/
theorem decodeTokenB_of_lt {ctl lo : Byte} (h : ctl < c.bShortMin) :
    decodeTokenB c c.bMatchFlag (ctl :: lo :: rest) = decodeLongB c ctl lo rest := by
  simp [decodeTokenB, BitVec.not_le.2 h]

theorem decodeHeaderA_encode (cs os : Size) :
    decodeHeaderA c (encode c (.hdrA cs os) ++ rest) = .ok (.hdrA cs os, rest) := by
  simp only [encode, be64Bytes, be32Bytes, le32Bytes, decodeHeaderA, List.cons_append, List.nil_append,
    be64_extract, le32_extract, if_true]

theorem decodeHeaderB_encode (ds : Size) :
    decodeHeaderB c (encode c (.hdrB ds) ++ rest) = .ok (.hdrB ds, rest) := by
  simp [encode, be32Bytes, decodeHeaderB]

/-- Settles O2, row by row: the constraint of each row is what its decoder branch tests. -/
theorem decodeOfEncode : Obligations.DecodeOfEncode := by
  unfold Obligations.DecodeOfEncode
  intro c i rest hwf
  cases i with
  | aLit b => simp [spaceOf, encode, decode, decodeTokenA]
  | aMatch h l dLo => simp [spaceOf, encode, decode, decodeTokenA]
  | bLit b => simp [spaceOf, encode, decode, decodeTokenB]
  | bShort ctl => exact decodeTokenB_short (wf_bShort.1 hwf)
  | bLong sel h dLo =>
    obtain ⟨hctl, hsel, hdist⟩ := wf_bLong.1 hwf
    exact (decodeTokenB_of_lt hctl).trans (decodeLongB_long hsel hdist)
  | bSuper h dLo e =>
    obtain ⟨hctl, hdist⟩ := wf_bSuper.1 hwf
    exact (decodeTokenB_of_lt hctl).trans (decodeLongB_super hdist)
  | bEnd sel => exact (decodeTokenB_of_lt (wf_bEnd.1 hwf)).trans (decodeLongB_end sel)
  | encA => rfl
  | decA => rfl
  | decB => rfl
  | noCommand => rfl
  | hdrA cs os => exact decodeHeaderA_encode cs os
  | hdrB ds => exact decodeHeaderB_encode ds

/-! ## What decodes is an encoding -/

/-- `bs` is the encoding, in the space `sp`, of the well-formed instruction `i`, and then `rest`. -/
def EncodedIn (c : Config) (sp : Space) (bs : List Byte) (i : Instr) (rest : List Byte) : Prop :=
  i.wf c = true ∧ sp = spaceOf c i ∧ bs = encode c i ++ rest

/-- A command's encoding is its code as a byte (spec 30 R115, R121). -/
theorem encodedIn_commandOf (o : BitVec 2) : EncodedIn c .command (o.setWidth 8 :: rest) (commandOf o) rest := by
  rcases Machine.commandOf_cases o with ⟨rfl, e⟩ | ⟨rfl, e⟩ | ⟨rfl, e⟩ | ⟨rfl, e⟩
  all_goals
    rw [e]
    exact ⟨rfl, rfl, rfl⟩

theorem encodedIn_of_command (h : decode c .command bs = .ok (i, rest)) : EncodedIn c .command bs i rest := by
  cases bs with
  | nil => cases h
  | cons b r =>
    simp only [decode] at h
    split at h
    · next hb =>
      cases h
      have hwidth : (b.setWidth 2).setWidth 8 = b := by bv_omega
      have henc := encodedIn_commandOf (c := c) (rest := rest) (b.setWidth 2)
      rwa [hwidth] at henc
    · cases h

theorem encodedIn_of_tokenA {f : Bool} (h : decodeTokenA c f bs = .ok (i, rest)) :
    EncodedIn c (.tokenA f) bs i rest := by
  unfold decodeTokenA at h
  split at h
  · cases h
  · split at h
    · next hf =>
      cases h
      exact ⟨rfl, congrArg Space.tokenA hf, rfl⟩
    · next hf =>
      split at h <;> cases h
      exact ⟨rfl, congrArg Space.tokenA (Bool.eq_not.2 hf), congrArg (· :: _ :: rest) (append_nibbles _).symm⟩

theorem encodedIn_of_longB {ctl lo : Byte} {r : List Byte} (hctl : ctl < c.bShortMin)
    (h : decodeLongB c ctl lo r = .ok (i, rest)) : EncodedIn c (.tokenB c.bMatchFlag) (ctl :: lo :: r) i rest := by
  unfold decodeLongB at h
  split at h
  · next hd =>
    obtain ⟨hh, rfl⟩ := (distField_eq_zero_iff _ _).1 hd
    cases h
    have hc : longControl (ctl.extractLsb' 4 4) 0 = ctl := hh ▸ longControl_nibbles ctl
    exact ⟨wf_bEnd.2 (hc.symm ▸ hctl), rfl, congrArg (· :: 0 :: rest) hc.symm⟩
  · next hd =>
    split at h
    · next hsel =>
      split at h <;> cases h
      have hc : longControl c.bSuperCode (ctl.extractLsb' 0 4) = ctl := hsel ▸ longControl_nibbles ctl
      exact ⟨wf_bSuper.2 ⟨hc.symm ▸ hctl, hd⟩, rfl, congrArg (· :: lo :: _ :: rest) hc.symm⟩
    · next hsel =>
      cases h
      have hc := longControl_nibbles ctl
      exact ⟨wf_bLong.2 ⟨hc.symm ▸ hctl, hsel, hd⟩, rfl, congrArg (· :: lo :: rest) hc.symm⟩

theorem encodedIn_of_tokenB {f : Bool} (h : decodeTokenB c f bs = .ok (i, rest)) :
    EncodedIn c (.tokenB f) bs i rest := by
  unfold decodeTokenB at h
  split at h
  · cases h
  · split at h
    · next hf =>
      cases h
      exact ⟨rfl, congrArg Space.tokenB (Bool.eq_not.2 hf), rfl⟩
    · next hf =>
      obtain rfl := not_not.1 hf
      split at h
      · next hmin =>
        cases h
        exact ⟨wf_bShort.2 hmin, rfl, rfl⟩
      · next hmin =>
        split at h
        · cases h
        · exact encodedIn_of_longB (BitVec.not_le.1 hmin) h

theorem encodedIn_of_headerA (h : decodeHeaderA c bs = .ok (i, rest)) : EncodedIn c .headerA bs i rest := by
  unfold decodeHeaderA at h
  split at h
  · split at h
    · next hmagic =>
      cases h
      exact ⟨rfl, rfl, by simp [encode, ← hmagic]⟩
    · cases h
  · cases h

theorem encodedIn_of_headerB (h : decodeHeaderB c bs = .ok (i, rest)) : EncodedIn c .headerB bs i rest := by
  unfold decodeHeaderB at h
  split at h
  · split at h
    · next hmagic =>
      cases h
      exact ⟨rfl, rfl, by simp [encode, ← hmagic]⟩
    · cases h
  · cases h

/-- Two bytes are enough for a token of format A (spec 30 R118). -/
theorem decodeTokenA_total (c : Config) (f : Bool) (b1 b2 : Byte) (r : List Byte) :
    ∃ i r', decodeTokenA c f (b1 :: b2 :: r) = .ok (i, r') := by
  simp only [decodeTokenA]
  split <;> exact ⟨_, _, rfl⟩

/-- A third byte is enough for every row of the long shape. -/
theorem decodeLongB_total (c : Config) (ctl lo e : Byte) (r : List Byte) :
    ∃ i r', decodeLongB c ctl lo (e :: r) = .ok (i, r') := by
  unfold decodeLongB
  split
  · exact ⟨_, _, rfl⟩
  · split <;> exact ⟨_, _, rfl⟩

/-- Three bytes are enough for a token of format B (spec 30 R119). -/
theorem decodeTokenB_total (c : Config) (f : Bool) (b1 b2 b3 : Byte) (r : List Byte) :
    ∃ i r', decodeTokenB c f (b1 :: b2 :: b3 :: r) = .ok (i, r') := by
  simp only [decodeTokenB]
  split
  · exact ⟨_, _, rfl⟩
  · split
    · exact ⟨_, _, rfl⟩
    · exact decodeLongB_total c b1 b2 b3 r

/-- Settles O3, space by space. -/
theorem decodedBytesAreAnEncoding : Obligations.DecodedBytesAreAnEncoding := by
  unfold Obligations.DecodedBytesAreAnEncoding
  refine ⟨fun c sp bs rest i h => ?_, decodeTokenA_total, decodeTokenB_total⟩
  cases sp with
  | command => exact encodedIn_of_command h
  | tokenA f => exact encodedIn_of_tokenA h
  | tokenB f => exact encodedIn_of_tokenB h
  | headerA => exact encodedIn_of_headerA h
  | headerB => exact encodedIn_of_headerB h

end Sys2Proof
end

section
/-! SUPPORT. Operand assembly and the encoder's packing (spec 30 R105, R106), and the words of spec 30 decoded. -/

namespace Sys2Proof.Machine

variable {c : Config}

/-! ## Written-out words -/

/-- Settles O1: each word is evaluated. -/
theorem writtenWordsDecode : Obligations.WrittenWordsDecode := by
  unfold Obligations.WrittenWordsDecode
  exact ⟨rfl, rfl, rfl, rfl, rfl, rfl, rfl, rfl, rfl, rfl, rfl, rfl, rfl⟩

/-! ## Operand assembly -/

/-- A format A distance is its field, unsigned. -/
theorem toNat_aDist (h : BitVec 4) (dLo : Byte) : (aDist h dLo).toNat = h.toNat * 256 + dLo.toNat := by
  rw [aDist, BitVec.toNat_setWidth_of_le (by decide), toNat_distField]

theorem toNat_bLongDist (h : BitVec 4) (dLo : Byte) : (bLongDist h dLo).toNat = h.toNat * 256 + dLo.toNat :=
  toNat_aDist h dLo

theorem toNat_bShortDist (b : Byte) : (bShortDist b).toNat = 256 - b.toNat := by
  rw [bShortDist, BitVec.toNat_ofNat]
  omega

/-- LEN holds every length below 512 (log 28). -/
theorem toNat_ofNat_nine {n : Nat} (h : n < 512) : (BitVec.ofNat 9 n).toNat = n := Nat.mod_eq_of_lt h

/-- In the range of `Config.wf` every length of R105 fits LEN. -/
theorem lengths_fit (hc : c.wf = true) :
    c.aMinMatch + 15 < 512 ∧ c.bShortLen < 512 ∧ c.bMinLen + 15 < 512 ∧ c.bMinSuperLen + 255 < 512 := by
  simp only [Config.wf, Bool.and_eq_true, decide_eq_true_eq] at hc
  omega

theorem toNat_aLen (hc : c.wf = true) (l : BitVec 4) : (aLen c l).toNat = l.toNat + c.aMinMatch :=
  toNat_ofNat_nine (by have := lengths_fit hc; omega)

theorem toNat_bShortLength (hc : c.wf = true) : (bShortLength c).toNat = c.bShortLen :=
  toNat_ofNat_nine (by have := lengths_fit hc; omega)

theorem toNat_bLongLength (hc : c.wf = true) (sel : BitVec 4) : (bLongLength c sel).toNat = sel.toNat + c.bMinLen :=
  toNat_ofNat_nine (by have := lengths_fit hc; omega)

theorem toNat_bSuperLength (hc : c.wf = true) (e : Byte) : (bSuperLength c e).toNat = c.bMinSuperLen + e.toNat :=
  toNat_ofNat_nine (by have := lengths_fit hc; omega)

/-- Settles O5, operand by operand. -/
theorem operandAssembly : Obligations.OperandAssembly := by
  unfold Obligations.OperandAssembly
  refine ⟨fun c hc sel h l lo e b len => ?_, rfl, rfl, rfl, rfl, rfl⟩
  exact ⟨toNat_aDist h lo, toNat_aLen hc l, toNat_bShortDist b, toNat_bShortLength hc, toNat_bLongDist h lo,
    toNat_bLongLength hc sel, toNat_bSuperLength hc e, rfl⟩

/-! ## The encoder's packing -/

/-- The first match byte as two nibbles: distance bits 11 to 8 over the length field. -/
theorem toNat_encMatchByte1 {d l : Nat} (hl : l ≤ c.aMinMatch + 15) :
    (encMatchByte1 c d l).toNat = (d / 256 % 16) * 16 + (l - c.aMinMatch) := by
  have hhigh : (BitVec.ofNat 8 (d >>> 8) &&& 0x0F).toNat = d / 256 % 16 := by
    rw [BitVec.toNat_and, BitVec.toNat_ofNat, Nat.shiftRight_eq_div_pow, show (0x0F : Byte).toNat = 2 ^ 4 - 1 from rfl,
      Nat.and_two_pow_sub_one_eq_mod]
    omega
  have hshift : ((BitVec.ofNat 8 (d >>> 8) &&& 0x0F) <<< 4).toNat = (d / 256 % 16) <<< 4 := by
    rw [BitVec.toNat_shiftLeft, hhigh, Nat.shiftLeft_eq]
    omega
  have hlow : (BitVec.ofNat 8 (l - c.aMinMatch)).toNat = l - c.aMinMatch := Nat.mod_eq_of_lt (by omega)
  rw [encMatchByte1, BitVec.toNat_or, hshift, hlow, ← Nat.shiftLeft_add_eq_or_of_lt (by omega), Nat.shiftLeft_eq]

/-- Settles O6: the two bytes as numbers, from which the fields and the operands follow. -/
theorem encoderPacking : Obligations.EncoderPacking := by
  unfold Obligations.EncoderPacking
  intro c d l h lo4 dLo hc hd1 hd hl1 hl hb1 hb2
  have hbyte1 : (h ++ lo4).toNat = (d / 256 % 16) * 16 + (l - c.aMinMatch) := hb1 ▸ toNat_encMatchByte1 hl
  have hbyte2 : dLo.toNat = d % 256 := hb2 ▸ BitVec.toNat_ofNat d 8
  have hfields := toNat_append_eq h lo4
  have hdist := toNat_aDist h dLo
  refine ⟨hbyte1, hbyte2, ?_, ?_⟩
  · simp only [aDistance, ← BitVec.toNat_inj, BitVec.ofNat_eq_ofNat, BitVec.toNat_ofNat, Nat.zero_mod]
    split <;> omega
  · rw [toNat_aLen hc]
    omega

end Sys2Proof.Machine
end

section
/-! SUPPORT. The flag bytes of spec 30 R91 and R97: which bit each flag of a group is, and how the readers' shifts
take the flags off. -/

namespace Sys2Proof

variable {f : Bool} {fs : List Bool}

/-! ## Packed flags -/

/-- One flag moved up `n` bits is bit `n` alone. -/
theorem getLsbD_flag_shiftLeft {n j : Nat} (hj : j < 8) :
    ((BitVec.ofBool f).setWidth 8 <<< n).getLsbD j = (decide (j = n) && f) := by
  by_cases h : j = n
  · simp [h ▸ hj, h]
  · by_cases hlt : j < n
    · simp [h, hlt]
    · have hne : j - n ≠ 0 := by omega
      simp [h, hne]

theorem getLsbD_packDown_of_ge {n j : Nat} (h : n ≤ j) : (packDown n fs).getLsbD j = false := by
  by_cases hj : j < 8
  · induction n generalizing fs with
    | zero => simp [packDown]
    | succ n ih =>
      cases fs with
      | nil => simp [packDown]
      | cons f fs =>
        have hne : j ≠ n := by omega
        simp only [packDown, BitVec.getLsbD_or, getLsbD_flag_shiftLeft hj, hne, ih (Nat.le_of_lt h), decide_false,
          Bool.false_and, Bool.or_false]
  · exact BitVec.getLsbD_of_ge _ _ (by omega)

/-- Of flags packed from bit `n - 1` down, flag `k` is bit `n - 1 - k`. -/
theorem getElem?_eq_packDown {n k : Nat} (hn : n ≤ 8) (hkn : k < n) (hk : k < fs.length) :
    fs[k]? = some ((packDown n fs).getLsbD (n - 1 - k)) := by
  induction n generalizing fs k with
  | zero => omega
  | succ n ih =>
    cases fs with
    | nil => simp at hk
    | cons f fs =>
      rw [packDown, BitVec.getLsbD_or, getLsbD_flag_shiftLeft (by omega)]
      cases k with
      | zero => simp [getLsbD_packDown_of_ge (Nat.le_refl n)]
      | succ k =>
        have hbit : n + 1 - 1 - (k + 1) = n - 1 - k := by omega
        have hne : n - 1 - k ≠ n := by omega
        rw [List.getElem?_cons_succ, ih (by omega) (by omega) (by simpa using hk), hbit]
        simp [hne]

theorem getLsbD_packUp_of_lt {k j : Nat} (h : j < k) : (packUp k fs).getLsbD j = false := by
  by_cases hj : j < 8
  · induction fs generalizing k with
    | nil => simp [packUp]
    | cons f fs ih =>
      have hne : j ≠ k := by omega
      simp only [packUp, BitVec.getLsbD_or, getLsbD_flag_shiftLeft hj, hne, ih (Nat.lt_succ_of_lt h), decide_false,
        Bool.false_and, Bool.or_false]
  · exact BitVec.getLsbD_of_ge _ _ (by omega)

/-- Of flags packed from bit `n` up, flag `k` is bit `n + k`. -/
theorem getElem?_eq_packUp {n k : Nat} (hn : n + k < 8) (hk : k < fs.length) :
    fs[k]? = some ((packUp n fs).getLsbD (n + k)) := by
  induction fs generalizing n k with
  | nil => simp at hk
  | cons f fs ih =>
    rw [packUp, BitVec.getLsbD_or, getLsbD_flag_shiftLeft hn]
    cases k with
    | zero => simp [getLsbD_packUp_of_lt (Nat.lt_succ_self n)]
    | succ k =>
      have hbit : n + (k + 1) = n + 1 + k := by omega
      have hne : n + 1 + k ≠ n := by omega
      rw [hbit] at hn ⊢
      rw [List.getElem?_cons_succ, ih hn (by simpa using hk)]
      simp [hne]

/-- The top bits of `b`, from bit 7 down, are the flags `fs` (spec 30 R91). -/
def HighFlags (fs : List Bool) (b : Byte) : Prop :=
  fs.length ≤ 8 ∧ ∀ k, k < fs.length → fs[k]? = some (b.getLsbD (7 - k))

theorem highFlags_packDown (h : fs.length ≤ 8) : HighFlags fs (packDown 8 fs) :=
  ⟨h, fun _ hk => getElem?_eq_packDown (Nat.le_refl 8) (by omega) hk⟩

/-- The first of the flags is the top bit, and a left shift drops it. -/
theorem HighFlags.of_cons {b : Byte} (h : HighFlags (f :: fs) b) : b.msb = f ∧ HighFlags fs (b <<< 1) := by
  obtain ⟨hlen, hbits⟩ := h
  rw [List.length_cons] at hlen hbits
  have hfirst := hbits 0 (by omega)
  refine ⟨?_, by omega, fun k hk => ?_⟩
  · simpa [BitVec.msb_eq_getLsbD_last] using hfirst.symm
  · have hlater := hbits (k + 1) (by omega)
    have hbit : 7 - k - 1 = 7 - (k + 1) := by omega
    rw [List.getElem?_cons_succ] at hlater
    rw [hlater, BitVec.getLsbD_shiftLeft, hbit]
    have hk7 : 7 - k < 8 ∧ ¬ 7 - k < 1 := by omega
    simp [hk7]

/-- The low bits of `r`, from bit 0 up, are the flags `fs` (spec 30 R97). -/
def LowFlags (fs : List Bool) (r : BitVec 16) : Prop := ∀ k, k < fs.length → fs[k]? = some (r.getLsbD k)

/-- The reload constant lies above the flag byte. -/
theorem lowFlags_packUp (h : fs.length ≤ 8) : LowFlags fs (0xFF00 ||| (packUp 0 fs).setWidth 16) := by
  intro k hk
  have hreload : ∀ j, j < 8 → (0xFF00 : BitVec 16).getLsbD j = false := by decide
  have hk16 : k < 16 := by omega
  rw [BitVec.getLsbD_or, hreload k (by omega), Bool.false_or, BitVec.getLsbD_setWidth,
    getElem?_eq_packUp (n := 0) (by omega) hk]
  simp [hk16]

/-- The first of the flags is bit 0, and a right shift drops it. -/
theorem LowFlags.of_cons {r : BitVec 16} (h : LowFlags (f :: fs) r) : r.getLsbD 0 = f ∧ LowFlags fs (r >>> 1) := by
  have hfirst := h 0 (by simp)
  refine ⟨by simpa using hfirst.symm, fun k hk => ?_⟩
  have hlater := h (k + 1) (by simpa using hk)
  rw [List.getElem?_cons_succ] at hlater
  rw [hlater, BitVec.getLsbD_ushiftRight, Nat.add_comm]

end Sys2Proof
end

section
/-! SUPPORT. A decoder reads an assembled stream back (spec 30 R90 to R97, R124). The argument is the same in both
formats: `Unread` says where in IN the decoder stands, `FlagReader` says what it needs of its flag reader, and a
stream is read group by group, each group token by token. -/

namespace Sys2Proof.Machine

variable {s₀ s t : State} {i : Instr} {bs : List Byte} {get : State → Flow Bool} {sp : Bool → Space}

/-! ## The unread bytes of IN -/

/-- `s` is a state of the decoder started in `s₀`, and `bs` are the bytes of IN from IP to IN_LEN. -/
def Unread (s₀ : State) (bs : List Byte) (s : State) : Prop :=
  s.cfg = s₀.cfg ∧ s.inLen = s₀.inLen ∧ s.ip.toNat + bs.length = s₀.inLen.toNat ∧
    ∀ k, k < bs.length → readIn s (s.ip.toNat + k) = bs[k]?

theorem Unread.cfg_eq (h : Unread s₀ bs s) : s.cfg = s₀.cfg := h.1

theorem unread_of_inputIs (hin : InputIs bs s) (hlen : s.inLen.toNat = bs.length) (hip : s.ip = 0) : Unread s bs s := by
  have hip' : s.ip.toNat = 0 := congrArg BitVec.toNat hip
  refine ⟨rfl, rfl, by omega, fun k hk => ?_⟩
  rw [hip', Nat.zero_add]
  exact hin k hk

/-- Past the first of the unread bytes the others are unread. -/
theorem Unread.consume {xs : List Byte} (h : Unread s₀ (xs ++ bs) s) : Unread s₀ bs (consume xs.length s) := by
  obtain ⟨hcfg, hlen, hend, hbytes⟩ := h
  rw [List.length_append] at hend hbytes
  have hip : (Machine.consume xs.length s).ip.toNat = s.ip.toNat + xs.length := by
    rw [consume_ip, BitVec.toNat_add, BitVec.toNat_ofNat]
    omega
  refine ⟨hcfg, hlen, by omega, fun k hk => ?_⟩
  have hbyte := hbytes (xs.length + k) (by omega)
  rw [List.getElem?_append_right (by omega), Nat.add_sub_cancel_left] at hbyte
  rw [hip, Nat.add_assoc]
  exact hbyte

/-- The first of the unread bytes stands at IP, and the others follow it. -/
theorem Unread.of_cons {b : Byte} (h : Unread s₀ (b :: bs) s) :
    s.ip < s.inLen ∧ readIn s s.ip.toNat = some b ∧ Unread s₀ bs { s with ip := s.ip + 1 } := by
  have hrest : Unread s₀ bs (Machine.consume 1 s) := Unread.consume (xs := [b]) h
  obtain ⟨-, hlen, hend, hbytes⟩ := h
  rw [List.length_cons] at hend hbytes
  have hlt : s.ip < s.inLen := BitVec.lt_def.2 (by rw [hlen]; omega)
  exact ⟨hlt, hbytes 0 (by omega), hrest⟩

/-- FETCH takes the first of the unread bytes. -/
theorem Unread.fetch {b : Byte} (h : Unread s₀ (b :: bs) s) :
    fetch s = .go b { s with ip := s.ip + 1 } ∧ Unread s₀ bs { s with ip := s.ip + 1 } := by
  obtain ⟨hlt, hbyte, hrest⟩ := h.of_cons
  exact ⟨fetch_of_lt hlt hbyte, hrest⟩

/-- Looking at IN shows the first of the unread bytes. -/
theorem Unread.inRun_eq_take (h : Unread s₀ bs s) (n : Nat) : inRun s n s.ip.toNat = bs.take n := by
  induction n generalizing s bs with
  | zero => rfl
  | succ n ih =>
    cases bs with
    | nil =>
      obtain ⟨-, hlen, hend, -⟩ := h
      exact inRun_of_ge (by rw [hlen]; exact hend.ge)
    | cons b bs =>
      obtain ⟨hlt, hbyte, hrest⟩ := h.of_cons
      have htake := ih hrest
      rw [succ_toNat_of_lt hlt, inRun_congr (s := s) (t := { s with ip := s.ip + 1 }) rfl rfl] at htake
      rw [inRun_cons hlt hbyte, htake, List.take_succ_cons]

/-! ## Tokens -/

/-- `i` is a well-formed token of at most 3 bytes, of the stream in which `sp` is the space of a flag. -/
def StreamToken (c : Config) (sp : Bool → Space) (i : Instr) : Prop :=
  i.wf c = true ∧ spaceOf c i = sp (flagBit c i) ∧ (encode c i).length ≤ 3

/-- A token is decoded from the first three unread bytes (spec 30 R120). -/
theorem Unread.decode_token (h : Unread s₀ (encode s₀.cfg i ++ bs) s) (hi : StreamToken s₀.cfg sp i) :
    decode s.cfg (sp (flagBit s₀.cfg i)) (inRun s 3 s.ip.toNat) =
      .ok (i, bs.take (3 - (encode s₀.cfg i).length)) := by
  obtain ⟨hwf, hsp, hlen⟩ := hi
  rw [h.inRun_eq_take, List.take_append, List.take_of_length_le hlen, h.cfg_eq, ← hsp]
  exact decodeOfEncode _ _ _ hwf

theorem encode_length (c : Config) (i : Instr) : (encode c i).length = i.bytes := by
  cases i <;> rfl

/-- One token read is its flag, its bytes and then the tokens after it. -/
theorem readTokens_succ {n : Nat} {f : Bool} {r : List Byte} {is : List Instr} {u : State} (hget : get s = .go f t)
    (hdec : decode t.cfg (sp f) (inRun t 3 t.ip.toNat) = .ok (i, r))
    (htail : readTokens get sp n (consume i.bytes t) = .go is u) :
    readTokens get sp (n + 1) s = .go (i :: is) u := by
  simp only [readTokens, hget, bind_go, hdec, htail]

/-- Tokens read one after another are read at once. -/
theorem readTokens_append {m n : Nat} {is js : List Instr} {u : State} (hm : readTokens get sp m s = .go is t)
    (hn : readTokens get sp n t = .go js u) : readTokens get sp (m + n) s = .go (is ++ js) u := by
  induction m generalizing s is with
  | zero =>
    cases hm
    rw [Nat.zero_add]
    exact hn
  | succ m ih =>
    obtain ⟨f, v, hget, hm⟩ := bind_eq_go.1 hm
    rw [Nat.add_right_comm]
    split at hm
    · next i r hdec =>
      obtain ⟨ks, w, hks, hw⟩ := bind_eq_go.1 hm
      cases hw
      exact readTokens_succ hget hdec (ih hks)
    · cases hm

/-! ## Groups -/

/-- What a decoder needs of its flag reader `get`: where it is `empty` it fetches a flag byte that `pack` laid
out; `left n fs` says that `n` flags of the last one fetched are unread and that they begin with `fs`. -/
structure FlagReader (s₀ : State) (get : State → Flow Bool) (pack : List Bool → Byte) (empty : State → Prop)
    (left : Nat → List Bool → State → Prop) : Prop where
  /-- The first flag of a group, with its flag byte fetched. -/
  refill : ∀ {s f fs bs}, empty s → fs.length ≤ 7 → Unread s₀ (pack (f :: fs) :: bs) s →
    ∃ t, get s = .go f t ∧ left 7 fs t ∧ Unread s₀ bs t
  /-- A further flag, with no byte fetched. -/
  next : ∀ {s n f fs bs}, left (n + 1) (f :: fs) s → Unread s₀ bs s →
    ∃ t, get s = .go f t ∧ left n fs t ∧ Unread s₀ bs t
  /-- After eight flags the next flag byte is due. -/
  drained : ∀ {s fs}, left 0 fs s → empty s
  /-- The bytes of a token are not the flag reader's. -/
  left_consume : ∀ {s n fs k}, left n fs s → left n fs (consume k s)

/-- A group as it is laid out: its flag byte and its tokens (spec 30 R90, R96). -/
def groupBytes (c : Config) (pack : List Bool → Byte) (g : List Instr) : List Byte :=
  pack (g.map (flagBit c)) :: g.flatMap (encode c)

section
variable {pack : List Bool → Byte} {empty : State → Prop} {left : Nat → List Bool → State → Prop}
  {g ts : List Instr} {m n : Nat}

/-- Tokens whose flags have been fetched are read. -/
theorem FlagReader.readTokens_of_left (hr : FlagReader s₀ get pack empty left)
    (hg : ∀ i ∈ g, StreamToken s₀.cfg sp i) (hleft : left (g.length + m) (g.map (flagBit s₀.cfg)) s)
    (hun : Unread s₀ (g.flatMap (encode s₀.cfg) ++ bs) s) :
    ∃ t, readTokens get sp g.length s = .go g t ∧ left m [] t ∧ Unread s₀ bs t := by
  induction g generalizing s with
  | nil => exact ⟨s, rfl, by simpa using hleft, hun⟩
  | cons i g ih =>
    rw [List.forall_mem_cons] at hg
    rw [List.length_cons, Nat.add_right_comm] at hleft
    rw [List.flatMap_cons, List.append_assoc] at hun
    obtain ⟨t, hget, hleft, hun⟩ := hr.next hleft hun
    obtain ⟨u, hread, hu⟩ := ih hg.2 (hr.left_consume hleft) (encode_length _ i ▸ hun.consume)
    exact ⟨u, readTokens_succ hget (hun.decode_token hg.1) hread, hu⟩

/-- A group of at most eight tokens is read, from its flag byte on. -/
theorem FlagReader.readTokens_group (hr : FlagReader s₀ get pack empty left)
    (hg : ∀ i ∈ g, StreamToken s₀.cfg sp i) (hne : g ≠ []) (hlen : g.length + m = 8) (hempty : empty s)
    (hun : Unread s₀ (groupBytes s₀.cfg pack g ++ bs) s) :
    ∃ t, readTokens get sp g.length s = .go g t ∧ left m [] t ∧ Unread s₀ bs t := by
  cases g with
  | nil => exact absurd rfl hne
  | cons i g =>
    rw [List.forall_mem_cons] at hg
    rw [List.length_cons] at hlen
    rw [groupBytes, List.map_cons, List.flatMap_cons, List.cons_append, List.append_assoc] at hun
    obtain ⟨t, hget, hleft, hun⟩ := hr.refill hempty (by rw [List.length_map]; omega) hun
    have hseven : 7 = g.length + m := by omega
    obtain ⟨u, hread, hu⟩ :=
      hr.readTokens_of_left hg.2 (hr.left_consume (hseven ▸ hleft)) (encode_length _ i ▸ hun.consume)
    exact ⟨u, readTokens_succ hget (hun.decode_token hg.1) hread, hu⟩

/-- The next group of a stream is read, and after a full one the next flag byte is due. -/
theorem FlagReader.readTokens_take (hr : FlagReader s₀ get pack empty left)
    (hts : ∀ i ∈ ts, StreamToken s₀.cfg sp i) (hne : ts ≠ []) (hempty : empty s)
    (hun : Unread s₀ (groupBytes s₀.cfg pack (ts.take 8) ++ bs) s) :
    ∃ t, readTokens get sp (ts.take 8).length s = .go (ts.take 8) t ∧ (8 ≤ ts.length → empty t) ∧
      Unread s₀ bs t := by
  have hlen := List.length_take_le 8 ts
  have hne' : ts.take 8 ≠ [] := fun h => hne (by simpa using h)
  obtain ⟨t, hread, hleft, hun⟩ := hr.readTokens_group (fun i hi => hts i (List.mem_of_mem_take hi)) hne'
    (Nat.add_sub_of_le hlen) hempty hun
  refine ⟨t, hread, fun hfull => hr.drained (fs := []) ?_, hun⟩
  rwa [List.length_take, Nat.min_eq_left hfull, Nat.sub_self] at hleft

/-- A group and the groups after it are the whole stream. -/
theorem readTokens_take_drop {u : State} (htake : readTokens get sp (ts.take 8).length s = .go (ts.take 8) t)
    (hdrop : readTokens get sp (ts.drop 8).length t = .go (ts.drop 8) u) :
    readTokens get sp ts.length s = .go ts u := by
  have hall := readTokens_append htake hdrop
  rwa [← List.length_append, List.take_append_drop] at hall

/-- Every group of a format A stream is read, but the flag byte of an empty last one (spec 30 R95). -/
theorem FlagReader.readTokens_groupsA (hr : FlagReader s₀ get pack empty left)
    (hts : ∀ i ∈ ts, StreamToken s₀.cfg sp i) (hn : ts.length ≤ n) (hempty : empty s)
    (hun : Unread s₀ ((groupsA n ts).flatMap (groupBytes s₀.cfg pack)) s) :
    ∃ t, readTokens get sp ts.length s = .go ts t ∧
      Unread s₀ (if ts.length % 8 = 0 then [pack []] else []) t := by
  induction n generalizing ts s with
  | zero =>
    obtain rfl := List.length_eq_zero_iff.1 (Nat.le_zero.1 hn)
    exact ⟨s, rfl, hun⟩
  | succ n ih =>
    rw [groupsA, groupSize] at hun
    by_cases hlt : ts.length < 8
    · rw [if_pos hlt, List.flatMap_singleton] at hun
      cases ts with
      | nil => exact ⟨s, rfl, hun⟩
      | cons i ts =>
        obtain ⟨t, hread, -, hun⟩ := hr.readTokens_group (bs := []) hts (List.cons_ne_nil i ts)
          (Nat.add_sub_of_le hlt.le) hempty (by rwa [List.append_nil])
        have hmod : ¬ (i :: ts).length % 8 = 0 := by
          rw [List.length_cons] at hlt ⊢
          omega
        exact ⟨t, hread, by rwa [if_neg hmod]⟩
    · rw [if_neg hlt, List.flatMap_cons] at hun
      obtain ⟨t, hread, hdue, hun⟩ := hr.readTokens_take hts (by rintro rfl; simp at hlt) hempty hun
      obtain ⟨u, hreads, hun⟩ := ih (fun i hi => hts i (List.mem_of_mem_drop hi)) (by rw [List.length_drop]; omega)
        (hdue (Nat.not_lt.1 hlt)) hun
      have hmod : (ts.drop 8).length % 8 = ts.length % 8 := by
        rw [List.length_drop]
        omega
      exact ⟨u, readTokens_take_drop hread hreads, hmod ▸ hun⟩

theorem groupsB_succ (h : ts ≠ []) : groupsB (n + 1) ts = ts.take 8 :: groupsB n (ts.drop 8) := by
  cases ts with
  | nil => exact absurd rfl h
  | cons i ts => rfl

/-- Every group of a format B stream is read (spec 30 R96). -/
theorem FlagReader.readTokens_groupsB (hr : FlagReader s₀ get pack empty left)
    (hts : ∀ i ∈ ts, StreamToken s₀.cfg sp i) (hn : ts.length ≤ n) (hempty : ts ≠ [] → empty s)
    (hun : Unread s₀ ((groupsB n ts).flatMap (groupBytes s₀.cfg pack)) s) :
    ∃ t, readTokens get sp ts.length s = .go ts t ∧ Unread s₀ [] t := by
  induction n generalizing ts s with
  | zero =>
    obtain rfl := List.length_eq_zero_iff.1 (Nat.le_zero.1 hn)
    exact ⟨s, rfl, hun⟩
  | succ n ih =>
    by_cases hne : ts = []
    · subst hne
      exact ⟨s, rfl, hun⟩
    · rw [groupsB_succ hne, List.flatMap_cons] at hun
      obtain ⟨t, hread, hdue, hun⟩ := hr.readTokens_take hts hne (hempty hne) hun
      have hpos := List.length_pos_iff.2 hne
      obtain ⟨u, hreads, hun⟩ := ih (fun i hi => hts i (List.mem_of_mem_drop hi)) (by rw [List.length_drop]; omega)
        (fun hmore => hdue (by have := List.length_pos_iff.2 hmore; rw [List.length_drop] at this; omega)) hun
      exact ⟨u, readTokens_take_drop hread hreads, hun⟩

end

/-! ## The two flag readers -/

/-- `n` flags are left in FR_BYTE, and they begin with `fs`. -/
def LeftInFrByte (n : Nat) (fs : List Bool) (s : State) : Prop := s.frRem.toNat = n ∧ HighFlags fs s.frByte

theorem flagReaderA (s₀ : State) :
    FlagReader s₀ flagrAGet (packDown groupSize) (fun s => s.frRem = 0) LeftInFrByte where
  refill := by
    intro s f fs bs hempty hlen hun
    obtain ⟨hfetch, hun⟩ := hun.fetch
    obtain ⟨hmsb, hrest⟩ := (highFlags_packDown (fs := f :: fs) (Nat.succ_le_succ hlen)).of_cons
    have hget := flagrAGet_of_fetch hempty hfetch
    rw [groupSize, hmsb] at hget
    exact ⟨_, hget, ⟨rfl, hrest⟩, hun⟩
  next := by
    intro s n f fs bs hleft hun
    obtain ⟨hrem, hflags⟩ := hleft
    obtain ⟨hmsb, hrest⟩ := hflags.of_cons
    have hne : s.frRem ≠ 0 := by bv_omega
    have hrem' : (s.frRem - 1).toNat = n := by bv_omega
    have hget := flagrAGet_of_rem hne
    rw [hmsb] at hget
    exact ⟨_, hget, ⟨hrem', hrest⟩, hun⟩
  drained := fun ⟨hrem, _⟩ => BitVec.eq_of_toNat_eq hrem
  left_consume := id

/-- The marker bit of the reload constant stands `n` places above the flag byte, and the `n` unread flags
below bit 0 after the next shift begin with `fs` (spec 42 R185). -/
def LeftInFbReg (n : Nat) (fs : List Bool) (s : State) : Prop := s.fbReg >>> (8 + n) = 1 ∧ LowFlags fs (s.fbReg >>> 1)

/-- FLAGR_B_GET with none left: the next flag byte is fetched under the reload constant (spec 42 R185). -/
theorem flagrBGet_of_fetch {b : Byte} (h : (s.fbReg >>> 1).extractLsb' 8 8 = 0)
    (hf : fetch { s with fbReg := s.fbReg >>> 1 } = .go b t) :
    flagrBGet s = .go ((s.cfg.bReload ||| b.setWidth 16).getLsbD 0)
      { t with fbReg := s.cfg.bReload ||| b.setWidth 16 } := by
  simp only [flagrBGet]
  rw [if_pos h, hf, bind_go]

/-- The marker bit of `FF00` is bit 15, above any flag byte. -/
theorem reload_marker (b : Byte) : (0xFF00 ||| b.setWidth 16 : BitVec 16) >>> 15 = 1 := by
  have hbyte : b.setWidth 16 >>> 15 = (0 : BitVec 16) := by bv_omega
  rw [BitVec.ushiftRight_or_distrib, hbyte]
  rfl

theorem highByte_eq_zero_iff (r : BitVec 16) : r.extractLsb' 8 8 = 0 ↔ r >>> 8 = 0 := by
  simp only [← BitVec.toNat_inj, BitVec.extractLsb'_toNat, BitVec.toNat_ushiftRight, Nat.shiftRight_eq_div_pow,
    BitVec.ofNat_eq_ofNat, BitVec.toNat_ofNat, Nat.zero_mod]
  omega

/-- While the marker is at or above bit 8 the upper byte is not zero. -/
theorem highByte_ne_zero {n : Nat} {r : BitVec 16} (h : r >>> (8 + n) = 1) : r.extractLsb' 8 8 ≠ 0 := by
  intro hzero
  have hshift : (0 : BitVec 16) >>> n = 0 := BitVec.zero_ushiftRight
  rw [BitVec.shiftRight_add, (highByte_eq_zero_iff r).1 hzero, hshift] at h
  exact absurd h (by decide)

/-- The shift that takes the marker from bit 8 empties the upper byte. -/
theorem highByte_eq_zero {r : BitVec 16} (h : r >>> 8 = 1) : (r >>> 1).extractLsb' 8 8 = 0 := by
  rw [highByte_eq_zero_iff, ← BitVec.shiftRight_add, Nat.add_comm, BitVec.shiftRight_add, h]
  rfl

theorem flagReaderB (hreload : s₀.cfg.bReload = 0xFF00) :
    FlagReader s₀ flagrBGet (packUp 0) (fun s => (s.fbReg >>> 1).extractLsb' 8 8 = 0) LeftInFbReg where
  refill := by
    intro s f fs bs hempty hlen hun
    have hshift : Unread s₀ _ { s with fbReg := s.fbReg >>> 1 } := hun
    obtain ⟨hfetch, hun'⟩ := hshift.fetch
    have hconst : s.cfg.bReload = 0xFF00 := by rw [hun.cfg_eq, hreload]
    have hget := flagrBGet_of_fetch hempty hfetch
    rw [hconst] at hget
    obtain ⟨hfirst, hrest⟩ := (lowFlags_packUp (fs := f :: fs) (Nat.succ_le_succ hlen)).of_cons
    rw [hfirst] at hget
    exact ⟨_, hget, ⟨reload_marker _, hrest⟩, hun'⟩
  next := by
    intro s n f fs bs hleft hun
    obtain ⟨hmark, hflags⟩ := hleft
    obtain ⟨hfirst, hrest⟩ := hflags.of_cons
    have hmark' : (s.fbReg >>> 1) >>> (8 + n) = 1 := by
      rw [← BitVec.shiftRight_add, ← hmark]
      congr 1
      omega
    have hget := flagrBGet_of_marker (highByte_ne_zero hmark')
    rw [hfirst] at hget
    exact ⟨_, hget, ⟨hmark', hrest⟩, hun⟩
  drained := by
    intro s fs hleft
    obtain ⟨hmark, -⟩ := hleft
    exact highByte_eq_zero hmark
  left_consume := id

/-! ## The two formats -/

theorem streamToken_of_tokenA {c : Config} (h : ∃ f, spaceOf c i = .tokenA f) : StreamToken c .tokenA i := by
  obtain ⟨f, hf⟩ := h
  cases i with
  | aLit b => exact ⟨rfl, rfl, by simp [encode]⟩
  | aMatch h l dLo => exact ⟨rfl, rfl, by simp [encode]⟩
  | _ => cases hf

theorem streamToken_of_tokenB {c : Config} (h : i.wf c = true ∧ ∃ f, spaceOf c i = .tokenB f) :
    StreamToken c .tokenB i := by
  obtain ⟨hwf, f, hf⟩ := h
  cases i with
  | bLit b => exact ⟨hwf, rfl, by simp [encode]⟩
  | bShort ctl => exact ⟨hwf, rfl, by simp [encode]⟩
  | bLong sel h dLo => exact ⟨hwf, rfl, by simp [encode]⟩
  | bSuper h dLo e => exact ⟨hwf, rfl, by simp [encode]⟩
  | bEnd sel => exact ⟨hwf, rfl, by simp [encode]⟩
  | _ => cases hf

/-- Settles O4: both formats by `FlagReader`, from the first flag byte on. -/
theorem assembledStreamsReadBack : Obligations.AssembledStreamsReadBack := by
  unfold Obligations.AssembledStreamsReadBack
  constructor
  · intro s ts hts hin hlen hip hrem
    obtain ⟨t, hread, -, -, hend, -⟩ := (flagReaderA s).readTokens_groupsA
      (fun i hi => streamToken_of_tokenA (hts i hi)) (Nat.le_refl ts.length) hrem (unread_of_inputIs hin hlen hip)
    refine ⟨t, hread, ?_⟩
    rw [← hend]
    split <;> rfl
  · intro s ts hreload hts hin hlen hip hreg
    obtain ⟨t, hread, -, -, hend, -⟩ := (flagReaderB hreload).readTokens_groupsB
      (fun i hi => streamToken_of_tokenB (hts i hi)) (Nat.le_refl ts.length) (fun _ => by rw [hreg]; rfl)
      (unread_of_inputIs hin hlen hip)
    exact ⟨t, hread, BitVec.eq_of_toNat_eq hend⟩

end Sys2Proof.Machine
end

section
/-! SUPPORT. RING_INIT and RING_PUT (spec 40 R131, R132). What RING_PUT does to the cells is stated once, as one byte
appended at the cursor (`ringAppends_ringPut`). -/

namespace Sys2Proof.Machine

/-- Settles O11: no cell is listed after RING_INIT, so every cell reads `FILL`. -/
theorem ringInitClears : Obligations.RingInitClears := by
  unfold Obligations.RingInitClears
  refine fun s => ⟨ringGet_ringInit s, rfl, fun href => ⟨?_, fun i => ?_⟩⟩
  · rw [ringInit_wr, href, Config.reference]
  · rw [ringGet_ringInit, href, Config.reference]

/-- RING_PUT appends one byte: it lands at the cell of the old cursor and no other cell changes. -/
theorem ringAppends_ringPut (b : Byte) (s : State) : RingAppends s (ringPut b s) 1 fun _ => b := by
  have hold : s.wr + BitVec.ofNat 16 0 = s.wr := BitVec.add_zero s.wr
  constructor
  · intro k hk
    obtain rfl : k = 0 := by omega
    rw [hold, ringGet_ringPut_same]
  · intro i hi
    have hne := hi 0 Nat.one_pos
    rw [hold] at hne
    exact ringGet_ringPut_other b s hne

/-- Settles O12: one byte appended (`ringAppends_ringPut`), and the cursor's increment is that of a 16-bit
word. -/
theorem ringPutWritesThenAdvances : Obligations.RingPutWritesThenAdvances := by
  unfold Obligations.RingPutWritesThenAdvances
  refine fun b s => ⟨ringAppends_ringPut b s, ?_, rfl⟩
  rw [ringPut_wr, BitVec.toNat_add]
  rfl

end Sys2Proof.Machine
end

section
/-! SUPPORT. The match search (spec 41) and its agreement with the decoder (R160). The run of equal bytes and the scan
are each characterised once; COPY_A is then shown to append any bytes that repeat the history. -/

namespace Sys2Proof.Machine

variable {s t u : State} {look : List Byte}

/-! ## The run of equal bytes -/

theorem runLen_cons_eq {d k : Nat} {b : Byte} (bs : List Byte) (h : hist s look d k = b) :
    runLen s look d k (b :: bs) = runLen s look d (k + 1) bs + 1 := by simp [runLen, h]

theorem runLen_cons_ne {d k : Nat} {b : Byte} (bs : List Byte) (h : hist s look d k ≠ b) :
    runLen s look d k (b :: bs) = 0 := by simp [runLen, h]

/-- Within the run every byte equals its history byte. -/
theorem getElem?_of_lt_runLen {d k j : Nat} {bs : List Byte} (h : j < runLen s look d k bs) :
    bs[j]? = some (hist s look d (k + j)) := by
  induction bs generalizing k j with
  | nil => cases h
  | cons b bs ih =>
    by_cases hb : hist s look d k = b
    · rw [runLen_cons_eq bs hb] at h
      cases j with
      | zero => rw [List.getElem?_cons_zero, Nat.add_zero, hb]
      | succ j => rw [List.getElem?_cons_succ, ih (Nat.lt_of_succ_lt_succ h), Nat.add_right_comm, Nat.add_assoc]
    · rw [runLen_cons_ne bs hb] at h
      cases h

/-- The byte a run ends before differs from its history byte. -/
theorem getElem?_runLen_ne {d k : Nat} {bs : List Byte} (h : runLen s look d k bs < bs.length) :
    bs[runLen s look d k bs]? ≠ some (hist s look d (k + runLen s look d k bs)) := by
  induction bs generalizing k with
  | nil => cases h
  | cons b bs ih =>
    by_cases hb : hist s look d k = b
    · rw [runLen_cons_eq bs hb] at h ⊢
      rw [List.getElem?_cons_succ, ← Nat.add_assoc, Nat.add_right_comm]
      exact ih (Nat.lt_of_succ_lt_succ h)
    · rw [runLen_cons_ne bs hb, List.getElem?_cons_zero]
      exact fun e => hb (Option.some.inj e).symm

theorem matchLen_le_length (s : State) (look : List Byte) (d : Nat) : matchLen s look d ≤ look.length :=
  runLen_le_length s look d 0 look

theorem getElem?_of_lt_matchLen {d k : Nat} (h : k < matchLen s look d) : look[k]? = some (hist s look d k) := by
  rw [getElem?_of_lt_runLen h, Nat.zero_add]

/-! ## HIST and the look-ahead -/

theorem hist_of_overlapAware (hm : s.cfg.matcher = .overlapAware) (d k : Nat) :
    hist s look d k = if k < d then ringHist s d k else look.getD (k - d) 0 := by simp [hist, hm]

theorem hist_of_literalFormula (hm : s.cfg.matcher = .literalFormula) (d k : Nat) :
    hist s look d k = ringHist s d k := by simp [hist, hm]

/-- The look-ahead holds the bytes of IN from IP on. -/
theorem lookAhead_getElem? {k : Nat} (hk : k < (lookAhead s).length) :
    (lookAhead s)[k]? = readIn s (s.ip.toNat + k) := by
  have hget := List.getElem?_eq_getElem hk
  obtain ⟨-, hread⟩ := inRun_getElem? hget
  rw [hget, hread]

theorem lookAhead_length_le (s : State) : (lookAhead s).length ≤ s.cfg.aMaxMatch :=
  (inRun_length_le s _ _).trans (Nat.min_le_left _ _)

theorem lookAhead_length_of_placed (h : InputPlaced s) :
    (lookAhead s).length = min s.cfg.aMaxMatch (s.inLen.toNat - s.ip.toNat) := by
  rw [lookAhead, inRun_length_of_placed h, lookLimit, Nat.min_assoc, Nat.min_self]

/-- Settles O41: HIST by the matcher's two values, and MATCH_LEN by induction over the look-ahead. -/
theorem matchLenIsTheRun : Obligations.MatchLenIsTheRun := by
  unfold Obligations.MatchLenIsTheRun
  intro s look d
  refine ⟨fun hm => hist_of_overlapAware hm d, fun hm => hist_of_literalFormula hm d,
    fun hplaced => ⟨lookAhead_length_of_placed hplaced, fun _ => lookAhead_getElem?⟩,
    matchLen_le_length s look d, fun _ => getElem?_of_lt_matchLen, fun hlt => ?_⟩
  have hend := getElem?_runLen_ne hlt
  rwa [Nat.zero_add] at hend

/-! ## The scan over the distances -/

/-- The pair (length, distance) `best` is the longest match at the distances up to `D`, the nearest of its length;
(0, 0) if none of them matches (spec 41 R153). -/
def LongestNearest (s : State) (look : List Byte) (D : Nat) (best : Nat × Nat) : Prop :=
  (∀ d', 1 ≤ d' → d' ≤ D → matchLen s look d' ≤ best.1) ∧
  (best.1 = 0 → best.2 = 0) ∧
  (0 < best.1 → 1 ≤ best.2 ∧ best.2 ≤ D ∧ matchLen s look best.2 = best.1 ∧
    ∀ d', 1 ≤ d' → d' < best.2 → matchLen s look d' < best.1)

theorem longestNearest_zero (s : State) (look : List Byte) : LongestNearest s look 0 (0, 0) :=
  ⟨fun _ h1 h0 => absurd (h1.trans h0) (by decide), fun _ => rfl, fun h => absurd h (by decide)⟩

/-- Distances at which no run is longer leave the best match as it is. -/
theorem LongestNearest.extend {D D' : Nat} {best : Nat × Nat} (h : LongestNearest s look D best) (hD : D ≤ D')
    (hle : ∀ d', D < d' → d' ≤ D' → matchLen s look d' ≤ best.1) : LongestNearest s look D' best := by
  obtain ⟨hmax, hnone, hsome⟩ := h
  refine ⟨fun d' h1 hd' => ?_, hnone, fun hpos => ?_⟩
  · rcases Nat.lt_or_ge D d' with hlt | hge
    · exact hle d' hlt hd'
    · exact hmax d' h1 hge
  · obtain ⟨h1, hle', hlen, hnear⟩ := hsome hpos
    exact ⟨h1, hle'.trans hD, hlen, hnear⟩

/-- A longer run at the next distance is the new best match. -/
theorem LongestNearest.improve {D : Nat} {best : Nat × Nat} (h : LongestNearest s look D best)
    (hlt : best.1 < matchLen s look (D + 1)) :
    LongestNearest s look (D + 1) (matchLen s look (D + 1), D + 1) := by
  obtain ⟨hmax, -, -⟩ := h
  have hbelow (d' : Nat) (h1 : 1 ≤ d') (hd' : d' < D + 1) : matchLen s look d' < matchLen s look (D + 1) :=
    (hmax d' h1 (Nat.le_of_lt_succ hd')).trans_lt hlt
  refine ⟨fun d' h1 hd' => ?_, fun h0 => absurd h0 (Nat.ne_zero_of_lt hlt),
    fun _ => ⟨Nat.succ_pos D, Nat.le_refl _, rfl, hbelow⟩⟩
  rcases Nat.lt_or_eq_of_le hd' with hlt' | rfl
  · exact (hbelow d' h1 hlt').le
  · exact Nat.le_refl _

/-- The scan finds the longest nearest match; its early stop loses nothing, as no run is longer than
`A_MAX_MATCH` (spec 41 R153, R154). -/
theorem LongestNearest.of_scan {D : Nat} {best : Nat × Nat} (hlook : look.length ≤ s.cfg.aMaxMatch) (n : Nat)
    (h : LongestNearest s look D best) : LongestNearest s look (D + n) (scan s look n (D + 1) best) := by
  induction n generalizing D best with
  | zero => exact h
  | succ n ih =>
    rw [scan, ← Nat.add_assoc, Nat.add_right_comm]
    split
    · next hlt =>
      have hnew := h.improve hlt
      split
      · next hfull =>
        refine hnew.extend (Nat.le_add_right _ _) fun d' _ _ => ?_
        exact (matchLen_le_length s look d').trans (hfull ▸ hlook)
      · exact ih hnew
    · next hge =>
      refine ih (h.extend (Nat.le_succ D) fun d' hlt hle => ?_)
      obtain rfl : d' = D + 1 := by omega
      exact Nat.le_of_not_lt hge

theorem longestNearest_bestMatch (hlook : look.length ≤ s.cfg.aMaxMatch) :
    LongestNearest s look s.cfg.aMaxDist (bestMatch s look) := by
  have h := (longestNearest_zero s look).of_scan hlook s.cfg.aMaxDist
  rwa [Nat.zero_add] at h

theorem bestMatch_fst_le_length (s : State) (look : List Byte) : (bestMatch s look).1 ≤ look.length :=
  scan_fst_le_length s look _ _ _ (Nat.zero_le _)

/-- The ranges of the format A parameters (spec 00 R7, log 28). -/
theorem matchRanges_of_wf {c : Config} (hc : c.wf = true) :
    1 ≤ c.aMinMatch ∧ c.aMaxMatch ≤ c.aMinMatch + 15 ∧ c.aMaxMatch ≤ 31 ∧ c.aMaxDist ≤ 4096 := by
  simp only [Config.wf, Bool.and_eq_true, decide_eq_true_eq] at hc
  omega

/-- Settles O42: the scan's result is the longest nearest match, and BEST_LEN and BEST_DIST are wide enough
for it. -/
theorem findMatchIsLongestNearest : Obligations.FindMatchIsLongestNearest := by
  unfold Obligations.FindMatchIsLongestNearest
  intro s look l d hwf hlook hbest
  obtain ⟨-, -, hmax, hfar⟩ := matchRanges_of_wf hwf
  have hlong := longestNearest_bestMatch hlook
  have hlen := bestMatch_fst_le_length s look
  rw [hbest] at hlong hlen
  obtain ⟨hge, hnone, hsome⟩ := hlong
  have hd : d ≤ 4096 := by
    rcases Nat.eq_zero_or_pos l with h0 | hpos
    · exact (hnone h0).trans_le (Nat.zero_le _)
    · obtain ⟨-, hle, -⟩ := hsome hpos
      exact hle.trans hfar
  have hreg5 : (findMatch look s).bestLen.toNat = l := by
    rw [findMatch_bestLen, hbest, BitVec.toNat_ofNat]
    exact Nat.mod_eq_of_lt (by omega)
  have hreg13 : (findMatch look s).bestDist.toNat = d := by
    rw [findMatch_bestDist, hbest, BitVec.toNat_ofNat]
    exact Nat.mod_eq_of_lt (by omega)
  exact ⟨hge, hnone, hsome, rfl, hreg5, hreg13⟩

/-! ## Bytes appended one after another -/

/-- One byte appended to OUT and then `n` more are `n + 1` bytes. -/
theorem OutAppends.cons {n : Nat} {f : Nat → Option Byte} (h1 : OutAppends s u 1 fun _ => f 0)
    (hop : u.op.toNat = s.op.toNat + 1) (hn : OutAppends u t n fun k => f (k + 1)) : OutAppends s t (n + 1) f := by
  obtain ⟨hfirst, hkeep⟩ := h1
  obtain ⟨hrest, hkeep'⟩ := hn
  rw [hop] at hrest hkeep'
  refine ⟨fun k hk => ?_, fun a ha => ?_⟩
  · cases k with
    | zero => rw [hkeep' _ (by omega), hfirst 0 Nat.one_pos]
    | succ k =>
      have hnext := hrest k (Nat.lt_of_succ_lt_succ hk)
      rwa [Nat.add_right_comm, Nat.add_assoc] at hnext
  · rw [hkeep' a (by omega), hkeep a (by omega)]

theorem OutAppends.congr {n : Nat} {f g : Nat → Option Byte} (h : OutAppends s t n f)
    (hg : ∀ k, k < n → f k = g k) : OutAppends s t n g := by
  obtain ⟨hnew, hkeep⟩ := h
  exact ⟨fun k hk => (hnew k hk).trans (hg k hk), hkeep⟩

/-- One byte put into RING and then `n` more are `n + 1` bytes, as long as they do not go round the ring. -/
theorem RingAppends.cons {n : Nat} {f : Nat → Byte} (h1 : RingAppends s u 1 fun _ => f 0) (hwr : u.wr = s.wr + 1)
    (hlt : n < 4096) (hn : RingAppends u t n fun k => f (k + 1)) : RingAppends s t (n + 1) f := by
  obtain ⟨hfirst, hkeep⟩ := h1
  obtain ⟨hrest, hkeep'⟩ := hn
  have hcell (k : Nat) : u.wr + BitVec.ofNat 16 k = s.wr + BitVec.ofNat 16 (k + 1) := by rw [hwr, advance_succ]
  simp only [hcell] at hrest hkeep'
  refine ⟨fun k hk => ?_, fun i hi => ?_⟩
  · cases k with
    | zero =>
      rw [hkeep' _ fun j hj => ?_, hfirst 0 Nat.one_pos]
      rw [Ne, ringIndex_eq_iff]
      bv_omega
    | succ k => exact hrest k (Nat.lt_of_succ_lt_succ hk)
  · rw [hkeep' i fun k hk => hi (k + 1) (Nat.succ_lt_succ hk),
      hkeep i fun k hk => hi k (by omega)]

/-! ## COPY_A repeats the history -/

/-- One step of COPY_A with room in OUT (spec 44 R226). -/
def copyStep (s : State) : State :=
  { ringPut (ringGet s s.rd) { writeOut s.op.toNat (ringGet s s.rd) s with op := s.op + 1 } with rd := s.rd + 1 }

theorem copyA_succ_of_lt (n : Nat) (h : s.op < cap s) : copyA (n + 1) s = copyA n (copyStep s) := by
  rw [copyA, putOut_of_lt h]
  rfl

theorem outAppends_copyStep (s : State) : OutAppends s (copyStep s) 1 fun _ => some (ringGet s s.rd) :=
  outAppends_of_writeOut rfl

theorem ringAppends_copyStep (s : State) : RingAppends s (copyStep s) 1 fun _ => ringGet s s.rd :=
  ringAppends_ringPut (ringGet s s.rd) s

/-- The ring side of a step of COPY_A is that of RING_PUT. -/
theorem historyByte_copyStep (s : State) (d : Nat) :
    historyByte (copyStep s) d = historyByte (ringPut (ringGet s s.rd) s) d := rfl

/-- `f 0, …, f (n - 1)` are the last `d` bytes of history, and then themselves again `d` positions on. -/
def RepeatsHistory (s : State) (d n : Nat) (f : Nat → Byte) : Prop :=
  ∀ k, k < n → f k = if k < d then historyByte s (d - k) else f (k - d)

/-- Bytes that repeat the history still do after the first of them is put into the ring. -/
theorem RepeatsHistory.tail {d n : Nat} {f : Nat → Byte} (h : RepeatsHistory s d (n + 1) f) (h1 : 1 ≤ d)
    (hd : d ≤ 4096) : RepeatsHistory (ringPut (f 0) s) d n fun k => f (k + 1) := by
  intro k hk
  have hnext := h (k + 1) (Nat.succ_lt_succ hk)
  beta_reduce
  rcases Nat.lt_trichotomy (k + 1) d with hlt | rfl | hgt
  · rw [if_pos hlt] at hnext
    rw [if_pos (by omega), hnext, show d - k = d - (k + 1) + 1 by omega]
    exact (historyByte_ringPut_succ (f 0) s (by omega) (by omega)).symm
  · rw [if_neg (Nat.lt_irrefl _), Nat.sub_self] at hnext
    rw [if_pos (Nat.lt_succ_self k), Nat.add_sub_cancel_left, historyByte_ringPut_one, hnext]
  · rw [if_neg (by omega)] at hnext
    rw [if_neg (by omega), hnext, show k + 1 - d = k - d + 1 by omega]

/-- COPY_A with room for its bytes appends to OUT and RING alike whatever repeats the history at the distance of RD
(spec 44 R226, R232). -/
theorem copyA_appends {d n : Nat} {f : Nat → Byte} (h1 : 1 ≤ d) (hd : d ≤ 4096) (hn : n ≤ 4096)
    (hf : RepeatsHistory s d n f) (hrd : s.rd = ringIndex (s.wr - BitVec.ofNat 16 d))
    (hroom : s.op.toNat + n ≤ (cap s).toNat) :
    ∃ t, copyA n s = .go () t ∧ OutAppends s t n (fun k => some (f k)) ∧ RingAppends s t n f := by
  induction n generalizing s f with
  | zero => exact ⟨s, rfl, ⟨fun _ hk => absurd hk (Nat.not_lt_zero _), fun _ _ => rfl⟩,
      ⟨fun _ hk => absurd hk (Nat.not_lt_zero _), fun _ _ => rfl⟩⟩
  | succ n ih =>
    have hlt : s.op < cap s := BitVec.lt_def.2 (by omega)
    have hop : (copyStep s).op.toNat = s.op.toNat + 1 := succ_toNat_of_lt hlt
    have hbyte : ringGet s s.rd = f 0 := by
      rw [hf 0 (Nat.succ_pos n), if_pos (by omega), hrd]
      rfl
    have hrest : RepeatsHistory (copyStep s) d n fun k => f (k + 1) := by
      simp only [RepeatsHistory, historyByte_copyStep, hbyte]
      exact hf.tail h1 hd
    have hrd' : (copyStep s).rd = ringIndex ((copyStep s).wr - BitVec.ofNat 16 d) := by
      change s.rd + 1 = ringIndex (s.wr + 1 - BitVec.ofNat 16 d)
      rw [hrd, ringIndex, ringIndex]
      bv_omega
    have hroom' : (copyStep s).op.toNat + n ≤ (cap (copyStep s)).toNat := by
      rw [hop, show cap (copyStep s) = cap s from rfl]
      omega
    obtain ⟨t, ht, hout, hring⟩ := ih (by omega) hrest hrd' hroom'
    have hout1 := outAppends_copyStep s
    have hring1 := ringAppends_copyStep s
    rw [hbyte] at hout1 hring1
    exact ⟨t, (copyA_succ_of_lt n hlt).trans ht, hout1.cons hop hout, hring1.cons rfl (by omega) hring⟩

/-! ## A.MATCH -/

/-- RD is the index the distance is counted back to, field 0 too (spec 44 R225, R233). -/
theorem aReadIndex_eq (wr : Cursor) (x : BitVec 13) :
    aReadIndex wr x = ringIndex (wr - BitVec.ofNat 16 (aDistance x)) := by
  rw [aReadIndex, ringIndex_eq_iff, aDistance]
  split
  · next h0 =>
    subst h0
    bv_omega
  · congr 3
    bv_omega

theorem exec_aMatch (h l : BitVec 4) (lo : Byte) (s : State) :
    exec (.aMatch h l lo) s = (copyA (aLen s.cfg l).toNat (setMatchA h l lo (consume 2 s))).result := rfl

/-- A.MATCH with room appends to OUT and RING alike whatever repeats the history at its distance. -/
theorem exec_aMatch_appends {d n : Nat} {f : Nat → Byte} {h l : BitVec 4} {lo : Byte}
    (hdist : aDistance (aDist h lo) = d) (hlen : (aLen s.cfg l).toNat = n) (h1 : 1 ≤ d) (hd : d ≤ 4096)
    (hf : RepeatsHistory s d n f) (hroom : s.op.toNat + n ≤ (cap s).toNat) :
    ∃ t, exec (.aMatch h l lo) s = .next t ∧ OutAppends s t n (fun k => some (f k)) ∧ RingAppends s t n f := by
  have hn : n ≤ 4096 := by
    have := (aLen s.cfg l).isLt
    omega
  have hrd : aReadIndex s.wr (aDist h lo) = ringIndex (s.wr - BitVec.ofNat 16 d) := hdist ▸ aReadIndex_eq _ _
  obtain ⟨t, ht, hout, hring⟩ := copyA_appends (s := setMatchA h l lo (consume 2 s)) h1 hd hn hf hrd hroom
  refine ⟨t, ?_, hout, hring⟩
  rw [exec_aMatch, hlen, ht, Flow.result]

/-! ## Agreement of the search with the decoder -/

theorem ringHist_eq_historyByte {d k : Nat} (hk : k ≤ d) : ringHist s d k = historyByte s (d - k) := by
  have hcell : s.wr - BitVec.ofNat 16 d + BitVec.ofNat 16 k = s.wr - BitVec.ofNat 16 (d - k) := by
    obtain ⟨j, rfl⟩ := Nat.exists_eq_add_of_le hk
    rw [Nat.add_sub_cancel_left, BitVec.ofNat_add]
    bv_omega
  rw [ringHist, hcell, historyByte]

/-- The input bytes of a run repeat the history at its distance: that is what HIST compares them with
(spec 41 R151, R160). -/
theorem repeatsHistory_of_matchLen (hm : s.cfg.matcher = .overlapAware) (d : Nat) :
    RepeatsHistory s d (matchLen s look d) fun k => look.getD k 0 := by
  intro k hk
  have heq : look.getD k 0 = hist s look d k := by
    rw [List.getD_eq_getElem?_getD, getElem?_of_lt_matchLen hk, Option.getD_some]
  beta_reduce
  rw [heq, hist_of_overlapAware hm]
  split
  · next hlt => exact ringHist_eq_historyByte hlt.le
  · rfl

theorem RepeatsHistory.congr {d n : Nat} {f : Nat → Byte} (h : RepeatsHistory s d n f)
    (hs : ringSide u = ringSide s) : RepeatsHistory u d n f := by
  simp only [ringSide, Prod.mk.injEq] at hs
  obtain ⟨hcfg, hring, hwr⟩ := hs
  have hbyte (j : Nat) : historyByte u j = historyByte s j := by
    rw [historyByte, historyByte, hwr, ringGet_congr hring hcfg]
  simp only [RepeatsHistory, hbyte]
  exact h

/-- Settles O43: the input bytes of the match repeat the history (`repeatsHistory_of_matchLen`), which is all A.MATCH
needs to append them (`exec_aMatch_appends`); the packed fields give the distance and the length back (O6). -/
theorem matchFoundExpandsToInput : Obligations.MatchFoundExpandsToInput := by
  unfold Obligations.MatchFoundExpandsToInput
  intro s u l d h l4 lo hwf hm hbest hmin hcfg hring hwr hroom hb1 hb2
  obtain ⟨hpos, hmax15, -, hfar⟩ := matchRanges_of_wf hwf
  have hlook := lookAhead_length_le s
  obtain ⟨-, -, hsome, -⟩ := findMatchIsLongestNearest s (lookAhead s) l d hwf hlook hbest
  obtain ⟨h1, hle, hrun, -⟩ := hsome (hpos.trans hmin)
  have hlen : l ≤ (lookAhead s).length := hrun ▸ matchLen_le_length s _ d
  obtain ⟨-, -, hdist, hfield⟩ := encoderPacking s.cfg d l h l4 lo hwf h1 (hle.trans hfar) hmin (by omega) hb1 hb2
  have hrep : RepeatsHistory u d l fun k => (lookAhead s).getD k 0 := by
    refine RepeatsHistory.congr ?_ (show ringSide u = ringSide s by simp [ringSide, hcfg, hring, hwr])
    exact hrun ▸ repeatsHistory_of_matchLen hm d
  rw [← hcfg] at hfield
  obtain ⟨t, ht, hout, hringt⟩ := exec_aMatch_appends hdist hfield h1 (hle.trans hfar) hrep hroom
  refine ⟨t, ht, hout.congr fun k hk => ?_, hringt⟩
  have hk' := hk.trans_le hlen
  rw [← lookAhead_getElem? hk', List.getElem?_eq_getElem hk', List.getD_eq_getElem _ _ hk']

end Sys2Proof.Machine
end

section
/-! SUPPORT. The flag bits of spec 42: what closing and finishing a flag byte do, and what the two readers return
read after read. Both readers take eight flags from a byte and fetch it at the first of them: `flagIp` is where that
puts IP, and `readFlags_of_step` is the one induction over the reads. -/

namespace Sys2Proof.Machine

variable {s t : State} {n i : Nat}

/-! ## FLAGW_CLOSE and FLAGW_FINISH -/

/-- FLAGW_CLOSE with room: the finished byte in its slot, then a new slot at OP (spec 42 R173). -/
theorem flagwClose_of_lt (h : s.op < cap s) :
    flagwClose s = .go () { writeOut s.op.toNat 0 (fillSlot s.faAcc s) with
      op := s.op + 1, faSlot := s.op, faAcc := 0, faCnt := 0 } :=
  flagwReserve_of_lt (s := fillSlot s.faAcc s) h

/-- FLAGW_CLOSE without room: the slot is filled, and the new one is refused (spec 42 R173, R171). -/
theorem flagwClose_of_not_lt (h : ¬ s.op < cap s) :
    flagwClose s = .halt (.next (raiseFault .outputOverrun { fillSlot s.faAcc s with faSlot := s.op })) :=
  flagwReserve_of_not_lt (s := fillSlot s.faAcc s) h

theorem readOut_fillSlot_same (v : Byte) (s : State) : readOut (fillSlot v s) s.faSlot.toNat = some v :=
  readOut_writeOut_same _ v s

theorem readOut_fillSlot_other {a : Nat} (v : Byte) (s : State) (h : a ≠ s.faSlot.toNat) :
    readOut (fillSlot v s) a = readOut s a :=
  readOut_writeOut_other v s h

/-- Settles O13: the two branches of the reservation after the slot is filled; the new slot, at OP, is not the old
one, below OP. -/
theorem flagCloseFillsAndReserves : Obligations.FlagCloseFillsAndReserves := by
  unfold Obligations.FlagCloseFillsAndReserves
  refine fun s => ⟨fun hslot hroom => ?_, fun hfull => ?_, closeIfFull_of_eq, closeIfFull_of_ne⟩
  · have hne : s.faSlot.toNat ≠ s.op.toNat := Nat.ne_of_lt (BitVec.lt_def.1 hslot)
    have hother (a : Nat) (ha : a ≠ s.op.toNat) := readOut_writeOut_other 0 (fillSlot s.faAcc s) ha
    exact ⟨_, flagwClose_of_lt hroom, rfl, (hother _ hne).trans (readOut_fillSlot_same _ s),
      readOut_writeOut_same s.op.toNat 0 (fillSlot s.faAcc s),
      fun a ha hop => (hother a hop).trans (readOut_fillSlot_other _ s ha)⟩
  · exact ⟨_, flagwClose_of_not_lt (BitVec.not_lt.2 hfull), rfl, rfl, rfl, rfl, rfl, rfl, rfl⟩

/-- A left shift of a byte drops what passes its top bit. -/
theorem shiftLeft_eq_ofNat_mul (a : Byte) (k : Nat) : a <<< k = BitVec.ofNat 8 (a.toNat * 2 ^ k) := by
  apply BitVec.eq_of_toNat_eq
  rw [BitVec.toNat_shiftLeft, BitVec.toNat_ofNat, Nat.shiftLeft_eq]

/-- Settles O14: the slot is filled with the shifted accumulator; that the group is not full is not needed. -/
theorem flagFinishAlignsToTheTop : Obligations.FlagFinishAlignsToTheTop := by
  unfold Obligations.FlagFinishAlignsToTheTop
  refine fun s _ => ⟨?_, rfl, fun a ha => readOut_fillSlot_other _ s ha⟩
  rw [flagwFinish, readOut_fillSlot_same, groupSize, shiftLeft_eq_ofNat_mul]

/-! ## Flags read one after another -/

/-- If a read in a state where `i` flags have been read returns flag `i`, then `n` reads return the first `n`. -/
theorem readFlags_of_step {get : State → Flow Bool} {flag : Nat → Bool} {read : Nat → State → Prop}
    (hstep : ∀ i < n, ∀ s, read i s → ∃ t, get s = .go (flag i) t ∧ read (i + 1) t) (h : read 0 s) :
    ∃ t, readFlags get n s = .go ((List.range n).map flag) t ∧ read n t := by
  induction n generalizing s flag read with
  | zero => exact ⟨s, rfl, h⟩
  | succ n ih =>
    obtain ⟨t, hget, ht⟩ := hstep 0 (Nat.succ_pos n) s h
    obtain ⟨u, hread, hu⟩ := ih (flag := fun i => flag (i + 1)) (read := fun i => read (i + 1))
      (fun i hi => hstep (i + 1) (Nat.succ_lt_succ hi)) ht
    refine ⟨u, ?_, hu⟩
    rw [readFlags, hget, bind_go, hread, bind_go, List.range_succ_eq_map, List.map_cons, List.map_map]
    rfl

/-- The `k`-th flag byte from IP on. -/
def flagByte (s : State) (k : Nat) : Byte := (readIn s (s.ip.toNat + k)).getD 0

/-- The flag bytes of `n` flags are placed below IN_LEN. -/
def FlagBytesPlaced (n : Nat) (s : State) : Prop :=
  ∀ j, j < (n + 7) / 8 → s.ip.toNat + j < s.inLen.toNat ∧ (readIn s (s.ip.toNat + j)).isSome = true

theorem FlagBytesPlaced.readIn_eq {k : Nat} (h : FlagBytesPlaced n s) (hk : k < (n + 7) / 8) :
    readIn s (s.ip.toNat + k) = some (flagByte s k) :=
  (Option.some_get (h k hk).2).symm.trans (congrArg some (Option.get_eq_getD _))

/-- IP after `i` flags: it has passed the flag bytes those flags are in. -/
def flagIp (s : State) (i : Nat) : Size := s.ip + BitVec.ofNat 32 ((i + 7) / 8)

/-- The first flag of a byte moves IP past it. -/
theorem flagIp_succ_of_first (h : i % 8 = 0) : flagIp s (i + 1) = flagIp s i + 1 := by
  rw [flagIp, flagIp, show (i + 1 + 7) / 8 = (i + 7) / 8 + 1 by omega, BitVec.ofNat_add, BitVec.add_assoc]
  rfl

/-- A further flag of a byte leaves IP. -/
theorem flagIp_succ_of_later (h : i % 8 ≠ 0) : flagIp s (i + 1) = flagIp s i := by
  rw [flagIp, flagIp, show (i + 1 + 7) / 8 = (i + 7) / 8 by omega]

/-- FETCH for the first flag of a byte, in a state that has read `i` flags from `s`. -/
theorem FlagBytesPlaced.fetch (h : FlagBytesPlaced n s) (hi : i < n) (hfirst : i % 8 = 0)
    (hinp : t.inp = s.inp) (hlen : t.inLen = s.inLen) (hip : t.ip = flagIp s i) :
    fetch t = .go (flagByte s (i / 8)) { t with ip := flagIp s (i + 1) } := by
  have hk : i / 8 < (n + 7) / 8 := by omega
  obtain ⟨hlt, -⟩ := h (i / 8) hk
  have hinLen := s.inLen.isLt
  have hat : t.ip.toNat = s.ip.toNat + i / 8 := by
    rw [hip, flagIp, show (i + 7) / 8 = i / 8 by omega, BitVec.toNat_add, BitVec.toNat_ofNat]
    omega
  rw [fetch_of_lt (BitVec.lt_def.2 (by rw [hat, hlen]; exact hlt))
    (by rw [hat, readIn_congr hinp]; exact h.readIn_eq hk), flagIp_succ_of_first hfirst, hip]

/-- The flags that `n` reads return, each as a bit of its flag byte. -/
theorem FlagBytesPlaced.getElem?_flags {bit : Byte → Nat → Bool} (h : FlagBytesPlaced n s) (hi : i < n) :
    ((List.range n).map fun i => bit (flagByte s (i / 8)) (i % 8))[i]? =
      (readIn s (s.ip.toNat + i / 8)).map fun b => bit b (i % 8) := by
  rw [h.readIn_eq (by omega), List.getElem?_map, List.getElem?_range hi, Option.map_some, Option.map_some]

/-! ## FLAGR_A_GET -/

/-- Format A's reader after `i` flags: what is left of the last byte stands at the top of FR_BYTE (spec 42 R180). -/
def FlagsReadA (s : State) (i : Nat) (t : State) : Prop :=
  ∃ b r, t = { s with ip := flagIp s i, frByte := b, frRem := r } ∧ r.toNat = (8 - i % 8) % 8 ∧
    (i % 8 ≠ 0 → b = flagByte s (i / 8) <<< (i % 8))

/-- After `k` left shifts the top bit is the one that was `k` places lower. -/
theorem msb_shiftLeft_eq_getLsbD (b : Byte) {k : Nat} (hk : k < 8) : (b <<< k).msb = b.getLsbD (7 - k) := by
  rw [BitVec.msb_shiftLeft, BitVec.getMsbD_eq_getLsbD, decide_eq_true hk, Bool.true_and]

/-- Flag `i` is its bit of its byte, fetched now (`i % 8 = 0`) or at an earlier flag. -/
theorem flagrAGet_of_flagsRead (h : FlagBytesPlaced n s) (hi : i < n) (ht : FlagsReadA s i t) :
    ∃ u, flagrAGet t = .go ((flagByte s (i / 8)).getLsbD (7 - i % 8)) u ∧ FlagsReadA s (i + 1) u := by
  obtain ⟨b, r, rfl, hrem, hbyte⟩ := ht
  by_cases hfirst : i % 8 = 0
  · have hr : r = 0 := by bv_omega
    have hget := flagrAGet_of_fetch (s := { s with ip := flagIp s i, frByte := b, frRem := r }) hr
      (h.fetch hi hfirst rfl rfl rfl)
    rw [hfirst, ← msb_shiftLeft_eq_getLsbD _ (by decide), BitVec.shiftLeft_zero]
    refine ⟨_, hget, _, _, rfl, ?_, fun _ => ?_⟩
    · rw [show (i + 1) % 8 = 1 by omega]; rfl
    · rw [show (i + 1) % 8 = 1 by omega, show (i + 1) / 8 = i / 8 by omega]
  · have hr : r ≠ 0 := by bv_omega
    have hget := flagrAGet_of_rem (s := { s with ip := flagIp s i, frByte := b, frRem := r }) hr
    rw [← msb_shiftLeft_eq_getLsbD _ (by omega), ← hbyte hfirst]
    refine ⟨_, hget, _, _, by rw [flagIp_succ_of_later hfirst], by bv_omega, fun hlater => ?_⟩
    rw [hbyte hfirst, ← BitVec.shiftLeft_add, show (i + 1) % 8 = i % 8 + 1 by omega,
      show (i + 1) / 8 = i / 8 by omega]

/-- Settles O16, read by read (`flagrAGet_of_flagsRead`). -/
theorem flagReaderAIsMsbFirst : Obligations.FlagReaderAIsMsbFirst := by
  unfold Obligations.FlagReaderAIsMsbFirst
  intro n s hempty hplaced
  have hstart : FlagsReadA s 0 s :=
    ⟨s.frByte, s.frRem, by simp [flagIp], by rw [hempty]; rfl, fun h => absurd rfl h⟩
  obtain ⟨t, hread, b, r, rfl, -, -⟩ :=
    readFlags_of_step (fun _ hi _ ht => flagrAGet_of_flagsRead hplaced hi ht) hstart
  exact ⟨_, _, hread, by simp, fun i hi =>
    FlagBytesPlaced.getElem?_flags (bit := fun b k => b.getLsbD (7 - k)) hplaced hi, rfl⟩

/-! ## FLAGR_B_GET -/

/-- FB_REG as a flag byte is loaded into it under the reload constant `FF00` (spec 42 R185). -/
def loadedReg (b : Byte) : BitVec 16 := 0xFF00 ||| b.setWidth 16

theorem getLsbD_loadedReg (b : Byte) {k : Nat} (hk : k < 8) : (loadedReg b).getLsbD k = b.getLsbD k := by
  have hreload : ∀ j < 8, (0xFF00 : BitVec 16).getLsbD j = false := by decide
  rw [loadedReg, BitVec.getLsbD_or, hreload k hk, Bool.false_or, BitVec.getLsbD_setWidth,
    decide_eq_true (show k < 16 by omega), Bool.true_and]

/-- Format B's reader after `i` flags: FB_REG has been shifted once for each flag of the last byte after its first,
and after the eighth the next shift empties its upper byte (spec 42 R185). -/
def FlagsReadB (s : State) (i : Nat) (t : State) : Prop :=
  ∃ r, t = { s with ip := flagIp s i, fbReg := r } ∧ (i % 8 = 0 → (r >>> 1).extractLsb' 8 8 = 0) ∧
    (i % 8 ≠ 0 → r >>> 1 = loadedReg (flagByte s (i / 8)) >>> (i % 8))

/-- Flag `i` is its bit of its byte, loaded now (`i % 8 = 0`) or at an earlier flag; there the marker bit of the reload
constant is still above bit 7, so nothing is fetched. -/
theorem flagrBGet_of_flagsRead (hreload : s.cfg.bReload = 0xFF00) (h : FlagBytesPlaced n s) (hi : i < n)
    (ht : FlagsReadB s i t) :
    ∃ u, flagrBGet t = .go ((flagByte s (i / 8)).getLsbD (i % 8)) u ∧ FlagsReadB s (i + 1) u := by
  obtain ⟨r, rfl, hempty, hreg⟩ := ht
  by_cases hfirst : i % 8 = 0
  · have hget := flagrBGet_of_fetch (s := { s with ip := flagIp s i, fbReg := r }) (hempty hfirst)
      (h.fetch hi hfirst rfl rfl rfl)
    rw [hreload, ← loadedReg, getLsbD_loadedReg _ (by decide)] at hget
    rw [hfirst]
    refine ⟨_, hget, _, rfl, fun h0 => by omega, fun _ => ?_⟩
    rw [show (i + 1) % 8 = 1 by omega, show (i + 1) / 8 = i / 8 by omega]
  · have hmark : (r >>> 1) >>> (8 + (7 - i % 8)) = 1 := by
      rw [hreg hfirst, ← BitVec.shiftRight_add, show i % 8 + (8 + (7 - i % 8)) = 15 by omega]
      exact reload_marker _
    have hget := flagrBGet_of_marker (s := { s with ip := flagIp s i, fbReg := r }) (highByte_ne_zero hmark)
    have hbit : (r >>> 1).getLsbD 0 = (flagByte s (i / 8)).getLsbD (i % 8) := by
      rw [hreg hfirst, BitVec.getLsbD_ushiftRight, Nat.add_zero, getLsbD_loadedReg _ (by omega)]
    refine ⟨_, hbit ▸ hget, _, by rw [flagIp_succ_of_later hfirst], fun h0 => ?_, fun h0 => ?_⟩
    · rw [show 8 + (7 - i % 8) = 8 by omega] at hmark
      exact highByte_eq_zero hmark
    · rw [hreg hfirst, ← BitVec.shiftRight_add, show (i + 1) % 8 = i % 8 + 1 by omega,
        show (i + 1) / 8 = i / 8 by omega]

/-- Settles O17, read by read (`flagrBGet_of_flagsRead`). -/
theorem flagReaderBIsLsbFirst : Obligations.FlagReaderBIsLsbFirst := by
  unfold Obligations.FlagReaderBIsLsbFirst
  intro n s hreload hreg hplaced
  have hstart : FlagsReadB s 0 s :=
    ⟨s.fbReg, by simp [flagIp], fun _ => by rw [hreg]; rfl, fun h => absurd rfl h⟩
  obtain ⟨t, hread, r, rfl, -, -⟩ :=
    readFlags_of_step (fun _ hi _ ht => flagrBGet_of_flagsRead hreload hplaced hi ht) hstart
  exact ⟨_, _, hread, by simp, fun i hi =>
    FlagBytesPlaced.getElem?_flags (bit := fun b k => b.getLsbD k) hplaced hi, rfl⟩

end Sys2Proof.Machine
end

section
/-! SUPPORT. The encoder's two emissions (spec 43 R203, R204) and its pass (R202, R205, R206): what each does with room
in OUT, and how it stops without. -/

namespace Sys2Proof.Machine

variable {s t u : State}

/-! ## Bytes put -/

/-- The state after PUT_OUT with room (spec 20 R67). -/
def appendOut (v : Byte) (s : State) : State := { writeOut s.op.toNat v s with op := s.op + 1 }

theorem putOut_eq_appendOut {v : Byte} (h : s.op < cap s) : putOut v s = .go () (appendOut v s) := putOut_of_lt h

theorem outAppends_appendOut {v : Byte} {f : Nat → Option Byte} (h : f 0 = some v) :
    OutAppends s (appendOut v s) 1 f := by
  refine (outAppends_of_writeOut (v := v) rfl).congr fun k hk => ?_
  rw [Nat.lt_one_iff.1 hk, h]

/-- What was appended to OUT depends on the memory OUT alone. -/
theorem OutAppends.of_out {n : Nat} {f : Nat → Option Byte} (h : OutAppends s u n f) (ho : t.out = u.out) :
    OutAppends s t n f := by
  obtain ⟨hnew, hkeep⟩ := h
  exact ⟨fun k hk => (readOut_congr ho _).trans (hnew k hk), fun a ha => (readOut_congr ho a).trans (hkeep a ha)⟩

/-- The encoder's ring update with its bytes placed puts them into the ring (spec 43 R204). -/
theorem ringPutInput_appends {n : Nat} {f : Nat → Byte} (hread : ∀ k, k < n → readIn s (s.ip.toNat + k) = some (f k))
    (hn : n ≤ 4096) (hip : s.ip.toNat + n < sizeLimit) :
    ∃ t, ringPutInput n s = .go () t ∧ RingAppends s t n f := by
  induction n generalizing s f with
  | zero => exact ⟨s, rfl, fun _ hk => absurd hk (Nat.not_lt_zero _), fun _ _ => rfl⟩
  | succ n ih =>
    have hfirst : readIn s s.ip.toNat = some (f 0) := hread 0 (Nat.succ_pos n)
    have hip' : (consume 1 (ringPut (f 0) s)).ip.toNat = s.ip.toNat + 1 := by
      rw [sizeLimit] at hip
      rw [consume_ip, ringPut_ip]
      bv_omega
    obtain ⟨t, ht, hring⟩ := ih (s := consume 1 (ringPut (f 0) s)) (f := fun k => f (k + 1))
      (fun k hk => by
        rw [hip', Nat.add_assoc, Nat.add_comm 1 k]
        exact hread (k + 1) (Nat.succ_lt_succ hk))
      (by omega) (by rw [hip']; omega)
    refine ⟨t, ?_, (ringAppends_ringPut (f 0) s).cons rfl hn hring⟩
    rw [ringPutInput, hfirst]
    exact ht

/-- From `s` to `t` the flag `f` was recorded, the bytes `bs` were appended to OUT and `n` bytes of IN were passed and
put into RING; nothing else has changed. -/
def TokenPut (f : Bool) (bs : List Byte) (n : Nat) (s t : State) : Prop :=
  t = { flagwPut f s with
    op := s.op + BitVec.ofNat 32 bs.length
    wr := s.wr + BitVec.ofNat 16 n
    ip := s.ip + BitVec.ofNat 32 n
    out := t.out
    ring := t.ring } ∧
  OutAppends s t bs.length fun k => bs[k]?

/-- A flag as FLAGW_PUT takes it. -/
theorem setWidth_ofBool (f : Bool) : (BitVec.ofBool f).setWidth 8 = if f then (1 : BitVec 8) else 0 := by
  cases f <;> rfl

/-! ## The literal -/

/-- A literal with room (spec 43 R203). -/
theorem emitLiteral_of_lt {b : Byte} (hb : readIn s s.ip.toNat = some b) (h : s.op < cap s) :
    ∃ t, emitLiteral s = .go () t ∧ TokenPut s.cfg.aLitFlag [b] 1 s t ∧ RingAppends s t 1 fun _ => b := by
  have hroom : (flagwPut s.cfg.aLitFlag s).op < cap (flagwPut s.cfg.aLitFlag s) := h
  refine ⟨consume 1 (ringPut b (appendOut b (flagwPut s.cfg.aLitFlag s))), ?_, ⟨rfl, ?_⟩, ringAppends_ringPut b _⟩
  · simp only [emitLiteral, hb, putOut_eq_appendOut hroom, bind_go]
  · exact outAppends_appendOut (s := flagwPut s.cfg.aLitFlag s) rfl

/-- A literal without room (spec 43 R203, R208). -/
theorem emitLiteral_of_not_lt {b : Byte} (hb : readIn s s.ip.toNat = some b) (h : ¬ s.op < cap s) :
    emitLiteral s = .halt (.next (raiseFault .outputOverrun (flagwPut s.cfg.aLitFlag s))) := by
  have hfull : ¬ (flagwPut s.cfg.aLitFlag s).op < cap (flagwPut s.cfg.aLitFlag s) := h
  simp only [emitLiteral, hb, putOut_of_not_lt hfull, bind_halt]

/-- Settles O39: the two branches of PUT_OUT (spec 20 R67). -/
theorem encoderLiteral : Obligations.EncoderLiteral := by
  unfold Obligations.EncoderLiteral
  refine fun s b hb => ⟨fun hroom => ?_, fun hfull => ?_⟩
  · obtain ⟨t, ht, ⟨hframe, hout⟩, hring⟩ := emitLiteral_of_lt hb hroom
    refine ⟨t, ht, by rw [← setWidth_ofBool]; exact hframe, hout.congr fun k hk => ?_, hring⟩
    obtain rfl : k = 0 := Nat.lt_one_iff.1 hk
    rfl
  · exact ⟨_, emitLiteral_of_not_lt hb (BitVec.not_lt.2 hfull), rfl, rfl, rfl, rfl, rfl, rfl, rfl⟩

/-! ## The match -/

/-- The two bytes of a match (spec 30 R106). -/
def matchBytes (s : State) : List Byte :=
  [encMatchByte1 s.cfg s.bestDist.toNat s.bestLen.toNat, encMatchByte2 s.bestDist.toNat]

/-- The flag and the first byte of a match put. -/
def putMatchByte (s : State) : State :=
  appendOut (encMatchByte1 s.cfg s.bestDist.toNat s.bestLen.toNat) (flagwPut (!s.cfg.aLitFlag) s)

/-- The flag and both bytes of a match put. -/
def putMatch (s : State) : State := appendOut (encMatchByte2 s.bestDist.toNat) (putMatchByte s)

/-- PUT_OUT of the first byte of a match (spec 43 R204). -/
theorem emitMatch_of_lt (h : s.op < cap s) :
    emitMatch s = (putOut (encMatchByte2 s.bestDist.toNat) (putMatchByte s)).bind fun _ u =>
      ringPutInput s.bestLen.toNat u := by
  have hroom : (flagwPut (!s.cfg.aLitFlag) s).op < cap (flagwPut (!s.cfg.aLitFlag) s) := h
  rw [emitMatch, putOut_eq_appendOut hroom, bind_go, ← putMatchByte]

/-- A match with room for both its bytes (spec 43 R204). -/
theorem emitMatch_of_room {f : Nat → Byte} (hread : ∀ k, k < s.bestLen.toNat → readIn s (s.ip.toNat + k) = some (f k))
    (hip : s.ip.toNat + s.bestLen.toNat < sizeLimit) (h : s.op.toNat + 2 ≤ (cap s).toNat) :
    ∃ t, emitMatch s = .go () t ∧ TokenPut (!s.cfg.aLitFlag) (matchBytes s) s.bestLen.toNat s t ∧
      RingAppends s t s.bestLen.toNat f := by
  have hlt : s.op < cap s := BitVec.lt_def.2 (by omega)
  have hop : (putMatchByte s).op.toNat = s.op.toNat + 1 := succ_toNat_of_lt hlt
  have hroom : (putMatchByte s).op < cap (putMatchByte s) := BitVec.lt_def.2 (by rw [hop]; exact h)
  obtain ⟨t, ht, hring⟩ := ringPutInput_appends (s := putMatch s) hread (by have := s.bestLen.isLt; omega) hip
  have hframe := ringPutInput_go ht
  refine ⟨t, ?_, ⟨?_, ?_⟩, hring⟩
  · rw [emitMatch_of_lt hlt, putOut_eq_appendOut hroom, bind_go, ← putMatch, ht]
  · have hop2 : s.op + BitVec.ofNat 32 (matchBytes s).length = (putMatch s).op := (BitVec.add_assoc s.op 1 1).symm
    rw [hop2, hframe]
    rfl
  · have hbytes : OutAppends s (putMatch s) 2 fun k => (matchBytes s)[k]? :=
      OutAppends.cons (outAppends_appendOut (s := flagwPut (!s.cfg.aLitFlag) s) rfl) hop (outAppends_appendOut rfl)
    have hout : t.out = (putMatch s).out := by rw [hframe]
    exact OutAppends.of_out hbytes hout

/-- A match without room for both its bytes (spec 43 R204, R208). -/
theorem emitMatch_of_no_room (h : (cap s).toNat < s.op.toNat + 2) :
    ∃ u, emitMatch s = .halt (.next (raiseFault .outputOverrun u)) ∧ Working s u := by
  by_cases hlt : s.op < cap s
  · have hop : (putMatchByte s).op.toNat = s.op.toNat + 1 := succ_toNat_of_lt hlt
    have hfull : ¬ (putMatchByte s).op < cap (putMatchByte s) := by
      rw [BitVec.lt_def, hop]
      exact Nat.not_lt.2 (Nat.le_of_lt_succ h)
    exact ⟨putMatchByte s, by rw [emitMatch_of_lt hlt, putOut_of_not_lt hfull, bind_halt], rfl⟩
  · have hfull : ¬ (flagwPut (!s.cfg.aLitFlag) s).op < cap (flagwPut (!s.cfg.aLitFlag) s) := hlt
    exact ⟨flagwPut (!s.cfg.aLitFlag) s, by rw [emitMatch, putOut_of_not_lt hfull, bind_halt], rfl⟩

theorem encMatchByte1_eq {c : Config} {d l : Nat} (hl : l ≤ c.aMinMatch + 15) :
    encMatchByte1 c d l = BitVec.ofNat 8 (d / 256 % 16 * 16 + (l - c.aMinMatch)) := by
  rw [← toNat_encMatchByte1 hl, BitVec.ofNat_toNat, BitVec.setWidth_eq]

theorem encMatchByte2_eq (d : Nat) : encMatchByte2 d = BitVec.ofNat 8 (d % 256) := by
  rw [encMatchByte2]
  bv_omega

/-- Settles O40: two uses of PUT_OUT, and then the ring update over the input bytes (`ringPutInput_appends`). -/
theorem encoderMatch : Obligations.EncoderMatch := by
  unfold Obligations.EncoderMatch
  rintro s l d f rfl rfl - hl hread hip
  refine ⟨fun hroom => ?_, fun hfull => ?_⟩
  · obtain ⟨t, ht, ⟨hframe, hout⟩, hring⟩ := emitMatch_of_room hread hip hroom
    refine ⟨t, ht, ?_, hout.congr fun k hk => ?_, hring⟩
    · have hflag : (if s.cfg.aLitFlag then 0 else 1 : BitVec 8) = (BitVec.ofBool !s.cfg.aLitFlag).setWidth 8 := by
        cases s.cfg.aLitFlag <;> rfl
      rw [hflag]
      exact hframe
    · have hk' : k < 2 := hk
      obtain rfl | rfl : k = 0 ∨ k = 1 := by omega
      · exact congrArg some (encMatchByte1_eq hl)
      · exact congrArg some (encMatchByte2_eq _)
  · obtain ⟨u, e, hu⟩ := emitMatch_of_no_room hfull
    exact ⟨_, e, rfl, rfl, hu.sameCommand.2⟩

/-! ## The pass -/

theorem step_of_enc (hb : s.status = .busy) (ho : s.opsel = 1) : step s = encTurn s := by
  rw [step, machineStep, if_pos hb, engineTurn, if_pos ho]

/-- A pass with input left whose look-ahead is placed (spec 43 R202, R205). -/
theorem encTurn_of_lt (hip : s.ip < s.inLen) (hlook : (lookAhead s).length = lookLimit s) :
    encTurn s = ((emitToken (findMatch (lookAhead s) s)).bind fun _ t => closeIfFull t).result := by
  rw [encTurn, if_pos hip, if_pos hlook]

theorem encTurn_of_not_lt (hip : ¬ s.ip < s.inLen) : encTurn s = .next (encFinish s) := by
  rw [encTurn, if_neg hip]

/-- Settles O38: the pass of `encTurn` with its decision (spec 43 R202) taken either way. -/
theorem encoderPass : Obligations.EncoderPass := by
  unfold Obligations.EncoderPass
  intro s hb ho
  rw [step_of_enc hb ho]
  refine ⟨fun hip hplaced u hu => ?_, fun hip => ⟨_, encTurn_of_not_lt (BitVec.not_lt.2 hip), rfl⟩⟩
  subst hu
  rw [encTurn_of_lt hip (lookAhead_length_of_placed hplaced), emitToken, findMatch_cfg]
  refine ⟨fun hmatch => ?_, fun hlit => ?_⟩
  · rw [if_pos hmatch]
  · rw [if_neg (Nat.not_le.2 hlit)]

end Sys2Proof.Machine
end

section
/-! SUPPORT. The encoder's run as a chain of passes: the token a pass puts (spec 43 R202 to R204), the close of a full
group (R205), and how `runCommand` is such a chain. -/

namespace Sys2Proof.Machine

variable {s t u e : State} {n : Nat}

/-! ## The token of a pass -/

/-- The state of a pass once its search has run (spec 43 R202). -/
def found (s : State) : State := findMatch (lookAhead s) s

theorem found_cfg (s : State) : (found s).cfg = s.cfg := rfl

/-- The token of a match at distance `d` of length `l` (spec 30 R106). -/
def matchToken (c : Config) (d l : Nat) : Instr :=
  .aMatch ((encMatchByte1 c d l).extractLsb' 4 4) ((encMatchByte1 c d l).extractLsb' 0 4) (encMatchByte2 d)

theorem encode_matchToken (s : State) :
    encode s.cfg (matchToken s.cfg s.bestDist.toNat s.bestLen.toNat) = matchBytes s := by
  rw [matchToken, encode, append_nibbles, matchBytes]

/-- The token a pass puts: the match found, or the byte at IP (spec 43 R202). -/
def nextToken (s : State) : Instr :=
  if s.cfg.aMinMatch ≤ (found s).bestLen.toNat then
    matchToken s.cfg (found s).bestDist.toNat (found s).bestLen.toNat
  else .aLit ((lookAhead s).getD 0 0)

/-- How many input bytes that token stands for. -/
def nextLength (s : State) : Nat :=
  if s.cfg.aMinMatch ≤ (found s).bestLen.toNat then (found s).bestLen.toNat else 1

/-- The two choices of a pass (spec 43 R202). -/
theorem nextToken_cases (s : State) :
    (s.cfg.aMinMatch ≤ (found s).bestLen.toNat ∧
      nextToken s = matchToken s.cfg (found s).bestDist.toNat (found s).bestLen.toNat ∧
      nextLength s = (found s).bestLen.toNat ∧ emitToken (found s) = emitMatch (found s)) ∨
    (nextToken s = .aLit ((lookAhead s).getD 0 0) ∧ nextLength s = 1 ∧
      emitToken (found s) = emitLiteral (found s)) := by
  rw [nextToken, nextLength, emitToken, found_cfg]
  split
  · next hmatch => exact .inl ⟨hmatch, rfl, rfl, rfl⟩
  · exact .inr ⟨rfl, rfl, rfl⟩

/-- A literal is one byte for one; a match is two bytes for at least `A_MIN_MATCH`. -/
theorem nextToken_bytes (s : State) :
    (nextToken s).bytes = 1 ∧ nextLength s = 1 ∨ (nextToken s).bytes = 2 ∧ s.cfg.aMinMatch ≤ nextLength s := by
  rcases nextToken_cases s with ⟨hmatch, htok, hlen, -⟩ | ⟨htok, hlen, -⟩ <;> rw [htok, hlen]
  · exact .inr ⟨rfl, hmatch⟩
  · exact .inl ⟨rfl, rfl⟩

/-! ## A pass with input -/

/-- What a pass needs to put a token: input left, and its look-ahead placed (spec 43 R209, log 26). -/
structure HasInput (s : State) : Prop where
  wf : s.cfg.wf = true
  ip_lt : s.ip < s.inLen
  looked : (lookAhead s).length = lookLimit s

theorem readIn_of_lt_lookAhead {k : Nat} (hk : k < (lookAhead s).length) :
    readIn s (s.ip.toNat + k) = some ((lookAhead s).getD k 0) := by
  rw [← lookAhead_getElem? hk, List.getElem?_eq_getElem hk, List.getD_eq_getElem _ _ hk]

theorem HasInput.lookAhead_pos (h : HasInput s) : 0 < (lookAhead s).length := by
  have hwf := h.wf
  have hlt := BitVec.lt_def.1 h.ip_lt
  simp only [Config.wf, Bool.and_eq_true, decide_eq_true_eq] at hwf
  rw [h.looked, lookLimit]
  omega

/-- A token stands for input bytes that are left and have been looked at. -/
theorem HasInput.nextLength_le (h : HasInput s) :
    1 ≤ nextLength s ∧ nextLength s ≤ (lookAhead s).length ∧ s.ip.toNat + nextLength s ≤ s.inLen.toNat := by
  obtain ⟨hmin, -, -, -⟩ := matchRanges_of_wf h.wf
  have hpos := h.lookAhead_pos
  have hlook : (lookAhead s).length ≤ s.inLen.toNat - s.ip.toNat := h.looked.trans_le (Nat.min_le_right _ _)
  have hbest : (found s).bestLen.toNat ≤ (lookAhead s).length := by
    rw [found, findMatch_bestLen, BitVec.toNat_ofNat]
    exact (Nat.mod_le _ _).trans (bestMatch_fst_le_length s _)
  rcases nextToken_cases s with ⟨hmatch, -, hlen, -⟩ | ⟨-, hlen, -⟩ <;> rw [hlen] <;> omega

/-- The token of a pass is put where it has room (spec 43 R203, R204). -/
theorem HasInput.emitToken_of_room (h : HasInput s) (hroom : s.op.toNat + (nextToken s).bytes ≤ (cap s).toNat) :
    ∃ t, emitToken (found s) = .go () t ∧
      TokenPut (flagBit s.cfg (nextToken s)) (encode s.cfg (nextToken s)) (nextLength s) (found s) t := by
  obtain ⟨-, hlook, hleft⟩ := h.nextLength_le
  have hsize := s.inLen.isLt
  rcases nextToken_cases s with ⟨-, htok, hlen, hemit⟩ | ⟨htok, hlen, hemit⟩ <;> rw [htok] at hroom ⊢ <;>
    rw [hlen] at hlook hleft ⊢ <;> rw [hemit]
  · obtain ⟨t, ht, hput, -⟩ := emitMatch_of_room (s := found s)
      (fun k hk => readIn_of_lt_lookAhead (s := s) (hk.trans_le hlook)) (hleft.trans_lt hsize) hroom
    exact ⟨t, ht, encode_matchToken (found s) ▸ hput⟩
  · obtain ⟨t, ht, hput, -⟩ := emitLiteral_of_lt (s := found s) (readIn_of_lt_lookAhead (s := s) hlook)
      (BitVec.lt_def.2 hroom)
    exact ⟨t, ht, hput⟩

/-- The token of a pass without room raises OUTPUT_OVERRUN (spec 43 R208). -/
theorem HasInput.emitToken_of_no_room (h : HasInput s) (hfull : (cap s).toNat < s.op.toNat + (nextToken s).bytes) :
    ∃ u, emitToken (found s) = .halt (.next (raiseFault .outputOverrun u)) := by
  rcases nextToken_cases s with ⟨-, htok, -, hemit⟩ | ⟨htok, -, hemit⟩ <;> rw [htok] at hfull <;> rw [hemit]
  · obtain ⟨u, e, -⟩ := emitMatch_of_no_room (s := found s) hfull
    exact ⟨u, e⟩
  · have hop : ¬ (found s).op < cap (found s) := Nat.not_lt.2 (Nat.le_of_lt_succ hfull)
    exact ⟨_, emitLiteral_of_not_lt (s := found s) (readIn_of_lt_lookAhead (s := s) h.lookAhead_pos) hop⟩

/-- The cursors and the flag count once the token of a pass is put. -/
theorem HasInput.toNat_of_tokenPut {f : Bool} (h : HasInput s) (hcnt : s.faCnt.toNat ≤ 7)
    (hroom : s.op.toNat + (nextToken s).bytes ≤ (cap s).toNat)
    (hput : TokenPut f (encode s.cfg (nextToken s)) (nextLength s) (found s) t) :
    t.ip.toNat = s.ip.toNat + nextLength s ∧ t.op.toNat = s.op.toNat + (nextToken s).bytes ∧
      t.faCnt.toNat = s.faCnt.toNat + 1 := by
  obtain ⟨-, -, hleft⟩ := h.nextLength_le
  obtain ⟨hframe, -⟩ := hput
  have hlen := s.inLen.isLt
  have hcap := (cap s).isLt
  rw [hframe, encode_length]
  refine ⟨?_, ?_, ?_⟩
  · change (s.ip + BitVec.ofNat 32 (nextLength s)).toNat = _
    rw [BitVec.toNat_add, BitVec.toNat_ofNat]
    omega
  · change (s.op + BitVec.ofNat 32 (nextToken s).bytes).toNat = _
    rw [BitVec.toNat_add, BitVec.toNat_ofNat]
    omega
  · change (s.faCnt + 1).toNat = _
    bv_omega

/-! ## The close of a group -/

/-- A full group closed: its flag byte filled, and the slot of the next one reserved (spec 42 R173). -/
def closed (s : State) : State :=
  { writeOut s.op.toNat 0 (fillSlot s.faAcc s) with op := s.op + 1, faSlot := s.op, faAcc := 0, faCnt := 0 }

/-- What the close after a token did when it went on (spec 43 R205). -/
theorem closeIfFull_go (h : closeIfFull s = .go () t) :
    (s.faCnt.toNat ≠ 8 ∧ t = s) ∨ (s.faCnt.toNat = 8 ∧ s.op < cap s ∧ t = closed s) := by
  by_cases hf : s.faCnt.toNat = 8
  · rw [closeIfFull_of_eq hf] at h
    by_cases hroom : s.op < cap s
    · rw [flagwClose_of_lt hroom] at h
      cases h
      exact .inr ⟨hf, hroom, rfl⟩
    · rw [flagwClose_of_not_lt hroom] at h
      cases h
  · rw [closeIfFull_of_ne hf] at h
    cases h
    exact .inl ⟨hf, rfl⟩

/-- How the close after a token stops (spec 42 R171, R173). -/
theorem closeIfFull_halt {r : Result} (h : closeIfFull s = .halt r) :
    s.faCnt.toNat = 8 ∧ ¬ s.op < cap s ∧ ∃ w, r = .next (raiseFault .outputOverrun w) := by
  by_cases hf : s.faCnt.toNat = 8
  · rw [closeIfFull_of_eq hf] at h
    by_cases hroom : s.op < cap s
    · rw [flagwClose_of_lt hroom] at h
      cases h
    · rw [flagwClose_of_not_lt hroom] at h
      cases h
      exact ⟨hf, hroom, _, rfl⟩
  · rw [closeIfFull_of_ne hf] at h
    cases h

/-! ## The chain of passes -/

/-- A pass of the encoder from `s` to `t` that goes on, with the state `u` in which its token is put. -/
structure Pass (s u t : State) : Prop where
  ip_lt : s.ip < s.inLen
  looked : (lookAhead s).length = lookLimit s
  emit : emitToken (found s) = .go () u
  close : closeIfFull u = .go () t

/-- ENC_A ends in DONE in the second state from the first, pass after pass. -/
inductive EncRun : State → State → Prop
  | done {s : State} (hip : ¬ s.ip < s.inLen) : EncRun s (encFinish s)
  | pass {s u t e : State} (hpass : Pass s u t) (hrest : EncRun t e) : EncRun s e

theorem EncRun.status (h : EncRun s e) : e.status = .done := by
  induction h with
  | done _ => rfl
  | pass _ _ ih => exact ih

theorem EncRun.outLen (h : EncRun s e) : e.outLen = e.op := by
  induction h with
  | done _ => rfl
  | pass _ _ ih => exact ih

theorem working_of_emitToken (hemit : emitToken (found s) = .go () u) : Working s u := by
  have hu := emitToken_works (s₀ := s) (s := found s) rfl
  rwa [hemit] at hu

/-- A pass works for the running command. -/
theorem Pass.working (h : Pass s u t) : Working s t := by
  have ht := closeIfFull_works (working_of_emitToken h.emit)
  rwa [h.close] at ht

theorem Pass.hasInput (h : Pass s u t) (hwf : s.cfg.wf = true) : HasInput s := ⟨hwf, h.ip_lt, h.looked⟩

theorem Pass.encTurn_eq (h : Pass s u t) : encTurn s = .next t := by
  rw [encTurn_of_lt h.ip_lt h.looked, ← found, h.emit, bind_go, h.close, result_go]

/-- A pass that goes on had room for its token, and put it. -/
theorem Pass.tokenPut (h : Pass s u t) (hwf : s.cfg.wf = true) :
    s.op.toNat + (nextToken s).bytes ≤ (cap s).toNat ∧
    TokenPut (flagBit s.cfg (nextToken s)) (encode s.cfg (nextToken s)) (nextLength s) (found s) u := by
  have hin := h.hasInput hwf
  by_cases hroom : s.op.toNat + (nextToken s).bytes ≤ (cap s).toNat
  · obtain ⟨v, hv, hput⟩ := hin.emitToken_of_room hroom
    cases h.emit.symm.trans hv
    exact ⟨hroom, hput⟩
  · obtain ⟨w, hw⟩ := hin.emitToken_of_no_room (Nat.not_le.1 hroom)
    cases h.emit.symm.trans hw

/-- A turn of the encoder that has a next state finishes, faults, or is a pass. -/
theorem encTurn_cases (h : encTurn s = .next t) :
    (¬ s.ip < s.inLen ∧ t = encFinish s) ∨ t.status = .fault ∨
    ∃ u, Pass s u t := by
  by_cases hip : s.ip < s.inLen
  · by_cases hlook : (lookAhead s).length = lookLimit s
    · rw [encTurn_of_lt hip hlook, ← found] at h
      have hworks : ((emitToken (found s)).bind fun _ t => closeIfFull t).Works s :=
        (emitToken_works rfl).bind fun _ _ ht => closeIfFull_works ht
      rcases hworks.result h with ⟨_, hgo, -⟩ | hf
      · obtain ⟨_, u, hemit, hclose⟩ := bind_eq_go.1 hgo
        exact .inr (.inr ⟨u, hip, hlook, hemit, hclose⟩)
      · exact .inr (.inl hf.status)
    · rw [encTurn, if_pos hip, if_neg hlook] at h
      cases h
  · rw [encTurn_of_not_lt hip] at h
    cases h
    exact .inl ⟨hip, rfl⟩

theorem runToEnd_of_not_busy (h : s.status ≠ .busy) : runToEnd n s = .next s := by
  cases n with
  | zero => rfl
  | succ n => rw [runToEnd, if_neg h]

theorem runToEnd_succ (hb : s.status = .busy) (h : step s = .next t) : runToEnd (n + 1) s = runToEnd n t := by
  rw [runToEnd, if_pos hb, h]

/-- A running command that has ended within `n + 1` steps made one. -/
theorem runToEnd_succ_next (hb : s.status = .busy) (h : runToEnd (n + 1) s = .next e) :
    ∃ t, step s = .next t ∧ runToEnd n t = .next e := by
  rw [runToEnd, if_pos hb] at h
  split at h
  · next t ht => exact ⟨t, ht, h⟩
  · cases h
  · cases h

/-- A run of ENC_A to DONE is a chain of passes. -/
theorem encRun_of_runToEnd (hb : s.status = .busy) (ho : s.opsel = 1) (h : runToEnd n s = .next e)
    (hd : e.status = .done) : EncRun s e := by
  induction n generalizing s with
  | zero =>
    cases h
    rw [hb] at hd
    cases hd
  | succ n ih =>
    obtain ⟨t, ht, hrun⟩ := runToEnd_succ_next hb h
    rw [step_of_enc hb ho] at ht
    rcases encTurn_cases ht with ⟨hip, rfl⟩ | hf | ⟨u, hpass⟩
    · rw [runToEnd_of_not_busy (fun hb' => by cases hb')] at hrun
      cases hrun
      exact .done hip
    · rw [runToEnd_of_not_busy (by rw [hf]; decide)] at hrun
      cases hrun
      rw [hf] at hd
      cases hd
    · have hw := hpass.working
      exact .pass hpass (ih (hw.status.trans hb) (hw.opsel.trans ho) hrun)

/-- However long ENC_A is run, where it has ended it has ended as the chain of passes does. -/
theorem EncRun.eq_of_runToEnd (h : EncRun s e) (hb : s.status = .busy) (ho : s.opsel = 1)
    (hrun : runToEnd n s = .next t) (ht : t.status ≠ .busy) : t = e := by
  induction h generalizing n with
  | done hip =>
    cases n with
    | zero => cases hrun; exact absurd hb ht
    | succ n =>
      rw [runToEnd_succ hb ((step_of_enc hb ho).trans (encTurn_of_not_lt hip)),
        runToEnd_of_not_busy (fun hb' => by cases hb')] at hrun
      cases hrun
      rfl
  | pass hpass _ ih =>
    cases n with
    | zero => cases hrun; exact absurd hb ht
    | succ n =>
      have hw := hpass.working
      rw [runToEnd_succ hb ((step_of_enc hb ho).trans hpass.encTurn_eq)] at hrun
      exact ih (hw.status.trans hb) (hw.opsel.trans ho) hrun

/-! ## The command -/

theorem startCommand_of_encA (ho : s.opsel = 1) : startCommand s = exec .encA s := by
  rw [startCommand, ho]
  rfl

/-- ENC_A with room for its first flag slot runs from `encStart` (spec 43 R201). -/
theorem runCommand_encA_of_lt (hl : Launchable s) (ho : s.opsel = 1) (h : 0 < s.outCap) :
    runCommand s = runToEnd (stepBound (encStart s)) (encStart s) := by
  rw [runCommand, startCommand_of_encA ho, exec_encA_of_lt hl (by rwa [cap_of_enc ho])]

/-- ENC_A without room for its first flag slot (spec 43 R201, R208). -/
theorem runCommand_encA_of_not_lt (hl : Launchable s) (ho : s.opsel = 1) (h : ¬ 0 < s.outCap) :
    ∃ u, runCommand s = .next (raiseFault .outputOverrun u) := by
  refine ⟨encInit { s with faSlot := 0 }, ?_⟩
  rw [runCommand, startCommand_of_encA ho, exec_encA_of_not_lt hl (by rwa [cap_of_enc ho])]
  exact runToEnd_of_not_busy (fun hb => by cases hb)

/-- An ENC_A that ended in DONE is a chain of passes from `encStart`. -/
theorem encRun_of_runCommand (hl : Launchable s) (ho : s.opsel = 1) (h : runCommand s = .next e)
    (hd : e.status = .done) : 0 < s.outCap ∧ EncRun (encStart s) e := by
  by_cases hcap : 0 < s.outCap
  · rw [runCommand_encA_of_lt hl ho hcap] at h
    exact ⟨hcap, encRun_of_runToEnd rfl ho h hd⟩
  · obtain ⟨u, e⟩ := runCommand_encA_of_not_lt hl ho hcap
    rw [e] at h
    cases h
    cases hd

end Sys2Proof.Machine
end

section
/-! SUPPORT. The capacity of ENC_A (spec 43 R207, R208). Two facts about a pass carry the claim: it does the same under
any other capacity that holds what it appends (`AgreesUpTo`), and what it appends is in proportion to the input it
takes (`Encoding.bound`). -/

namespace Sys2Proof.Machine

variable {α β : Type} {s t u e : State} {c : Size} {n : Nat}

/-! ## The search and the result under another capacity -/

theorem hist_congr (h : ringSide t = ringSide s) (look : List Byte) (d k : Nat) :
    hist t look d k = hist s look d k := by
  simp only [ringSide, Prod.mk.injEq] at h
  obtain ⟨hcfg, hring, hwr⟩ := h
  simp only [hist, ringHist, hcfg, hwr, ringGet_congr hring hcfg]

theorem runLen_congr (h : ringSide t = ringSide s) (look : List Byte) (d k : Nat) (bs : List Byte) :
    runLen t look d k bs = runLen s look d k bs := by
  induction bs generalizing k with
  | nil => rfl
  | cons b bs ih => simp only [runLen, hist_congr h, ih]

theorem scan_congr (h : ringSide t = ringSide s) (look : List Byte) (n d : Nat) (best : Nat × Nat) :
    scan t look n d best = scan s look n d best := by
  have hcfg : t.cfg = s.cfg := congrArg Prod.fst h
  have hlen (d : Nat) : matchLen t look d = matchLen s look d := runLen_congr h look d 0 look
  induction n generalizing d best with
  | zero => rfl
  | succ n ih => rw [scan, scan, hlen, hcfg, ih, ih]

/-- The search reads the ring side and the look-ahead alone (spec 41 R158). -/
theorem bestMatch_congr (h : ringSide t = ringSide s) (look : List Byte) : bestMatch t look = bestMatch s look := by
  rw [bestMatch, scan_congr h, show t.cfg = s.cfg from congrArg Prod.fst h, bestMatch]

theorem outRun_congr (h : t.out = s.out) (n a : Nat) : outRun t n a = outRun s n a := by
  induction n generalizing a with
  | zero => rfl
  | succ n ih => simp only [outRun, readOut_congr h, ih]

/-- `s` with another capacity. -/
def withCap (c : Size) (s : State) : State := { s with outCap := c }

theorem lookAhead_withCap (c : Size) (s : State) : lookAhead (withCap c s) = lookAhead s :=
  inRun_congr (s := s) (t := withCap c s) rfl rfl _ _

theorem found_withCap (c : Size) (s : State) : found (withCap c s) = withCap c (found s) := by
  have hbest : bestMatch (withCap c s) (lookAhead s) = bestMatch s (lookAhead s) :=
    bestMatch_congr (s := s) (t := withCap c s) rfl _
  rw [found, lookAhead_withCap, findMatch, hbest]
  rfl

theorem outBytes_withCap (c : Size) (s : State) : outBytes (withCap c s) = outBytes s :=
  outRun_congr (s := s) (t := withCap c s) rfl _ _

/-! ## A pass under another capacity -/

/-- Where ENC_A's pseudocode `x` goes on from `s`, it does not move OP back, and `y` goes on to the same state but for
the capacity `c`, if that holds what `x` has written. -/
def AgreesUpTo (c : Size) (s : State) (x y : Flow α) : Prop :=
  ∀ a t, x = .go a t → t.opsel = 1 ∧ s.op ≤ t.op ∧ (t.op ≤ c → y = .go a (withCap c t))

theorem AgreesUpTo.bind {x y : Flow α} {f g : α → State → Flow β} (h : AgreesUpTo c s x y)
    (hf : ∀ a t, t.opsel = 1 → AgreesUpTo c t (f a t) (g a (withCap c t))) :
    AgreesUpTo c s (x.bind f) (y.bind g) := by
  intro b u hu
  obtain ⟨a, t, hx, hfu⟩ := bind_eq_go.1 hu
  obtain ⟨ho, hle, hy⟩ := h a t hx
  obtain ⟨ho', hle', hg⟩ := hf a t ho b u hfu
  refine ⟨ho', BitVec.le_trans hle hle', fun hc => ?_⟩
  rw [hy (BitVec.le_trans hle' hc), bind_go, hg hc]

/-- Pseudocode that does not look at the capacity. -/
theorem agreesUpTo_go {a : α} (ho : t.opsel = 1) (hop : t.op = s.op) :
    AgreesUpTo c s (.go a t) (.go a (withCap c t)) := by
  rintro _ _ ⟨⟩
  exact ⟨ho, hop ▸ BitVec.le_refl _, fun _ => rfl⟩

theorem putOut_agreesUpTo (v : Byte) (ho : s.opsel = 1) :
    AgreesUpTo c s (putOut v s) (putOut v (withCap c s)) := by
  intro _ t h
  obtain ⟨hlt, rfl⟩ := putOut_go h
  have hop := succ_toNat_of_lt hlt
  refine ⟨ho, BitVec.le_def.2 (hop ▸ Nat.le_succ _), fun hc => ?_⟩
  have hcap : cap (withCap c s) = c := cap_of_enc (s := withCap c s) ho
  have hle : s.op.toNat + 1 ≤ c.toNat := hop ▸ BitVec.le_def.1 hc
  exact putOut_of_lt (s := withCap c s) (BitVec.lt_def.2 (by rw [hcap]; exact hle))

theorem ringPutInput_agreesUpTo (n : Nat) (ho : s.opsel = 1) :
    AgreesUpTo c s (ringPutInput n s) (ringPutInput n (withCap c s)) := by
  induction n generalizing s with
  | zero => exact agreesUpTo_go ho rfl
  | succ n ih =>
    have hread : readIn (withCap c s) (withCap c s).ip.toNat = readIn s s.ip.toNat := rfl
    simp only [ringPutInput, hread]
    split
    · next b _ => exact ih (s := consume 1 (ringPut b s)) ho
    · rintro _ _ ⟨⟩

theorem emitToken_agreesUpTo (ho : s.opsel = 1) : AgreesUpTo c s (emitToken s) (emitToken (withCap c s)) := by
  have hcond : (withCap c s).cfg.aMinMatch ≤ (withCap c s).bestLen.toNat ↔ s.cfg.aMinMatch ≤ s.bestLen.toNat := Iff.rfl
  simp only [emitToken, hcond]
  split
  · refine (putOut_agreesUpTo (s := flagwPut (!s.cfg.aLitFlag) s) _ ho).bind fun _ t ht => ?_
    exact (putOut_agreesUpTo _ ht).bind fun _ u hu => ringPutInput_agreesUpTo _ hu
  · have hread : readIn (withCap c s) (withCap c s).ip.toNat = readIn s s.ip.toNat := rfl
    simp only [emitLiteral, hread]
    split
    · refine (putOut_agreesUpTo (s := flagwPut s.cfg.aLitFlag s) _ ho).bind fun _ t ht => ?_
      exact agreesUpTo_go ht rfl
    · rintro _ _ ⟨⟩

theorem closeIfFull_agreesUpTo (ho : s.opsel = 1) : AgreesUpTo c s (closeIfFull s) (closeIfFull (withCap c s)) := by
  by_cases hf : s.faCnt.toNat = 8
  · have hf' : (withCap c s).faCnt.toNat = 8 := hf
    rw [closeIfFull_of_eq hf, closeIfFull_of_eq hf']
    refine (putOut_agreesUpTo (s := { fillSlot s.faAcc s with faSlot := s.op }) 0 ho).bind fun _ t ht => ?_
    exact agreesUpTo_go ht rfl
  · have hf' : (withCap c s).faCnt.toNat ≠ 8 := hf
    rw [closeIfFull_of_ne hf, closeIfFull_of_ne hf']
    exact agreesUpTo_go ho rfl

/-- A run of ENC_A to DONE is one under every capacity that holds its payload. -/
theorem EncRun.recapped (h : EncRun s e) (ho : s.opsel = 1) :
    s.op ≤ e.op ∧ (e.op ≤ c → EncRun (withCap c s) (withCap c e)) := by
  induction h with
  | done hip => exact ⟨BitVec.le_refl _, fun _ => .done (s := withCap c _) hip⟩
  | @pass s u t e hpass _ ih =>
    obtain ⟨hou, hsu, hemit'⟩ := emitToken_agreesUpTo (c := c) (s := found s) ho () u hpass.emit
    obtain ⟨hot, hut, hclose'⟩ := closeIfFull_agreesUpTo (c := c) hou () t hpass.close
    obtain ⟨hte, hrun⟩ := ih hot
    refine ⟨BitVec.le_trans hsu (BitVec.le_trans hut hte), fun hc => ?_⟩
    have htc := BitVec.le_trans hte hc
    refine .pass (u := withCap c u) (t := withCap c t) ⟨hpass.ip_lt, ?_, ?_, hclose' htc⟩ (hrun hc)
    · rw [lookAhead_withCap]
      exact hpass.looked
    · rw [found_withCap]
      exact hemit' (BitVec.le_trans hut htc)

/-! ## What a pass appends -/

/-- A state in the run of ENC_A, with at most `m` flags in its group. -/
structure Encoding (m : Nat) (s : State) : Prop where
  busy : s.status = .busy
  enc : s.opsel = 1
  ip_le : s.ip ≤ s.inLen
  op_le : s.op ≤ s.outCap
  cnt_le : s.faCnt.toNat ≤ m
  /-- Nine bytes for each group of eight tokens, and the slot of the next (spec 43 R207). -/
  bound : 2 ≤ s.cfg.aMinMatch → 8 * s.op.toNat + s.faCnt.toNat ≤ 9 * s.ip.toNat + 8

theorem Encoding.cap_eq {m : Nat} (h : Encoding m s) : cap s = s.outCap := cap_of_enc h.enc

theorem encoding_encStart (ho : s.opsel = 1) (h : 0 < s.outCap) : Encoding 7 (encStart s) where
  busy := rfl
  enc := ho
  ip_le := size_zero_le _
  op_le := succ_le_of_lt h
  cnt_le := Nat.zero_le _
  bound := fun _ => Nat.le_refl _

/-- A token with room takes at least one input byte, and `A_MIN_MATCH` if it is two bytes long. -/
theorem Encoding.of_tokenPut {f : Bool} (h : Encoding 7 s) (hin : HasInput s)
    (hroom : s.op.toNat + (nextToken s).bytes ≤ (cap s).toNat)
    (hput : TokenPut f (encode s.cfg (nextToken s)) (nextLength s) (found s) u) : Encoding 8 u ∧ s.ip < u.ip := by
  obtain ⟨hpos, -, hleft⟩ := hin.nextLength_le
  obtain ⟨hip, hop, hcnt⟩ := hin.toNat_of_tokenPut h.cnt_le hroom hput
  have hw : Working s u := by
    obtain ⟨hframe, -⟩ := hput
    rw [hframe]
    rfl
  obtain ⟨hcfg, hopsel, hinLen, houtCap, -⟩ := hw.sameCommand
  refine ⟨⟨hw.status.trans h.busy, hopsel.trans h.enc, ?_, ?_, ?_, fun hmin => ?_⟩, ?_⟩
  · rw [BitVec.le_def, hip, hinLen]
    exact hleft
  · rw [BitVec.le_def, hop, houtCap, ← h.cap_eq]
    exact hroom
  · rw [hcnt]
    exact Nat.succ_le_succ h.cnt_le
  · rw [hcfg] at hmin
    have hbound := h.bound hmin
    have hbytes := nextToken_bytes s
    omega
  · rw [BitVec.lt_def, hip]
    exact Nat.lt_add_of_pos_right hpos

/-- The close of a full group takes the ninth byte of its eight tokens. -/
theorem Encoding.of_closeIfFull (h : Encoding 8 s) (hclose : closeIfFull s = .go () t) :
    Encoding 7 t ∧ t.ip = s.ip := by
  rcases closeIfFull_go hclose with ⟨hne, rfl⟩ | ⟨hfull, hroom, rfl⟩
  · exact ⟨⟨h.busy, h.enc, h.ip_le, h.op_le, Nat.le_of_lt_succ (Nat.lt_of_le_of_ne h.cnt_le hne), h.bound⟩, rfl⟩
  · have hop : (closed s).op.toNat = s.op.toNat + 1 := succ_toNat_of_lt hroom
    refine ⟨⟨h.busy, h.enc, h.ip_le, ?_, Nat.zero_le _, fun hmin => ?_⟩, rfl⟩
    · exact succ_le_of_lt (h.cap_eq ▸ hroom)
    · have hbound := h.bound hmin
      rw [hop]
      change 8 * (s.op.toNat + 1) + 0 ≤ 9 * s.ip.toNat + 8
      omega

/-- How ENC_A can end, from a state `s` of its run; with `A_MIN_MATCH` at least 2 its payload is within `ENC_A_BOUND`,
and it faults for a smaller capacity only (spec 43 R207, R208). -/
def EncEnded (s t : State) : Prop :=
  (t.status = .done ∧ t.inPos = s.inLen ∧ t.outLen ≤ s.outCap ∧
    (2 ≤ s.cfg.aMinMatch → t.outLen.toNat ≤ encABound s.inLen.toNat)) ∨
  (t.status = .fault ∧ t.cause = .outputOverrun ∧
    (2 ≤ s.cfg.aMinMatch → s.outCap.toNat < encABound s.inLen.toNat))

theorem EncEnded.not_busy (h : EncEnded s t) : t.status ≠ .busy := by
  rcases h with ⟨hd, -⟩ | ⟨hf, -⟩
  · rw [hd]; decide
  · rw [hf]; decide

theorem encABound_eq (n : Nat) : encABound n = n + n / 8 + 1 := rfl

theorem Encoding.ended_of_finish {m : Nat} (h : Encoding m s) (hip : ¬ s.ip < s.inLen) : EncEnded s (encFinish s) := by
  have heq : s.ip = s.inLen := BitVec.le_antisymm h.ip_le (BitVec.not_lt.1 hip)
  refine .inl ⟨rfl, heq, h.op_le, fun hmin => ?_⟩
  have hbound := h.bound hmin
  rw [heq] at hbound
  rw [encABound_eq, show (encFinish s).outLen = s.op from rfl]
  omega

theorem encEnded_of_overrun (h : 2 ≤ s.cfg.aMinMatch → s.outCap.toNat < encABound s.inLen.toNat) (w : State) :
    EncEnded s (raiseFault .outputOverrun w) := .inr ⟨rfl, rfl, h⟩

/-- A token without room leaves the capacity below the bound. -/
theorem Encoding.ended_of_no_room (h : Encoding 7 s) (hin : HasInput s)
    (hfull : (cap s).toNat < s.op.toNat + (nextToken s).bytes) (w : State) :
    EncEnded s (raiseFault .outputOverrun w) := by
  refine encEnded_of_overrun (fun hmin => ?_) w
  obtain ⟨-, -, hleft⟩ := hin.nextLength_le
  have hbytes := nextToken_bytes s
  have hbound := h.bound hmin
  rw [h.cap_eq] at hfull
  rw [encABound_eq]
  omega

/-- A full group without room for the next slot leaves the capacity below the bound. -/
theorem Encoding.ended_of_full (h : Encoding 8 u) (hw : Working s u) (hcnt : u.faCnt.toNat = 8)
    (hfull : ¬ u.op < cap u) (w : State) : EncEnded s (raiseFault .outputOverrun w) := by
  obtain ⟨hcfg, -, hinLen, houtCap, -⟩ := hw.sameCommand
  refine encEnded_of_overrun (fun hmin => ?_) w
  rw [← hcfg] at hmin
  have hbound := h.bound hmin
  have hip := BitVec.le_def.1 h.ip_le
  rw [h.cap_eq, BitVec.lt_def] at hfull
  rw [← hinLen, ← houtCap, encABound_eq]
  omega

/-- A pass with input goes on, or ends the run. -/
theorem Encoding.pass (h : Encoding 7 s) (hin : HasInput s) :
    (∃ u t, Pass s u t ∧ Encoding 7 t ∧ s.ip < t.ip) ∨ ∃ t, encTurn s = .next t ∧ EncEnded s t := by
  have hturn := encTurn_of_lt hin.ip_lt hin.looked
  by_cases hroom : s.op.toNat + (nextToken s).bytes ≤ (cap s).toNat
  · obtain ⟨u, hemit, hput⟩ := hin.emitToken_of_room hroom
    obtain ⟨hu, hlt⟩ := h.of_tokenPut hin hroom hput
    cases hclose : closeIfFull u with
    | go _ t =>
      obtain ⟨ht, hip⟩ := hu.of_closeIfFull hclose
      exact .inl ⟨u, t, ⟨hin.ip_lt, hin.looked, hemit, hclose⟩, ht, hip ▸ hlt⟩
    | halt r =>
      obtain ⟨hcnt, hfull, w, rfl⟩ := closeIfFull_halt hclose
      rw [← found, hemit, bind_go, hclose, result_halt] at hturn
      exact .inr ⟨_, hturn, hu.ended_of_full (working_of_emitToken hemit) hcnt hfull w⟩
  · obtain ⟨w, hw⟩ := hin.emitToken_of_no_room (Nat.not_le.1 hroom)
    rw [← found, hw, bind_halt, result_halt] at hturn
    exact .inr ⟨_, hturn, h.ended_of_no_room hin (Nat.not_le.1 hroom) w⟩

/-- With its input placed ENC_A ends within the bound on its steps (spec 60 R313). -/
theorem Encoding.ends (h : Encoding 7 s) (hwf : s.cfg.wf = true) (hplaced : InputPlaced s)
    (hn : s.inLen.toNat - s.ip.toNat < n) : ∃ t, runToEnd n s = .next t ∧ EncEnded s t := by
  induction n generalizing s with
  | zero => exact absurd hn (Nat.not_lt_zero _)
  | succ n ih =>
    have hstep (t : State) (ht : encTurn s = .next t) : runToEnd (n + 1) s = runToEnd n t :=
      runToEnd_succ h.busy ((step_of_enc h.busy h.enc).trans ht)
    have hlast (t : State) (ht : encTurn s = .next t) (he : EncEnded s t) :
        ∃ t, runToEnd (n + 1) s = .next t ∧ EncEnded s t :=
      ⟨t, (hstep t ht).trans (runToEnd_of_not_busy he.not_busy), he⟩
    by_cases hip : s.ip < s.inLen
    · rcases h.pass ⟨hwf, hip, lookAhead_length_of_placed hplaced⟩ with ⟨u, t, hpass, henc, hlt⟩ | ⟨t, ht, he⟩
      · obtain ⟨hcfg, -, hinLen, houtCap, -, hinp⟩ := hpass.working.sameCommand
        have hip' := BitVec.lt_def.1 hip
        have hlt' := BitVec.lt_def.1 hlt
        have hplaced' : InputPlaced t := fun a ha => by
          rw [readIn_congr hinp]
          exact hplaced a (hinLen ▸ ha)
        obtain ⟨v, hv, he⟩ := ih henc (by rw [hcfg]; exact hwf) hplaced' (by rw [hinLen]; omega)
        rw [EncEnded, hinLen, houtCap, hcfg] at he
        exact ⟨v, (hstep t hpass.encTurn_eq).trans hv, he⟩
      · exact hlast t ht he
    · exact hlast _ (encTurn_of_not_lt hip) (h.ended_of_finish hip)

/-! ## The command -/

theorem runCommand_encA_ends (hwf : s.cfg.wf = true) (hl : Launchable s)
    (hplaced : InputPlaced s) (ho : s.opsel = 1) : ∃ t, runCommand s = .next t ∧ EncEnded s t := by
  by_cases hcap : 0 < s.outCap
  · have hsteps : stepBound (encStart s) = s.inLen.toNat - 0 + 1 := by
      rw [stepBound, if_neg (by rw [show (encStart s).opsel = 1 from ho]; decide)]
      rfl
    rw [runCommand_encA_of_lt hl ho hcap, hsteps]
    exact (encoding_encStart ho hcap).ends hwf hplaced (Nat.lt_succ_self _)
  · obtain ⟨w, hw⟩ := runCommand_encA_of_not_lt hl ho hcap
    refine ⟨_, hw, encEnded_of_overrun (fun _ => ?_) w⟩
    exact Nat.lt_of_le_of_lt (Nat.not_lt.1 hcap) (Nat.succ_pos _)

/-- An ENC_A that ends in DONE ends so under every capacity that holds its payload, with the same result. -/
theorem eq_withCap_of_runCommand {v : State} (hl : Launchable s) (ho : s.opsel = 1) (hv : runCommand s = .next v)
    (hd : v.status = .done) (hc : v.outLen ≤ c) (ht : runCommand (withCap c s) = .next t) (hidle : t.status ≠ .busy) :
    t = withCap c v := by
  obtain ⟨-, hrun⟩ := encRun_of_runCommand hl ho hv hd
  rw [hrun.outLen] at hc
  obtain ⟨hpos, hrun'⟩ := hrun.recapped (c := c) ho
  have hcap : 0 < (withCap c s).outCap := BitVec.lt_def.2 (BitVec.le_def.1 (BitVec.le_trans hpos hc))
  rw [runCommand_encA_of_lt (s := withCap c s) hl ho hcap] at ht
  exact (hrun' hc).eq_of_runToEnd rfl ho ht hidle

/-- Settles O58: how ENC_A ends is `runCommand_encA_ends`; two runs that end in DONE are the same but for the capacity,
by `eq_withCap_of_runCommand` used from the one to the other's capacity. -/
theorem encAWithinItsBound : Obligations.EncAWithinItsBound := by
  unfold Obligations.EncAWithinItsBound
  refine ⟨fun n hn => by rw [encABound_eq]; omega, rfl, fun s hwf hmin hl hplaced ho => ?_⟩
  obtain ⟨t, ht, hend⟩ := runCommand_encA_ends hwf hl hplaced ho
  refine ⟨t, ht, ?_, fun c v hv hd => ?_, fun hbound => ?_⟩
  · rcases hend with ⟨hd, -⟩ | ⟨hf, hcause, -⟩
    · exact .inl hd
    · exact .inr ⟨hf, hcause⟩
  · have hfits (hle : v.outLen ≤ s.outCap) : t = withCap s.outCap v :=
      eq_withCap_of_runCommand (s := withCap c s) hl ho hv hd hle ht hend.not_busy
    have hle (htd : t.status = .done) : v.outLen ≤ s.outCap := by
      obtain ⟨-, -, hcap, -⟩ | ⟨hf, -⟩ := hend
      · by_cases hc : t.outLen ≤ c
        · rw [eq_withCap_of_runCommand hl ho ht htd hc hv (by rw [hd]; decide)]
          exact hcap
        · obtain ⟨v', hv', ⟨-, -, hvcap, -⟩ | ⟨hf, -⟩⟩ :=
            runCommand_encA_ends (s := withCap c s) hwf hl hplaced ho
          · cases hv.symm.trans hv'
            exact BitVec.le_trans hvcap (BitVec.le_trans (BitVec.le_of_lt (BitVec.not_le.1 hc)) hcap)
          · cases hv.symm.trans hv'
            cases hd.symm.trans hf
      · cases htd.symm.trans hf
    refine ⟨⟨hle, fun h => by rw [hfits h]; exact hd⟩, fun htd => ?_⟩
    rw [hfits (hle htd)]
    exact ⟨rfl, outBytes_withCap _ v⟩
  · rcases hend with ⟨hd, hpos, -, hlen⟩ | ⟨-, -, hlt⟩
    · exact ⟨hd, hpos, hlen hmin⟩
    · exact absurd hbound (Nat.not_le.2 (hlt hmin))

end Sys2Proof.Machine
end

section
/-! SUPPORT. The payload of ENC_A read from its end: every state of the run agrees with the payload on what it has
written, and the flags recorded so far are the top bits of the byte that will fill their slot (spec 42 R172 to R175). -/

namespace Sys2Proof.Machine

variable {s t u e : State} {n : Nat} {p : List Byte}

/-! ## The encoder between two passes -/

/-- The invariants of the encoder between two passes: IP within IN, the flag writer (spec 42 R176) and the ring
(spec 10 R54). -/
structure EncOk (s : State) : Prop where
  wf : s.cfg.wf = true
  ip_le : s.ip ≤ s.inLen
  writer : WriterOk s
  ring : EncRing s

theorem encOk_encStart (hwf : s.cfg.wf = true) : EncOk (encStart s) where
  wf := hwf
  ip_le := size_zero_le _
  writer := ⟨(by decide : (0 : Size) < 1), Nat.zero_le _, Nat.one_pos⟩
  ring := ringHolds_of_nil rfl rfl

theorem EncOk.of_pass (h : EncOk s) (hpass : Pass s u t) : EncOk t := by
  obtain ⟨hcfg, -⟩ := hpass.working.sameCommand
  obtain ⟨hip, -, hemit, hclose⟩ := hpass
  obtain ⟨n, v, hv, hring, hn⟩ := emitToken_go hip hemit
  have hwriter : WriterOk (findMatch (lookAhead s) s) := h.writer
  obtain ⟨e₁, e₂⟩ := ip_inLen_of_inputSide (closeIfFull_inputSide hclose)
  refine ⟨by rw [hcfg]; exact h.wf, ?_, ?_, h.ring.of_encPassed ⟨n, v, u, hv, hn, hring, hclose⟩⟩
  · rw [e₁, e₂]
    exact ringPutInput_ip_le hring hn
  · exact writerOk_of_closeIfFull ((hwriter.of_appended hv).of_ringPutInput hring) hclose

/-! ## The payload and the states of the run -/

/-- The payload `p` has what the encoder has written in `s`, and in the slot a flag byte that begins with the flags
recorded (spec 42 R172). -/
structure PayloadOf (p : List Byte) (s : State) : Prop where
  op_le : s.op.toNat ≤ p.length
  kept : ∀ a, a < s.op.toNat → a ≠ s.faSlot.toNat → p[a]? = readOut s a
  flags : ∃ b, p[s.faSlot.toNat]? = some b ∧ b >>> (8 - s.faCnt.toNat) = s.faAcc

/-- `p` is the output of `e` up to OP. -/
def IsOutput (p : List Byte) (e : State) : Prop := p.length = e.op.toNat ∧ ∀ a, a < e.op.toNat → p[a]? = readOut e a

/-- Flags aligned to the top come back. -/
theorem shiftLeft_shiftRight_of_lt {a : Byte} {k : Nat} (hk : k ≤ 8) (h : a.toNat < 2 ^ k) :
    a <<< (8 - k) >>> (8 - k) = a := by
  have hpow : 2 ^ k * 2 ^ (8 - k) = 2 ^ 8 := by rw [← Nat.pow_add, Nat.add_sub_of_le hk]
  have hlt : a.toNat * 2 ^ (8 - k) < 2 ^ 8 := hpow ▸ Nat.mul_lt_mul_of_pos_right h (Nat.two_pow_pos _)
  apply BitVec.eq_of_toNat_eq
  rw [BitVec.toNat_ushiftRight, BitVec.toNat_shiftLeft, Nat.shiftLeft_eq, Nat.mod_eq_of_lt hlt,
    Nat.shiftRight_eq_div_pow, Nat.mul_div_cancel _ (Nat.two_pow_pos _)]

/-- At the end the flags are aligned to the top of the last slot (spec 42 R175). -/
theorem payloadOf_of_finish (hw : WriterOk s) (hp : IsOutput p (encFinish s)) : PayloadOf p s := by
  obtain ⟨hslot, hcnt, hacc⟩ := hw
  obtain ⟨hlen, hbytes⟩ := hp
  refine ⟨hlen.ge, fun a ha hne => (hbytes a ha).trans (readOut_fillSlot_other _ s hne),
    s.faAcc <<< (8 - s.faCnt.toNat), ?_, shiftLeft_shiftRight_of_lt (by omega) hacc⟩
  exact (hbytes _ (BitVec.lt_def.1 hslot)).trans (readOut_fillSlot_same _ s)

/-- The close of a group fills its slot for good (spec 42 R173). -/
theorem PayloadOf.of_closed (h : PayloadOf p (closed s)) (hslot : s.faSlot < s.op) (hcnt : s.faCnt.toNat = 8)
    (hroom : s.op < cap s) : PayloadOf p s := by
  have hop : (closed s).op.toNat = s.op.toNat + 1 := succ_toNat_of_lt hroom
  have hlt := BitVec.lt_def.1 hslot
  have hkept (a : Nat) (ha : a < s.op.toNat) : p[a]? = readOut (fillSlot s.faAcc s) a := by
    have hne : a ≠ s.op.toNat := Nat.ne_of_lt ha
    exact (h.kept a (by omega) hne).trans (readOut_writeOut_other 0 (fillSlot s.faAcc s) hne)
  have hle := h.op_le
  refine ⟨by omega, fun a ha hne => (hkept a ha).trans (readOut_fillSlot_other _ s hne), s.faAcc, ?_, ?_⟩
  · rw [hkept _ hlt, readOut_fillSlot_same]
  · rw [hcnt]
    rfl

theorem PayloadOf.of_closeIfFull (h : PayloadOf p t) (hslot : s.faSlot < s.op) (hclose : closeIfFull s = .go () t) :
    PayloadOf p s := by
  rcases closeIfFull_go hclose with ⟨-, rfl⟩ | ⟨hcnt, hroom, rfl⟩
  · exact h
  · exact h.of_closed hslot hcnt hroom

/-- The last flag recorded is the lowest of the top bits, and the flags before it are those above it. -/
theorem shiftRight_of_pushFlag {a b : Byte} {f : Bool} {k : Nat} (hk : k ≤ 7) (ha : a.toNat < 2 ^ k)
    (h : b >>> (8 - (k + 1)) = (a <<< 1) ||| (BitVec.ofBool f).setWidth 8) :
    b >>> (8 - k) = a ∧ b.getLsbD (7 - k) = f := by
  have hpow : 2 ^ k ≤ 2 ^ 7 := Nat.pow_le_pow_right (by decide) hk
  constructor
  · rw [show 8 - k = 8 - (k + 1) + 1 by omega, BitVec.shiftRight_add, h]
    apply BitVec.eq_of_toNat_eq
    have := Bool.toNat_le f
    rw [BitVec.toNat_ushiftRight, toNat_pushFlag f (by omega), Nat.shiftRight_eq_div_pow]
    omega
  · have hbit := congrArg (fun x : Byte => x.getLsbD 0) h
    simp only [getLsbD_pushFlag a f (by decide : 0 < 8), BitVec.getLsbD_ushiftRight, if_true] at hbit
    rw [← hbit]
    congr 1
    omega

/-- What the payload has of a token (spec 30 R91): the flag, in the slot, and then its bytes from OP on. -/
structure TokenAt (p : List Byte) (f : Bool) (bs : List Byte) (s u : State) : Prop where
  flag : ∃ b, p[s.faSlot.toNat]? = some b ∧ b.getLsbD (7 - s.faCnt.toNat) = f
  bytes : p.drop s.op.toNat = bs ++ p.drop u.op.toNat

/-- The payload of a token put is that of the state before it, and has the token. -/
theorem PayloadOf.of_tokenPut {f : Bool} {bs : List Byte} (h : PayloadOf p u) (hw : WriterOk s)
    (hput : TokenPut f bs n (found s) u) (hop : u.op.toNat = s.op.toNat + bs.length) :
    PayloadOf p s ∧ TokenAt p f bs s u := by
  obtain ⟨hslot, hcnt, hacc⟩ := hw
  obtain ⟨hframe, hnew, hkeep⟩ := hput
  obtain ⟨b, hb, hflags⟩ := h.flags
  have hlt := BitVec.lt_def.1 hslot
  have hle := h.op_le
  have hsl : u.faSlot = s.faSlot := by rw [hframe]; rfl
  have hac : u.faAcc = (s.faAcc <<< 1) ||| (BitVec.ofBool f).setWidth 8 := by rw [hframe]; rfl
  have hct : u.faCnt.toNat = s.faCnt.toNat + 1 := by
    rw [hframe]
    show (s.faCnt + 1).toNat = _
    bv_omega
  rw [hsl] at hb
  rw [hct, hac] at hflags
  obtain ⟨hrest, hflag⟩ := shiftRight_of_pushFlag hcnt hacc hflags
  refine ⟨⟨by omega, fun a ha hne => ?_, b, hb, hrest⟩, ⟨b, hb, hflag⟩, ?_⟩
  · exact (h.kept a (by omega) (hsl ▸ hne)).trans (hkeep a (.inl ha))
  · have htake : (p.drop s.op.toNat).take bs.length = bs := by
      refine List.ext_getElem? fun k => ?_
      by_cases hk : k < bs.length
      · rw [List.getElem?_take_of_lt hk, List.getElem?_drop, h.kept _ (by omega) (by rw [hsl]; omega)]
        exact hnew k hk
      · rw [List.getElem?_eq_none (by rw [List.length_take]; omega), List.getElem?_eq_none (by omega)]
    rw [hop, ← List.drop_drop]
    conv_lhs => rw [← List.take_append_drop bs.length (p.drop s.op.toNat), htake]

/-- A pass, read back from the payload of the state it leads to. -/
theorem PayloadOf.of_pass (h : PayloadOf p t) (hok : EncOk s) (hpass : Pass s u t) :
    PayloadOf p s ∧ TokenAt p (flagBit s.cfg (nextToken s)) (encode s.cfg (nextToken s)) s u := by
  obtain ⟨hroom, hput⟩ := hpass.tokenPut hok.wf
  obtain ⟨hslot, hcnt, -⟩ := hok.writer
  obtain ⟨-, hop, -⟩ := (hpass.hasInput hok.wf).toNat_of_tokenPut hcnt hroom hput
  rw [← encode_length s.cfg] at hop
  have hsl : u.faSlot = s.faSlot := by
    obtain ⟨hframe, -⟩ := hput
    rw [hframe]
    rfl
  have hslot' : u.faSlot < u.op := by
    rw [BitVec.lt_def, hsl, hop]
    exact Nat.lt_add_right _ (BitVec.lt_def.1 hslot)
  exact PayloadOf.of_tokenPut (h.of_closeIfFull hslot' hpass.close) hok.writer hput hop

/-- The payload of a run is that of every state of it. -/
theorem EncRun.payloadOf (h : EncRun s e) (hok : EncOk s) (hp : IsOutput p e) : PayloadOf p s := by
  induction h with
  | done _ => exact payloadOf_of_finish hok.writer hp
  | pass hpass _ ih => exact ((ih (hok.of_pass hpass) hp).of_pass hok hpass).1

/-- The result of a command is its output as a list. -/
theorem outRun_getElem? {a : Nat} (h : outRun s n a = some p) :
    p.length = n ∧ ∀ k, k < n → p[k]? = readOut s (a + k) := by
  induction n generalizing a p with
  | zero =>
    cases h
    exact ⟨rfl, fun _ hk => absurd hk (Nat.not_lt_zero _)⟩
  | succ n ih =>
    rw [outRun] at h
    split at h
    · next b bs hb hbs =>
      cases h
      obtain ⟨hlen, hbytes⟩ := ih hbs
      refine ⟨congrArg (· + 1) hlen, fun k hk => ?_⟩
      cases k with
      | zero => exact hb.symm
      | succ k =>
        rw [List.getElem?_cons_succ, hbytes k (Nat.lt_of_succ_lt_succ hk), Nat.add_assoc, Nat.add_comm 1 k]
    · cases h

theorem EncRun.isOutput (h : EncRun s e) (hp : outBytes e = some p) : IsOutput p e := by
  obtain ⟨hlen, hbytes⟩ := outRun_getElem? hp
  rw [h.outLen] at hlen hbytes
  exact ⟨hlen, fun a ha => by rw [hbytes a ha, Nat.zero_add]⟩

end Sys2Proof.Machine
end

section
/-! SUPPORT. The round trip of format A (spec 43 R210): DEC_A on the payload follows the encoder token by token. Their
rings hold the same history (spec 10 R54), so that the token of a pass expands to the input the pass took (spec 41
R160). -/

namespace Sys2Proof.Machine

variable {s t u v w e : State} {n : Nat} {p : List Byte}

/-! ## The same history -/

/-- Two rings that hold the same emitted bytes have the same history. -/
theorem RingHolds.historyByte_eq {k : Nat} {f g : Nat → Option Byte} (h : RingHolds s k f) (h' : RingHolds w k g)
    (hcfg : w.cfg = s.cfg) (hfg : ∀ a, a < k → g a = f a) {d : Nat} (h1 : 1 ≤ d) (hd : d ≤ 4096) :
    historyByte w d = historyByte s d := by
  obtain ⟨-, hs⟩ := h
  obtain ⟨-, hw⟩ := h'
  apply Option.some.inj
  rw [hs d h1 hd, hw d h1 hd, hcfg]
  split
  · exact hfg _ (by omega)
  · rfl

/-- What repeats a history repeats every history that is the same. -/
theorem RepeatsHistory.of_history {d : Nat} {f : Nat → Byte} (h : RepeatsHistory s d n f) (hd : d ≤ 4096)
    (hhist : ∀ j, 1 ≤ j → j ≤ 4096 → historyByte w j = historyByte s j) : RepeatsHistory w d n f := by
  intro k hk
  rw [h k hk]
  split
  · exact (hhist _ (by omega) (by omega)).symm
  · rfl

/-! ## A token decoded -/

/-- From `w` to `v` a token of `m` bytes was decoded, and the bytes `f 0, …, f (n - 1)` were appended. -/
def TokenDecoded (m n : Nat) (f : Nat → Option Byte) (w v : State) : Prop :=
  v = { w with
    ip := w.ip + BitVec.ofNat 32 m
    op := w.op + BitVec.ofNat 32 n
    out := v.out
    ring := v.ring
    wr := v.wr
    rd := v.rd
    dist := v.dist
    len := v.len } ∧
  OutAppends w v n f

theorem exec_aLit_decoded {b : Byte} {f : Nat → Option Byte} (hf : f 0 = some b) (hroom : w.op < cap w) :
    ∃ v, exec (.aLit b) w = .next v ∧ TokenDecoded 1 1 f w v := by
  have hput := putOut_eq_appendOut (v := b) (s := consume 1 w) hroom
  refine ⟨ringPut b (appendOut b (consume 1 w)), ?_, rfl, outAppends_appendOut (s := consume 1 w) hf⟩
  rw [exec, execALit, hput, bind_go, result_go]

/-- The fields of a match token give its distance and length back, and A.MATCH copies from there (spec 30 R106, 44
R226). -/
theorem exec_matchToken_decoded {d : Nat} {f : Nat → Byte} (hwf : w.cfg.wf = true) (h1 : 1 ≤ d) (hd : d ≤ 4096)
    (hmin : w.cfg.aMinMatch ≤ n) (hmax : n ≤ w.cfg.aMinMatch + 15) (hn : n ≤ 4096) (hf : RepeatsHistory w d n f)
    (hroom : w.op.toNat + n ≤ (cap w).toNat) :
    ∃ v, exec (matchToken w.cfg d n) w = .next v ∧ TokenDecoded 2 n (fun k => some (f k)) w v := by
  obtain ⟨-, -, hdist, hlen⟩ :=
    encoderPacking w.cfg d n _ _ _ hwf h1 hd hmin hmax (append_nibbles (encMatchByte1 w.cfg d n)).symm rfl
  have hrd := aReadIndex_eq w.wr (aDist ((encMatchByte1 w.cfg d n).extractLsb' 4 4) (encMatchByte2 d))
  rw [hdist] at hrd
  obtain ⟨v, hv, hout, -⟩ := copyA_appends (s := setMatchA ((encMatchByte1 w.cfg d n).extractLsb' 4 4)
    ((encMatchByte1 w.cfg d n).extractLsb' 0 4) (encMatchByte2 d) (consume 2 w)) h1 hd hn hf hrd hroom
  refine ⟨v, ?_, ?_, hout⟩
  · rw [matchToken, exec_aMatch, hlen, hv, result_go]
  · have hframe := copyA_go hv
    rw [hframe]
    rfl

/-- The match of a pass: its distance and length fit the fields, and its input repeats the history (spec 41 R151). -/
theorem found_match (hwf : s.cfg.wf = true) (hm : s.cfg.matcher = .overlapAware)
    (hmatch : s.cfg.aMinMatch ≤ (found s).bestLen.toNat) :
    1 ≤ (found s).bestDist.toNat ∧ (found s).bestDist.toNat ≤ 4096 ∧
    (found s).bestLen.toNat ≤ s.cfg.aMinMatch + 15 ∧
    RepeatsHistory s (found s).bestDist.toNat (found s).bestLen.toNat fun k => (lookAhead s).getD k 0 := by
  obtain ⟨hpos, hmax15, -, hfar⟩ := matchRanges_of_wf hwf
  have hlook := lookAhead_length_le s
  obtain ⟨-, -, hsome, -, hl, hd⟩ := findMatchIsLongestNearest s (lookAhead s) _ _ hwf hlook rfl
  rw [← hl, ← hd, ← found] at hsome
  obtain ⟨h1, hle, hrun, -⟩ := hsome (hpos.trans hmatch)
  have hlen := matchLen_le_length s (lookAhead s) (found s).bestDist.toNat
  refine ⟨h1, hle.trans hfar, by omega, ?_⟩
  have hrep := repeatsHistory_of_matchLen (look := lookAhead s) hm (found s).bestDist.toNat
  rwa [hrun] at hrep

/-- A decoder with the encoder's history expands the token of a pass to the input the pass takes (spec 41 R160). -/
theorem HasInput.exec_nextToken (h : HasInput s) (hm : s.cfg.matcher = .overlapAware) (hcfg : w.cfg = s.cfg)
    (hhist : ∀ j, 1 ≤ j → j ≤ 4096 → historyByte w j = historyByte s j)
    (hroom : w.op.toNat + nextLength s ≤ (cap w).toNat) :
    ∃ v, exec (nextToken s) w = .next v ∧
      TokenDecoded (nextToken s).bytes (nextLength s) (fun k => readIn s (s.ip.toNat + k)) w v := by
  obtain ⟨-, hlook, -⟩ := h.nextLength_le
  have hread (k : Nat) (hk : k < nextLength s) := readIn_of_lt_lookAhead (s := s) (hk.trans_le hlook)
  rcases nextToken_cases s with ⟨hmatch, htok, hlen, -⟩ | ⟨htok, hlen, -⟩ <;> rw [hlen] at hroom hread ⊢ <;> rw [htok]
  · obtain ⟨h1, hd, hmax, hrep⟩ := found_match h.wf hm hmatch
    have hn : (found s).bestLen.toNat ≤ 4096 := by
      have := (found s).bestLen.isLt
      omega
    have hwf := h.wf
    rw [← hcfg] at hwf hmatch hmax ⊢
    obtain ⟨v, hv, hframe, hout⟩ :=
      exec_matchToken_decoded hwf h1 hd hmatch hmax hn (hrep.of_history hd hhist) hroom
    exact ⟨v, hv, hframe, hout.congr fun k hk => (hread k hk).symm⟩
  · exact exec_aLit_decoded (hread 0 Nat.one_pos) (BitVec.lt_def.2 hroom)

/-! ## The decoder follows the encoder -/

/-- DEC_A's flag reader where the encoder has recorded the flags of `s`: at the flag byte of the next group, or with
the rest of the present one in FR_BYTE (spec 42 R180). -/
def ReaderAt (p : List Byte) (s u : State) : Prop :=
  (s.faCnt.toNat = 0 ∧ s.op.toNat = s.faSlot.toNat + 1 ∧ u.frRem = 0 ∧ u.ip = s.faSlot) ∨
  (s.faCnt.toNat ≠ 0 ∧ u.frRem.toNat = 8 - s.faCnt.toNat ∧ u.ip = s.op ∧
    ∃ b, p[s.faSlot.toNat]? = some b ∧ u.frByte = b <<< s.faCnt.toNat)

/-- DEC_A on the payload `p`, in `u`, has decoded what the encoder has encoded in `s`. -/
structure Follows (p : List Byte) (s u : State) : Prop where
  busy : u.status = .busy
  dec : u.opsel = 2
  cfg : u.cfg = s.cfg
  decl : u.decl = s.inLen
  inLen : u.inLen.toNat = p.length
  inp : InputIs p u
  op : u.op = s.ip
  out : ∀ a, a < s.ip.toNat → readOut u a = readIn s a
  ring : DecRing u
  reader : ReaderAt p s u

theorem Follows.historyByte_eq (h : Follows p s u) (hring : EncRing s) {d : Nat} (h1 : 1 ≤ d) (hd : d ≤ 4096) :
    historyByte u d = historyByte s d := by
  have hdec := h.ring
  rw [DecRing, h.op] at hdec
  exact RingHolds.historyByte_eq hring hdec h.cfg h.out h1 hd

/-- `u` with IP at `ip`, once flag `k` of the flag byte `b` has been taken (spec 42 R180). -/
def flagTaken (b : Byte) (k : Nat) (ip : Size) (u : State) : State :=
  { u with ip := ip, frRem := BitVec.ofNat 4 (7 - k), frByte := b <<< (k + 1) }

/-- The next flag of the payload is read, and IP then stands at the token's bytes. -/
theorem Follows.flagrAGet_eq (h : Follows p s u) (hw : WriterOk s) (hle : s.op.toNat ≤ p.length) {b : Byte}
    (hb : p[s.faSlot.toNat]? = some b) :
    flagrAGet u = .go (b.getLsbD (7 - s.faCnt.toNat)) (flagTaken b s.faCnt.toNat s.op u) := by
  obtain ⟨-, hcnt, -⟩ := hw
  rw [← msb_shiftLeft_eq_getLsbD b (by omega), flagTaken]
  rcases h.reader with ⟨h0, hop, hrem, hip⟩ | ⟨hne, hrem, hip, b', hb', hbyte⟩
  · have hlt : u.ip < u.inLen := by
      rw [BitVec.lt_def, h.inLen, hip]
      omega
    have hread : readIn u u.ip.toNat = some b := by
      rw [hip, h.inp _ (by omega), hb]
    have hnext : u.ip + 1 = s.op := by
      rw [hip]
      bv_omega
    rw [flagrAGet_of_fetch hrem (fetch_of_lt hlt hread), hnext, h0, BitVec.shiftLeft_zero]
    rfl
  · cases hb.symm.trans hb'
    have hrem' : u.frRem - 1 = BitVec.ofNat 4 (7 - s.faCnt.toNat) := by bv_omega
    rw [flagrAGet_of_rem (by bv_omega), hrem', hbyte, BitVec.shiftLeft_add, hip]

/-- The bytes of the payload from the token's first on are unread. -/
theorem Follows.unread (h : Follows p s u) (hle : s.op.toNat ≤ p.length) (b : Byte) (k : Nat) :
    Unread (flagTaken b k s.op u) (p.drop s.op.toNat) (flagTaken b k s.op u) := by
  refine ⟨rfl, rfl, ?_, fun j hj => ?_⟩
  · rw [List.length_drop]
    exact (Nat.add_sub_of_le hle).trans h.inLen.symm
  · rw [List.length_drop] at hj
    rw [List.getElem?_drop]
    exact h.inp _ (Nat.add_lt_of_lt_sub' hj)

theorem spaceOf_nextToken {c : Config} (s : State) : ∃ f, spaceOf c (nextToken s) = .tokenA f := by
  rcases nextToken_cases s with ⟨-, htok, -⟩ | ⟨htok, -⟩ <;> rw [htok]
  · exact ⟨!c.aLitFlag, rfl⟩
  · exact ⟨c.aLitFlag, rfl⟩

/-- The token of a pass is read from the payload and executed. -/
theorem Follows.decATurn_eq (h : Follows p s u) (hw : WriterOk s) (hle : s.op.toNat ≤ p.length) (hip : s.ip < s.inLen)
    (hat : TokenAt p (flagBit s.cfg (nextToken s)) (encode s.cfg (nextToken s)) s t) :
    ∃ b, p[s.faSlot.toNat]? = some b ∧ decATurn u = exec (nextToken s) (flagTaken b s.faCnt.toNat s.op u) := by
  obtain ⟨⟨b, hb, hflag⟩, hbytes⟩ := hat
  refine ⟨b, hb, ?_⟩
  have hun := h.unread hle b s.faCnt.toNat
  have hcfg : (flagTaken b s.faCnt.toNat s.op u).cfg = s.cfg := h.cfg
  rw [hbytes, ← hcfg] at hun
  have htok : StreamToken (flagTaken b s.faCnt.toNat s.op u).cfg .tokenA (nextToken s) :=
    streamToken_of_tokenA (spaceOf_nextToken s)
  rw [decATurn, if_pos (by rw [h.op, h.decl]; exact hip), h.flagrAGet_eq hw hle hb, withFlag, hflag, ← hcfg,
    runToken_of_ok (hun.decode_token htok)]

/-- With one more flag taken and the token's bytes passed, the reader stands where the pass has left the encoder. -/
theorem readerAt_of_pass {b : Byte} (hcnt : s.faCnt.toNat ≤ 7) (hb : p[s.faSlot.toNat]? = some b)
    (hslot : u.faSlot = s.faSlot) (hcnt' : u.faCnt.toNat = s.faCnt.toNat + 1) (hclose : closeIfFull u = .go () t)
    (hip : v.ip = u.op) (hrem : v.frRem = BitVec.ofNat 4 (7 - s.faCnt.toNat))
    (hbyte : v.frByte = b <<< (s.faCnt.toNat + 1)) : ReaderAt p t v := by
  rcases closeIfFull_go hclose with ⟨hne, rfl⟩ | ⟨hfull, hroom, rfl⟩
  · right
    rw [hcnt', hslot]
    exact ⟨Nat.succ_ne_zero _, by rw [hrem]; bv_omega, hip, b, hb, hbyte⟩
  · left
    refine ⟨rfl, succ_toNat_of_lt hroom, ?_, hip⟩
    rw [hrem, show s.faCnt.toNat = 7 by omega]
    rfl

/-- The step of DEC_A at a pass of ENC_A: it takes the flag, and expands the token to the input of the pass. -/
theorem Follows.decATurn_next (h : Follows p s u) (hok : EncOk s) (hm : s.cfg.matcher = .overlapAware)
    (hpass : Pass s w t) (hp : PayloadOf p t) :
    ∃ b v, p[s.faSlot.toNat]? = some b ∧ decATurn u = .next v ∧
      TokenDecoded (nextToken s).bytes (nextLength s) (fun k => readIn s (s.ip.toNat + k))
        (flagTaken b s.faCnt.toNat s.op u) v := by
  have hin := hpass.hasInput hok.wf
  obtain ⟨-, -, hleft⟩ := hin.nextLength_le
  obtain ⟨hps, hat⟩ := hp.of_pass hok hpass
  obtain ⟨b, hb, hturn⟩ := h.decATurn_eq hok.writer hps.op_le hpass.ip_lt hat
  have hop : (flagTaken b s.faCnt.toNat s.op u).op = s.ip := h.op
  have hcap : cap (flagTaken b s.faCnt.toNat s.op u) = s.inLen := by
    have hdec : (flagTaken b s.faCnt.toNat s.op u).opsel = 2 := h.dec
    rw [cap_of_dec (by rw [hdec]; decide)]
    exact h.decl
  obtain ⟨v, hv, hdecoded⟩ := hin.exec_nextToken (w := flagTaken b s.faCnt.toNat s.op u) hm h.cfg
    (fun _ => h.historyByte_eq hok.ring) (by rw [hop, hcap]; exact hleft)
  exact ⟨b, v, hb, hturn.trans hv, hdecoded⟩

/-- A step of DEC_A follows a pass of ENC_A. -/
theorem Follows.of_pass (h : Follows p s u) (hok : EncOk s) (hm : s.cfg.matcher = .overlapAware) (hpass : Pass s w t)
    (hp : PayloadOf p t) : ∃ v, decATurn u = .next v ∧ Follows p t v ∧ s.ip < t.ip := by
  have hin := hpass.hasInput hok.wf
  obtain ⟨hpos, -, -⟩ := hin.nextLength_le
  obtain ⟨hroom, hput⟩ := hpass.tokenPut hok.wf
  obtain ⟨-, hcnt, -⟩ := hok.writer
  obtain ⟨hip, -, hcnt'⟩ := hin.toNat_of_tokenPut hcnt hroom hput
  obtain ⟨hput, -⟩ := hput
  obtain ⟨hcfg, -, hinLen, -, -, hinp⟩ := hpass.working.sameCommand
  obtain ⟨htip, -⟩ := ip_inLen_of_inputSide (closeIfFull_inputSide hpass.close)
  obtain ⟨b, v, hb, hstep, hframe, hnew, hkeep⟩ := h.decATurn_next hok hm hpass hp
  have hop : (flagTaken b s.faCnt.toNat s.op u).op = s.ip := h.op
  have hbusy : v.status = .busy := by
    rw [hframe]
    exact h.busy
  refine ⟨v, hstep, ⟨hbusy, ?_, ?_, ?_, ?_, ?_, ?_, ?_, h.ring.of_decATurn hstep hbusy, ?_⟩, ?_⟩
  · rw [hframe]; exact h.dec
  · rw [hframe, hcfg]; exact h.cfg
  · rw [hframe, hinLen]; exact h.decl
  · rw [hframe]; exact h.inLen
  · have hvinp : v.inp = u.inp := by rw [hframe]; rfl
    exact fun k hk => (readIn_congr hvinp k).trans (h.inp k hk)
  · rw [hframe, htip, hput, hop]
    rfl
  · intro a ha
    rw [htip, hip] at ha
    rw [hop] at hnew hkeep
    rw [readIn_congr hinp]
    by_cases hlt : a < s.ip.toNat
    · exact (hkeep a (.inl hlt)).trans (h.out a hlt)
    · obtain ⟨k, rfl⟩ := Nat.exists_eq_add_of_le (Nat.not_lt.1 hlt)
      exact hnew k (Nat.add_lt_add_iff_left.1 ha)
  · have hslot : w.faSlot = s.faSlot := by rw [hput]; rfl
    have hvip : v.ip = w.op := by rw [hframe, hput, encode_length]; rfl
    refine readerAt_of_pass hcnt hb hslot hcnt' hpass.close hvip ?_ ?_
    · rw [hframe]; rfl
    · rw [hframe]; rfl
  · rw [BitVec.lt_def, htip, hip]
    exact Nat.lt_add_of_pos_right hpos

theorem step_of_decA (hb : s.status = .busy) (ho : s.opsel = 2) : step s = decATurn s := by
  rw [step, machineStep, if_pos hb, engineTurn, if_neg (by rw [ho]; decide), if_pos ho]

/-- DEC_A follows ENC_A to its end. -/
theorem Follows.decodes (h : Follows p s u) (hrun : EncRun s e) (hok : EncOk s) (hm : s.cfg.matcher = .overlapAware)
    (hp : IsOutput p e) (hn : s.inLen.toNat - s.ip.toNat < n) :
    ∃ v, runToEnd n u = .next v ∧ v.status = .done ∧ v.outLen = s.inLen ∧
      ∀ a, a < s.inLen.toNat → readOut v a = readIn s a := by
  induction hrun generalizing u n with
  | @done s hip =>
    obtain ⟨n, rfl⟩ := Nat.exists_eq_succ_of_ne_zero (Nat.ne_zero_of_lt hn)
    have heq : s.ip = s.inLen := BitVec.le_antisymm hok.ip_le (BitVec.not_lt.1 hip)
    have hturn : decATurn u = .next (finish u) := by
      rw [decATurn, if_neg (by rw [h.op, h.decl]; exact hip)]
    refine ⟨finish u, ?_, rfl, h.op.trans heq, fun a ha => h.out a (heq ▸ ha)⟩
    rw [runToEnd_succ h.busy ((step_of_decA h.busy h.dec).trans hturn)]
    exact runToEnd_of_not_busy (fun hb => by cases hb)
  | @pass s w t e hpass hrest ih =>
    obtain ⟨n, rfl⟩ := Nat.exists_eq_succ_of_ne_zero (Nat.ne_zero_of_lt hn)
    have hok' := hok.of_pass hpass
    obtain ⟨v, hv, hfollows, hlt⟩ := h.of_pass hok hm hpass (hrest.payloadOf hok' hp)
    obtain ⟨hcfg, -, hinLen, -, -, hinp⟩ := hpass.working.sameCommand
    have hlt' := BitVec.lt_def.1 hlt
    have hip := BitVec.lt_def.1 hpass.ip_lt
    rw [runToEnd_succ h.busy ((step_of_decA h.busy h.dec).trans hv)]
    have hend := ih hfollows hok' (by rw [hcfg]; exact hm) hp (n := n) (by rw [hinLen]; omega)
    rw [hinLen] at hend
    simpa only [readIn_congr hinp] using hend

/-! ## The command -/

theorem follows_start (hcfg : u.cfg = s.cfg) (ho : u.opsel = 2) (hdecl : u.decl = s.inLen)
    (hlen : u.inLen.toNat = p.length) (hin : InputIs p u) : Follows p (encStart s) (decAStart u) where
  busy := rfl
  dec := ho
  cfg := hcfg
  decl := hdecl
  inLen := hlen
  inp := hin
  op := rfl
  out := fun _ ha => absurd ha (Nat.not_lt_zero _)
  ring := ringHolds_of_nil rfl rfl
  reader := .inl ⟨rfl, rfl, rfl, rfl⟩

theorem runCommand_decA (hl : Launchable u) (ho : u.opsel = 2) :
    runCommand u = runToEnd (stepBound (decAStart u)) (decAStart u) := by
  have hstart : startCommand u = exec .decA u := by
    rw [startCommand, ho]
    rfl
  rw [runCommand, hstart, exec_decA hl]

/-- Settles O59: the payload is that of every state of the encoder's run (`EncRun.payloadOf`), and DEC_A on it follows
that run from its launch on (`Follows.decodes`). -/
theorem decodeAOfEncodeA : Obligations.DecodeAOfEncodeA := by
  unfold Obligations.DecodeAOfEncodeA
  intro s t u p hwf hm hls hos ht hd hp hlu hcfg hou hin hinLen hdecl
  obtain ⟨-, hrun⟩ := encRun_of_runCommand hls hos ht hd
  have hout := hrun.isOutput hp
  have hlen : u.inLen.toNat = p.length := by rw [hinLen, hrun.outLen, hout.1]
  have hsteps : stepBound (decAStart u) = s.inLen.toNat - 0 + 1 := by
    rw [stepBound, if_pos (show (decAStart u).opsel = 2 from hou), show (decAStart u).decl = s.inLen from hdecl]
    rfl
  rw [runCommand_decA hlu hou, hsteps]
  exact (follows_start hcfg hou hdecl hlen hin).decodes hrun (encOk_encStart hwf) hm hout (Nat.lt_succ_self _)

end Sys2Proof.Machine
end

section
/-! SUPPORT. A command's result is a function of its input (spec 44 R236, 45 R260). Two runs of one command on one input
are `Twins` at its launch and after every step of both, and they end alike. -/

namespace Sys2Proof.Machine

variable {α β : Type} {o : BitVec 2} {s u : State} {r q : Result} {x y : Flow α} {n : Nat}

/-! ## Two runs of one command -/

/-- `s` and `u` have the command `o` selected, with one configuration, one effective capacity and one input. -/
structure SameInput (o : BitVec 2) (s u : State) : Prop where
  opsel : s.opsel = o
  opsel_eq : u.opsel = o
  cfg_eq : u.cfg = s.cfg
  inLen_eq : u.inLen = s.inLen
  cap_eq : cap u = cap s
  readIn_eq : ∀ a, a < s.inLen.toNat → readIn u a = readIn s a

/-- `s` and `u` are running the command `o` on one input and stand at the same point of it: they differ only in what the
command reads nowhere before it has written it. -/
structure Twins (o : BitVec 2) (s u : State) : Prop extends SameInput o s u where
  busy : s.status = .busy
  status_eq : u.status = s.status
  cause_eq : u.cause = s.cause
  ip_eq : u.ip = s.ip
  op_eq : u.op = s.op
  out_eq : u.out = s.out
  ring_eq : o ≠ 3 → u.ring = s.ring ∧ u.wr = s.wr
  writer_eq : o = 1 → u.faAcc = s.faAcc ∧ u.faCnt = s.faCnt ∧ u.faSlot = s.faSlot
  readerA_eq : o = 2 → u.frByte = s.frByte ∧ u.frRem = s.frRem
  readerB_eq : o = 3 → u.fbReg = s.fbReg

/-- An outcome after which the command runs no further. -/
def Ended (r : Result) : Prop := ∀ t, r = .next t → t.status ≠ .busy

/-- Two runs end, and the host observes the one as the other. -/
def EndAlike (r q : Result) : Prop := Ended r ∧ Ended q ∧ observed q = observed r

/-- Pseudocode of two runs goes on in twins with one value, or ends alike. -/
def Flow.Alike (o : BitVec 2) : Flow α → Flow α → Prop
  | .go a s, .go b u => b = a ∧ Twins o s u
  | .halt r, .halt q => EndAlike r q
  | _, _ => False

/-- Steps of two runs lead to twins, or end alike. -/
def StepAlike (o : BitVec 2) (r q : Result) : Prop :=
  (∃ s u, r = .next s ∧ q = .next u ∧ Twins o s u) ∨ EndAlike r q

theorem endAlike_fault (f : Fault) : EndAlike (.fault f) (.fault f) :=
  have hended : Ended (.fault f) := fun _ e => by cases e
  ⟨hended, hended, rfl⟩

theorem endAlike_refused (f : Refusal) : EndAlike (.refused f) (.refused f) :=
  have hended : Ended (.refused f) := fun _ e => by cases e
  ⟨hended, hended, rfl⟩

theorem endAlike_next (hs : s.status ≠ .busy) (hu : u.status ≠ .busy) (h : observe u = observe s) :
    EndAlike (.next s) (.next u) := by
  refine ⟨?_, ?_, congrArg Host.Outcome.next h⟩
  · rintro _ ⟨⟩
    exact hs
  · rintro _ ⟨⟩
    exact hu

/-- A raise is observed by its cause alone, whatever the free values are (spec 60 R298, R299). -/
theorem endAlike_raiseFault (f : Cause) (s u : State) : EndAlike (.next (raiseFault f s)) (.next (raiseFault f u)) := by
  refine endAlike_next ?_ ?_ rfl
  all_goals
    rw [raiseFault_status]
    decide

theorem Flow.Alike.cases (h : x.Alike o y) :
    (∃ a s u, x = .go a s ∧ y = .go a u ∧ Twins o s u) ∨ ∃ r q, x = .halt r ∧ y = .halt q ∧ EndAlike r q := by
  cases x with
  | go a s =>
    cases y with
    | go b u =>
      obtain ⟨rfl, hsu⟩ := h
      exact .inl ⟨b, s, u, rfl, rfl, hsu⟩
    | halt => exact h.elim
  | halt r =>
    cases y with
    | go => exact h.elim
    | halt q => exact .inr ⟨r, q, rfl, rfl, h⟩

theorem Flow.Alike.bind {f g : α → State → Flow β} (h : x.Alike o y)
    (hf : ∀ a s u, Twins o s u → (f a s).Alike o (g a u)) : (x.bind f).Alike o (y.bind g) := by
  rcases h.cases with ⟨a, s, u, rfl, rfl, hsu⟩ | ⟨r, q, rfl, rfl, hend⟩
  · exact hf a s u hsu
  · exact hend

theorem Flow.Alike.result (h : x.Alike o y) : StepAlike o x.result y.result := by
  rcases h.cases with ⟨a, s, u, rfl, rfl, hsu⟩ | ⟨r, q, rfl, rfl, hend⟩
  · exact .inl ⟨s, u, rfl, rfl, hsu⟩
  · exact .inr hend

/-! ## What the machine reads of twins -/

theorem Twins.ringSide_eq (h : Twins o s u) (ho : o ≠ 3) : ringSide u = ringSide s := by
  obtain ⟨hring, hwr⟩ := h.ring_eq ho
  rw [ringSide, h.cfg_eq, hring, hwr, ringSide]

theorem Twins.decl_eq (h : Twins o s u) (ho : o ≠ 1) : u.decl = s.decl := by
  have hcap := h.cap_eq
  rwa [cap_of_dec (s := s) (by rwa [h.opsel]), cap_of_dec (s := u) (by rwa [h.opsel_eq])] at hcap

/-- Twins look at the same bytes of IN. -/
theorem Twins.inRun_eq (h : Twins o s u) (n a : Nat) : inRun u n a = inRun s n a := by
  induction n generalizing a with
  | zero => rfl
  | succ n ih =>
    by_cases ha : a < s.inLen.toNat
    · rw [inRun, inRun, h.inLen_eq, if_pos ha, if_pos ha, h.readIn_eq a ha, ih]
    · have hge := Nat.not_lt.1 ha
      rw [inRun_of_ge hge, inRun_of_ge (by rwa [h.inLen_eq])]

/-! ## The shared operations -/

theorem Twins.of_consume (h : Twins o s u) (n : Nat) : Twins o (consume n s) (consume n u) :=
  { h with ip_eq := congrArg (· + BitVec.ofNat 32 n) h.ip_eq }

theorem Twins.of_appendOut (h : Twins o s u) (v : Byte) : Twins o (appendOut v s) (appendOut v u) :=
  { h with
    op_eq := congrArg (· + 1) h.op_eq
    out_eq := by
      change u.out.store none u.op.toNat v = s.out.store none s.op.toNat v
      rw [h.out_eq, h.op_eq] }

theorem Twins.of_ringPut (h : Twins o s u) (b : Byte) : Twins o (ringPut b s) (ringPut b u) :=
  { h with
    ring_eq := fun ho => by
      obtain ⟨hring, hwr⟩ := h.ring_eq ho
      rw [ringPut_ring, ringPut_ring, ringPut_wr, ringPut_wr, h.cfg_eq, hring, hwr]
      exact ⟨rfl, rfl⟩ }

theorem Twins.of_flagwPut (h : Twins o s u) (f : Bool) : Twins o (flagwPut f s) (flagwPut f u) :=
  { h with
    writer_eq := fun ho => by
      obtain ⟨hacc, hcnt, hslot⟩ := h.writer_eq ho
      rw [flagwPut_faAcc, flagwPut_faAcc, flagwPut_faCnt, flagwPut_faCnt, hacc, hcnt]
      exact ⟨rfl, rfl, hslot⟩ }

theorem Twins.of_fillSlot (h : Twins 1 s u) (v : Byte) : Twins 1 (fillSlot v s) (fillSlot v u) :=
  { h with
    out_eq := by
      obtain ⟨-, -, hslot⟩ := h.writer_eq rfl
      rw [fillSlot_out, fillSlot_out, h.out_eq, hslot] }

theorem Twins.fetch_alike (h : Twins o s u) : (fetch s).Alike o (fetch u) := by
  by_cases hlt : s.ip < s.inLen
  · have hlt' : u.ip < u.inLen := by rwa [h.ip_eq, h.inLen_eq]
    have hread : readIn u u.ip.toNat = readIn s s.ip.toNat := by rw [h.ip_eq, h.readIn_eq _ hlt]
    rw [fetch, fetch, if_pos hlt, if_pos hlt', hread]
    split
    · exact ⟨rfl, { h with ip_eq := congrArg (· + 1) h.ip_eq }⟩
    · exact endAlike_fault _
  · have hlt' : ¬ u.ip < u.inLen := by rwa [h.ip_eq, h.inLen_eq]
    rw [fetch_of_not_lt hlt, fetch_of_not_lt hlt']
    exact endAlike_raiseFault _ s u

theorem Twins.putOut_cases (h : Twins o s u) (v : Byte) :
    (putOut v s = .go () (appendOut v s) ∧ putOut v u = .go () (appendOut v u)) ∨
    ∃ r q, putOut v s = .halt r ∧ putOut v u = .halt q ∧ EndAlike r q := by
  by_cases hlt : s.op < cap s
  · exact .inl ⟨putOut_eq_appendOut hlt, putOut_eq_appendOut (by rwa [h.op_eq, h.cap_eq])⟩
  · exact .inr ⟨_, _, putOut_of_not_lt hlt, putOut_of_not_lt (by rwa [h.op_eq, h.cap_eq]), endAlike_raiseFault _ s u⟩

theorem Twins.putOut_alike (h : Twins o s u) (v : Byte) : (putOut v s).Alike o (putOut v u) := by
  rcases h.putOut_cases v with ⟨es, eu⟩ | ⟨r, q, es, eu, hend⟩ <;> rw [es, eu]
  · exact ⟨rfl, h.of_appendOut v⟩
  · exact hend

/-- PUT_OUT, and what follows it: more is known of the states it goes on in than that they are twins. -/
theorem Twins.putOut_bind (h : Twins o s u) {v : Byte} {f g : Unit → State → Flow β}
    (hf : Twins o (appendOut v s) (appendOut v u) → (f () (appendOut v s)).Alike o (g () (appendOut v u))) :
    ((putOut v s).bind f).Alike o ((putOut v u).bind g) := by
  rcases h.putOut_cases v with ⟨es, eu⟩ | ⟨r, q, es, eu, hend⟩ <;> rw [es, eu]
  · exact hf (h.of_appendOut v)
  · exact hend

/-- GET_OUT, and what follows it. -/
theorem Twins.getOut_bind (h : Twins o s u) {d : Nat} {f g : Byte → State → Flow β}
    (hf : ∀ b, (f b s).Alike o (g b u)) : ((getOut d s).bind f).Alike o ((getOut d u).bind g) := by
  rw [getOut, getOut, h.op_eq, readOut_congr h.out_eq]
  split
  · exact endAlike_raiseFault _ s u
  · split
    · exact hf _
    · exact endAlike_fault _

/-- The end in DONE is observed alike: the results are the same OUT up to the same OP. -/
theorem Twins.finish_endAlike (h : Twins o s u) : EndAlike (.next (finish s)) (.next (finish u)) := by
  have hbytes : outBytes (finish u) = outBytes (finish s) := by
    rw [outBytes, outBytes, finish_outLen, finish_outLen, h.op_eq]
    exact outRun_congr (s := finish s) (t := finish u) h.out_eq _ _
  have hobs (v : State) : observe (finish v) = ⟨.done, v.cause, outBytes (finish v), some v.ip⟩ := rfl
  refine endAlike_next ?_ ?_ ?_
  · rw [finish_status]
    decide
  · rw [finish_status]
    decide
  · rw [hobs, hobs, hbytes, h.cause_eq, h.ip_eq]

/-! ## The decoders' tokens -/

theorem Twins.copyA_alike (h : Twins o s u) (ho : o ≠ 3) (hrd : u.rd = s.rd) : (copyA n s).Alike o (copyA n u) := by
  induction n generalizing s u with
  | zero => exact ⟨rfl, h⟩
  | succ n ih =>
    obtain ⟨hring, -⟩ := h.ring_eq ho
    have hbyte : ringGet u u.rd = ringGet s s.rd := by rw [hrd, ringGet_congr hring h.cfg_eq]
    rw [copyA, copyA, hbyte]
    refine h.putOut_bind fun h' => ih (s := copyStep s) ?_ (congrArg (· + 1) hrd)
    exact { h'.of_ringPut (ringGet s s.rd) with }

theorem Twins.copyB_alike (h : Twins o s u) (hdist : u.dist = s.dist) : (copyB n s).Alike o (copyB n u) := by
  induction n generalizing s u with
  | zero => exact ⟨rfl, h⟩
  | succ n ih =>
    rw [copyB, copyB, hdist]
    exact h.getOut_bind fun b => h.putOut_bind fun h' => ih h' hdist

theorem Twins.matchB_alike (h : Twins o s u) (d : BitVec 13) (l : BitVec 9) :
    (matchB d l s).Alike o (matchB d l u) := by
  have hcount : bCopyCount u.cfg l = bCopyCount s.cfg l := by rw [h.cfg_eq]
  rw [matchB, matchB, hcount]
  exact Twins.copyB_alike (s := { s with dist := d, len := l }) { h with } rfl

theorem Twins.exec_tokenA (h : Twins o s u) (ho : o ≠ 3) {i : Instr} {c : Config} {f : Bool}
    (hsp : spaceOf c i = .tokenA f) : StepAlike o (exec i s) (exec i u) := by
  cases i with
  | aLit b =>
    refine Flow.Alike.result (((h.of_consume 1).putOut_alike b).bind fun _ _ _ h' => ?_)
    exact ⟨rfl, h'.of_ringPut b⟩
  | aMatch hi l dLo =>
    have hset : Twins o (setMatchA hi l dLo (consume 2 s)) (setMatchA hi l dLo (consume 2 u)) :=
      { h.of_consume 2 with }
    obtain ⟨-, hwr⟩ := h.ring_eq ho
    rw [exec_aMatch, exec_aMatch, h.cfg_eq]
    exact (hset.copyA_alike ho (congrArg (aReadIndex · (aDist hi dLo)) hwr)).result
  | _ => cases hsp

theorem Twins.endB_alike (h : Twins o s u) (ho : o ≠ 1) : EndAlike (.next (endB s)) (.next (endB u)) := by
  rw [endB, endB, h.op_eq, h.decl_eq ho]
  split
  · exact h.finish_endAlike
  · exact endAlike_raiseFault _ s u

theorem Twins.exec_tokenB (h : Twins o s u) (ho : o ≠ 1) {i : Instr} {c : Config} {f : Bool}
    (hsp : spaceOf c i = .tokenB f) : StepAlike o (exec i s) (exec i u) := by
  cases i with
  | bLit b => exact ((h.of_consume 1).putOut_alike b).result
  | bShort ctl =>
    rw [exec, exec, execBShort, execBShort, h.cfg_eq]
    exact ((h.of_consume 1).matchB_alike _ _).result
  | bLong sel hi dLo =>
    rw [exec, exec, execBLong, execBLong, h.cfg_eq]
    exact ((h.of_consume 2).matchB_alike _ _).result
  | bSuper hi dLo e =>
    rw [exec, exec, execBSuper, execBSuper, h.cfg_eq]
    exact ((h.of_consume 3).matchB_alike _ _).result
  | bEnd sel =>
    have hset : Twins o { consume 2 s with dist := 0 } { consume 2 u with dist := 0 } := { h.of_consume 2 with }
    exact .inr (hset.endB_alike ho)
  | _ => cases hsp

/-- The token of a space at IP, if each token of that space is executed alike. -/
theorem Twins.runToken_alike (h : Twins o s u) {sp : Space}
    (hexec : ∀ i, spaceOf s.cfg i = sp → StepAlike o (exec i s) (exec i u)) :
    StepAlike o (runToken sp s) (runToken sp u) := by
  rw [runToken, runToken, h.cfg_eq, h.ip_eq, h.inRun_eq]
  split
  · next i rest hd =>
    obtain ⟨-, hsp, -⟩ := decodedBytesAreAnEncoding.1 _ _ _ _ _ hd
    exact hexec i hsp.symm
  · right
    rw [missingByte, missingByte, h.ip_eq, h.inRun_eq, h.inLen_eq]
    split
    · exact endAlike_fault _
    · exact endAlike_raiseFault _ s u

theorem Flow.Alike.withFlag {x y : Flow Bool} {sp : Bool → Space} (h : x.Alike o y)
    (hrun : ∀ f s u, Twins o s u → StepAlike o (runToken (sp f) s) (runToken (sp f) u)) :
    StepAlike o (withFlag x sp) (withFlag y sp) := by
  rcases h.cases with ⟨f, s, u, rfl, rfl, hsu⟩ | ⟨r, q, rfl, rfl, hend⟩
  · exact hrun f s u hsu
  · exact .inr hend

/-! ## The decoders' steps -/

theorem Twins.flagrAGet_alike (h : Twins 2 s u) : (flagrAGet s).Alike 2 (flagrAGet u) := by
  have hrefill : (frRefill s).Alike 2 (frRefill u) := by
    obtain ⟨-, hrem⟩ := h.readerA_eq rfl
    rw [frRefill, frRefill, hrem]
    split
    · exact h.fetch_alike.bind fun b t v h' => ⟨rfl, { h' with readerA_eq := fun _ => ⟨rfl, rfl⟩ }⟩
    · exact ⟨rfl, h⟩
  refine hrefill.bind fun _ t v h' => ?_
  obtain ⟨hbyte, hrem⟩ := h'.readerA_eq rfl
  exact ⟨by rw [hbyte], { h' with readerA_eq := fun _ => ⟨by rw [hbyte], by rw [hrem]⟩ }⟩

theorem Twins.flagrBGet_alike (h : Twins 3 s u) : (flagrBGet s).Alike 3 (flagrBGet u) := by
  have hshift : Twins 3 { s with fbReg := s.fbReg >>> 1 } { u with fbReg := s.fbReg >>> 1 } :=
    { h with readerB_eq := fun _ => rfl }
  simp only [flagrBGet, h.readerB_eq rfl]
  split
  · refine hshift.fetch_alike.bind fun b t v h' => ?_
    rw [h.cfg_eq]
    exact ⟨rfl, { h' with readerB_eq := fun _ => rfl }⟩
  · exact ⟨rfl, hshift⟩

theorem Twins.decATurn_alike (h : Twins 2 s u) : StepAlike 2 (decATurn s) (decATurn u) := by
  rw [decATurn, decATurn, h.op_eq, h.decl_eq (by decide)]
  split
  · exact h.flagrAGet_alike.withFlag fun _ _ _ h' => h'.runToken_alike fun _ => h'.exec_tokenA (by decide)
  · exact .inr h.finish_endAlike

theorem Twins.decBTurn_alike (h : Twins 3 s u) : StepAlike 3 (decBTurn s) (decBTurn u) :=
  h.flagrBGet_alike.withFlag fun _ _ _ h' => h'.runToken_alike fun _ => h'.exec_tokenB (by decide)

/-! ## The encoder's step -/

theorem Twins.lookAhead_eq (h : Twins o s u) : lookAhead u = lookAhead s ∧ lookLimit u = lookLimit s := by
  have hlim : lookLimit u = lookLimit s := by rw [lookLimit, h.cfg_eq, h.inLen_eq, h.ip_eq, lookLimit]
  exact ⟨by rw [lookAhead, hlim, h.ip_eq, h.inRun_eq, lookAhead], hlim⟩

/-- The search of twins finds one match (spec 41 R158). -/
theorem Twins.of_found (h : Twins 1 s u) :
    Twins 1 (found s) (found u) ∧ (found u).bestLen = (found s).bestLen ∧ (found u).bestDist = (found s).bestDist := by
  have hbest : bestMatch u (lookAhead u) = bestMatch s (lookAhead s) := by
    rw [h.lookAhead_eq.1, bestMatch_congr (h.ringSide_eq (by decide))]
  simp only [found, findMatch_bestLen, findMatch_bestDist, hbest, and_self, and_true]
  exact { h with }

theorem Twins.ringPutInput_alike (h : Twins o s u) (hn : s.ip.toNat + n ≤ s.inLen.toNat) :
    (ringPutInput n s).Alike o (ringPutInput n u) := by
  induction n generalizing s u with
  | zero => exact ⟨rfl, h⟩
  | succ n ih =>
    have hread := h.readIn_eq s.ip.toNat (by omega)
    rw [ringPutInput, ringPutInput, h.ip_eq, hread]
    split
    · next b _ =>
      refine ih ((h.of_ringPut b).of_consume 1) ?_
      rw [consume_ip, consume_inLen, ringPut_ip, ringPut_inLen]
      bv_omega
    · exact endAlike_fault _

theorem Twins.emitLiteral_alike (h : Twins o s u) (hip : s.ip < s.inLen) :
    (emitLiteral s).Alike o (emitLiteral u) := by
  have hread := h.readIn_eq _ hip
  rw [emitLiteral, emitLiteral, h.ip_eq, h.cfg_eq, hread]
  split
  · next b _ => exact (h.of_flagwPut _).putOut_bind fun h' => ⟨rfl, (h'.of_ringPut b).of_consume 1⟩
  · exact endAlike_fault _

theorem Twins.emitMatch_alike (h : Twins o s u) (hlen : u.bestLen = s.bestLen) (hdist : u.bestDist = s.bestDist)
    (hn : s.ip.toNat + s.bestLen.toNat ≤ s.inLen.toNat) : (emitMatch s).Alike o (emitMatch u) := by
  rw [emitMatch, emitMatch, h.cfg_eq, hlen, hdist]
  exact (h.of_flagwPut _).putOut_bind fun h' => h'.putOut_bind fun h'' => h''.ringPutInput_alike hn

theorem Twins.emitToken_alike (h : Twins 1 s u) (hip : s.ip < s.inLen) :
    (emitToken (found s)).Alike 1 (emitToken (found u)) := by
  obtain ⟨hfound, hlen, hdist⟩ := h.of_found
  rw [emitToken, emitToken, hfound.cfg_eq, hlen]
  split
  · have hle := findMatch_bestLen_le s
    have hlt := BitVec.lt_def.1 hip
    refine hfound.emitMatch_alike hlen hdist ?_
    rw [found, findMatch_ip, findMatch_inLen]
    omega
  · exact hfound.emitLiteral_alike hip

theorem Twins.closeIfFull_alike (h : Twins 1 s u) : (closeIfFull s).Alike 1 (closeIfFull u) := by
  obtain ⟨hacc, hcnt, -⟩ := h.writer_eq rfl
  rw [closeIfFull, closeIfFull, hcnt]
  split
  · have hslot : Twins 1 { fillSlot s.faAcc s with faSlot := s.op } { fillSlot u.faAcc u with faSlot := u.op } := by
      rw [hacc, h.op_eq]
      exact { h.of_fillSlot s.faAcc with writer_eq := fun _ => ⟨hacc, hcnt, rfl⟩ }
    refine hslot.putOut_bind fun h' => ⟨rfl, ?_⟩
    exact { h' with writer_eq := fun _ => ⟨rfl, rfl, h.op_eq⟩ }
  · exact ⟨rfl, h⟩

theorem Twins.encTurn_alike (h : Twins 1 s u) : StepAlike 1 (encTurn s) (encTurn u) := by
  obtain ⟨hlook, hlim⟩ := h.lookAhead_eq
  by_cases hip : s.ip < s.inLen
  · rw [encTurn, encTurn, h.ip_eq, h.inLen_eq, if_pos hip, if_pos hip, hlook, hlim]
    split
    · have hemit := h.emitToken_alike hip
      rw [found, found, hlook] at hemit
      exact Flow.Alike.result (hemit.bind fun _ _ _ h' => h'.closeIfFull_alike)
    · exact .inr (endAlike_fault _)
  · obtain ⟨hacc, hcnt, -⟩ := h.writer_eq rfl
    rw [encTurn_of_not_lt hip, encTurn_of_not_lt (by rwa [h.ip_eq, h.inLen_eq]), encFinish, encFinish, flagwFinish,
      flagwFinish, hacc, hcnt]
    exact .inr (h.of_fillSlot _).finish_endAlike

/-! ## The run -/

theorem Twins.step_alike (h : Twins o s u) : StepAlike o (step s) (step u) := by
  have hbusy : u.status = .busy := h.status_eq.trans h.busy
  simp only [step, machineStep, h.busy, hbusy, if_true, engineTurn, h.opsel, h.opsel_eq]
  split
  · next ho => subst ho; exact h.encTurn_alike
  · split
    · next ho => subst ho; exact h.decATurn_alike
    · split
      · next ho => subst ho; exact h.decBTurn_alike
      · exact .inr (endAlike_refused _)

/-- A run goes on from a step's outcome, for a number of steps that depends on the state reached. -/
def runOn (bound : State → Nat) : Result → Result
  | .next t => runToEnd (bound t) t
  | .fault r => .fault r
  | .refused r => .refused r

theorem runToEnd_succ_eq (hb : s.status = .busy) (n : Nat) : runToEnd (n + 1) s = runOn (fun _ => n) (step s) := by
  rw [runToEnd, if_pos hb]
  rfl

theorem runCommand_eq (s : State) : runCommand s = runOn stepBound (startCommand s) := rfl

theorem runOn_of_ended {bound : State → Nat} (h : Ended r) : runOn bound r = r := by
  cases r with
  | next t => exact runToEnd_of_not_busy (h t rfl)
  | fault => rfl
  | refused => rfl

/-- Runs from steps that are alike are observed alike, if those from twins are. -/
theorem StepAlike.runOn_observed {bound : State → Nat} (h : StepAlike o r q)
    (htwins : ∀ s u, Twins o s u → observed (runToEnd (bound u) u) = observed (runToEnd (bound s) s)) :
    observed (runOn bound q) = observed (runOn bound r) := by
  rcases h with ⟨s, u, rfl, rfl, hsu⟩ | ⟨hr, hq, hobs⟩
  · exact htwins s u hsu
  · rw [runOn_of_ended hr, runOn_of_ended hq, hobs]

theorem observe_of_busy (hb : s.status = .busy) : observe s = ⟨.busy, s.cause, none, none⟩ := by
  rw [observe, hb, if_neg (by decide)]

theorem Twins.runToEnd_observed (h : Twins o s u) (n : Nat) : observed (runToEnd n u) = observed (runToEnd n s) := by
  have hbusy : u.status = .busy := h.status_eq.trans h.busy
  induction n generalizing s u with
  | zero => rw [runToEnd, runToEnd, observed, observed, observe_of_busy hbusy, observe_of_busy h.busy, h.cause_eq]
  | succ n ih =>
    rw [runToEnd_succ_eq hbusy, runToEnd_succ_eq h.busy]
    exact h.step_alike.runOn_observed fun s u hsu => ih hsu (hsu.status_eq.trans hsu.busy)

theorem Twins.stepBound_eq (h : Twins o s u) : stepBound u = stepBound s := by
  rw [stepBound, stepBound, h.opsel, h.opsel_eq, h.op_eq, h.ip_eq, h.inLen_eq]
  split
  · next ho => rw [h.decl_eq (by rw [ho]; decide)]
  · rfl

/-! ## The command -/

/-- What every command's initialisation writes, it writes alike; the ring and the flag registers are each command's
own. -/
theorem SameInput.twins_beginCommand (h : SameInput o s u) (hring : o ≠ 3 → u.ring = s.ring ∧ u.wr = s.wr)
    (hwriter : o = 1 → u.faAcc = s.faAcc ∧ u.faCnt = s.faCnt ∧ u.faSlot = s.faSlot)
    (hreaderA : o = 2 → u.frByte = s.frByte ∧ u.frRem = s.frRem) (hreaderB : o = 3 → u.fbReg = s.fbReg) :
    Twins o (beginCommand s) (beginCommand u) :=
  { h with
    busy := rfl
    status_eq := rfl
    cause_eq := rfl
    ip_eq := rfl
    op_eq := rfl
    out_eq := rfl
    ring_eq := hring
    writer_eq := hwriter
    readerA_eq := hreaderA
    readerB_eq := hreaderB }

theorem SameInput.twins_encStart (h : SameInput 1 s u) : Twins 1 (encStart s) (encStart u) :=
  have hinit : SameInput 1 { ringInit s with faAcc := 0, faCnt := 0, faSlot := 0 }
      { ringInit u with faAcc := 0, faCnt := 0, faSlot := 0 } := { h with }
  { hinit.twins_beginCommand (fun _ => ⟨rfl, congrArg Config.warm h.cfg_eq⟩) (fun _ => ⟨rfl, rfl, rfl⟩) nofun nofun with
    op_eq := rfl
    out_eq := rfl }

theorem SameInput.twins_decAStart (h : SameInput 2 s u) : Twins 2 (decAStart s) (decAStart u) :=
  have hinit : SameInput 2 { ringInit s with frByte := 0, frRem := 0 } { ringInit u with frByte := 0, frRem := 0 } :=
    { h with }
  { hinit.twins_beginCommand (fun _ => ⟨rfl, congrArg Config.warm h.cfg_eq⟩) nofun (fun _ => ⟨rfl, rfl⟩) nofun with }

theorem SameInput.twins_decBStart (h : SameInput 3 s u) : Twins 3 (decBStart s) (decBStart u) :=
  have hinit : SameInput 3 { s with fbReg := 0 } { u with fbReg := 0 } := { h with }
  { hinit.twins_beginCommand (fun ho => absurd rfl ho) nofun nofun (fun _ => rfl) with }

/-- START with OPSEL 0 (spec 60 R305). -/
theorem startCommand_of_noCommand (hl : Launchable s) (ho : s.opsel = 0) :
    startCommand s = .next (raiseFault .badCommand s) := by
  obtain ⟨hb, -⟩ := hl
  rw [startCommand, ho]
  exact if_neg hb

theorem SameInput.startCommand_alike (h : SameInput o s u) (ho : o ≠ 0) (hs : Launchable s) (hu : Launchable u) :
    StepAlike o (startCommand s) (startCommand u) := by
  rw [startCommand, startCommand, h.opsel, h.opsel_eq]
  rcases commandOf_cases o with ⟨h0, -⟩ | ⟨rfl, e⟩ | ⟨rfl, e⟩ | ⟨rfl, e⟩
  · exact absurd h0 ho
  · rw [e]
    by_cases hroom : 0 < cap s
    · rw [exec_encA_of_lt hs hroom, exec_encA_of_lt hu (by rwa [h.cap_eq])]
      exact .inl ⟨_, _, rfl, rfl, h.twins_encStart⟩
    · rw [exec_encA_of_not_lt hs hroom, exec_encA_of_not_lt hu (by rwa [h.cap_eq])]
      exact .inr (endAlike_raiseFault _ _ _)
  · rw [e, exec_decA hs, exec_decA hu]
    exact .inl ⟨_, _, rfl, rfl, h.twins_decAStart⟩
  · rw [e, exec_decB hs, exec_decB hu]
    exact .inl ⟨_, _, rfl, rfl, h.twins_decBStart⟩

/-- The effective capacity is OUT_CAP or DECL, whichever the command selected reads (spec 10 R36). -/
theorem cap_eq_of_opsel (ho : s.opsel ≠ 0) (hu : u.opsel = s.opsel) (houtCap : s.opsel = 1 → u.outCap = s.outCap)
    (hdecl : s.opsel = 2 ∨ s.opsel = 3 → u.decl = s.decl) : cap u = cap s := by
  by_cases h1 : s.opsel = 1
  · rw [cap_of_enc h1, cap_of_enc (hu.trans h1), houtCap h1]
  · rw [cap_of_dec h1, cap_of_dec (by rwa [hu])]
    exact hdecl (by bv_omega)

/-- Settles O60: START leads both to twins or ends both alike, and runs from twins are observed alike, step by step. -/
theorem resultDependsOnInputAlone : Obligations.ResultDependsOnInputAlone := by
  unfold Obligations.ResultDependsOnInputAlone
  intro s u hs hu hcfg hopsel hinLen houtCap hdecl hread
  rw [runCommand_eq, runCommand_eq]
  by_cases ho : s.opsel = 0
  · obtain ⟨hends, hendu, hobs⟩ := endAlike_raiseFault .badCommand s u
    rw [startCommand_of_noCommand hs ho, startCommand_of_noCommand hu (hopsel.trans ho), runOn_of_ended hends,
      runOn_of_ended hendu, hobs]
  · have hsame : SameInput s.opsel s u :=
      ⟨rfl, hopsel, hcfg, hinLen, cap_eq_of_opsel ho hopsel houtCap hdecl, hread⟩
    exact (hsame.startCommand_alike ho hs hu).runOn_observed fun t v htv =>
      htv.stepBound_eq ▸ htv.runToEnd_observed _

end Sys2Proof.Machine
end

section
/-! SUPPORT. How a token is fetched (spec 44 R223, R228, 45 R243, R254), and the steps that run one (44 R222, 45 R242,
70 R332). -/

namespace Sys2Proof.Machine

variable {s t u : State} {sp : Space} {f : Bool} {i : Instr} {bs rest : List Byte} {e : DecodeError}

/-! ## Fetching a token -/

/-- FETCH returns the bytes that looking at IN shows, one after another. -/
theorem fetchRun_of_inRun {n : Nat} (h : inRun s n s.ip.toNat = bs ++ rest) :
    fetchRun bs.length s = .go bs (consume bs.length s) := by
  induction bs generalizing s n with
  | nil => simp [fetchRun, consume]
  | cons b bs ih =>
    obtain ⟨hlt, hread⟩ := inRun_getElem? (s := s) (n := n) (k := 0) (b := b) (by rw [h]; rfl)
    rw [Nat.add_zero] at hlt hread
    have hlt' : s.ip < s.inLen := hlt
    cases n with
    | zero => cases h
    | succ n =>
      rw [inRun_cons hlt hread] at h
      have htail : inRun { s with ip := s.ip + 1 } n (s.ip + 1).toNat = bs ++ rest := by
        rw [succ_toNat_of_lt hlt', inRun_congr (s := s) (t := { s with ip := s.ip + 1 }) rfl rfl]
        exact List.tail_eq_of_cons_eq h
      rw [List.length_cons, fetchRun, fetch_of_lt hlt' hread, bind_go, ih htail, bind_go]
      simp only [consume, advance_succ]

/-- Three bytes are enough for any token (spec 30 R118, R119). -/
theorem length_lt_three_of_error {c : Config} (hsp : sp = .tokenA f ∨ sp = .tokenB f)
    (h : decode c sp bs = .error e) : bs.length < 3 := by
  match bs, h with
  | [], _ | [_], _ | [_, _], _ => simp
  | b1 :: b2 :: b3 :: r, h =>
    have hok : ∃ i r', decode c sp (b1 :: b2 :: b3 :: r) = .ok (i, r') := by
      rcases hsp with rfl | rfl
      · exact decodeTokenA_total c f b1 b2 (b3 :: r)
      · exact decodeTokenB_total c f b1 b2 b3 r
    obtain ⟨_, _, hok⟩ := hok
    cases hok.symm.trans h

/-- A raise within the running command of `s`. -/
theorem raised_raiseFault (c : Cause) (h : Working s u) : Raised c s (raiseFault c u) :=
  ⟨rfl, rfl, h.sameCommand.2⟩

/-- In placed input a token is cut short by IN_LEN alone, and raises INPUT_UNDERRUN (spec 44 R228, 45 R254). -/
theorem runToken_of_error (hsp : sp = .tokenA f ∨ sp = .tokenB f) (hplaced : InputPlaced s)
    (h : decode s.cfg sp (inRun s 3 s.ip.toNat) = .error e) :
    runToken sp s = .next (raiseFault .inputUnderrun s) := by
  have hshort := length_lt_three_of_error hsp h
  have hlen := inRun_length_of_placed hplaced 3 s.ip.toNat
  exact runToken_of_short h (by omega)

/-- Settles O8: what decodes is an encoding (O3), and its bytes are the first of the bytes FETCH returns. -/
theorem tokenFetchIsFetches : Obligations.TokenFetchIsFetches := by
  unfold Obligations.TokenFetchIsFetches
  refine fun s f sp hsp => ⟨fun i rest h => ?_, fun e hplaced h => ?_⟩
  · obtain ⟨-, -, hbytes⟩ := decodedBytesAreAnEncoding.1 _ _ _ _ _ h
    have hfetch := fetchRun_of_inRun hbytes
    rwa [encode_length] at hfetch
  · exact ⟨_, runToken_of_error hsp hplaced h, raised_raiseFault _ (.refl s)⟩

/-- The encoding of a token at IP is executed as that token. -/
theorem runToken_of_encoding (hwf : i.wf s.cfg = true) (h : inRun s 3 s.ip.toNat = encode s.cfg i ++ rest) :
    runToken (spaceOf s.cfg i) s = exec i s :=
  runToken_of_ok (by rw [h]; exact decodeOfEncode _ _ _ hwf)

/-- With no byte left a token raises INPUT_UNDERRUN at once. -/
theorem runToken_of_end (hsp : sp = .tokenA f ∨ sp = .tokenB f) (h : s.inLen ≤ s.ip) :
    runToken sp s = .next (raiseFault .inputUnderrun s) := by
  have hge := BitVec.le_def.1 h
  have hnil : inRun s 3 s.ip.toNat = [] := inRun_of_ge hge
  have herr : decode s.cfg sp (inRun s 3 s.ip.toNat) = .error .truncated := by
    rw [hnil]
    rcases hsp with rfl | rfl <;> rfl
  exact runToken_of_short herr (by rw [hnil]; exact hge)

/-! ## The steps -/

theorem step_of_decB (hb : s.status = .busy) (ho : s.opsel = 3) : step s = decBTurn s := by
  rw [step, machineStep, if_pos hb, engineTurn, if_neg (by rw [ho]; decide), if_neg (by rw [ho]; decide), if_pos ho]

theorem decATurn_of_lt (h : s.op < s.decl) : decATurn s = withFlag (flagrAGet s) .tokenA := if_pos h

theorem decATurn_of_not_lt (h : ¬ s.op < s.decl) : decATurn s = .next (finish s) := if_neg h

/-- Settles O37: the test of OP against DECL comes first (spec 44 R222, R230). -/
theorem decAEndsOnOutputLength : Obligations.DecAEndsOnOutputLength := by
  unfold Obligations.DecAEndsOnOutputLength
  intro s hb ho hle
  rw [step_of_decA hb ho, decATurn_of_not_lt (BitVec.not_lt.2 hle), finish]

/-- A step that reads a flag and then runs the token of its space, once the flag has been read. -/
theorem step_of_flag {x : Flow Bool} {sp : Bool → Space} (hstep : step s = withFlag x sp) (hx : x.Works s)
    (hsp : ∀ f, sp f = .tokenA f ∨ sp f = .tokenB f) (hgo : x = .go f t) :
    step s = runToken (sp f) t ∧
    (∀ i rest, decode t.cfg (sp f) (inRun t 3 t.ip.toNat) = .ok (i, rest) → step s = exec i t) ∧
    (∀ e, InputPlaced s → decode t.cfg (sp f) (inRun t 3 t.ip.toNat) = .error e →
      ∃ u, step s = .next u ∧ Raised .inputUnderrun s u) := by
  subst hgo
  have hrun : step s = runToken (sp f) t := hstep
  have hw : Working s t := hx
  obtain ⟨-, -, hinLen, -⟩ := hw.sameCommand
  refine ⟨hrun, fun i rest hd => hrun.trans (runToken_of_ok hd), fun e hplaced hd => ?_⟩
  have hplaced' : InputPlaced t := fun a ha => by
    rw [readIn_congr hw.inp]
    exact hplaced a (hinLen ▸ ha)
  exact ⟨_, hrun.trans (runToken_of_error (hsp f) hplaced' hd), raised_raiseFault _ hw⟩

/-- FLAGR_A_GET with no flag and no byte left (spec 44 R228). -/
theorem flagrAGet_of_end (hrem : s.frRem = 0) (h : s.inLen ≤ s.ip) :
    flagrAGet s = .halt (.next (raiseFault .inputUnderrun s)) := by
  rw [flagrAGet, frRefill, if_pos hrem, fetch_of_not_lt (BitVec.not_lt.2 h)]
  rfl

/-- FLAGR_B_GET with no flag and no byte left (spec 45 R254). -/
theorem flagrBGet_of_end (hreg : s.fbReg.toNat / 2 < 256) (h : s.inLen ≤ s.ip) :
    flagrBGet s = .halt (.next (raiseFault .inputUnderrun { s with fbReg := s.fbReg >>> 1 })) := by
  have hempty : (s.fbReg >>> 1).extractLsb' 8 8 = 0 := by
    rw [highByte_eq_zero_iff]
    bv_omega
  have hfetch := fetch_of_not_lt (s := { s with fbReg := s.fbReg >>> 1 }) (BitVec.not_lt.2 h)
  simp only [flagrBGet]
  rw [if_pos hempty, hfetch, bind_halt]

/-- Settles O36: both decoders' steps read a flag and then run the token of its space (`step_of_flag`); the host's are
`step_of_host`. -/
theorem stepRunsDecodedInstruction : Obligations.StepRunsDecodedInstruction := by
  unfold Obligations.StepRunsDecodedInstruction
  refine fun s => ⟨fun hb ho hlt => ?_, fun hb ho => ?_, fun hb q hq => ?_, fun hb q i rest hq hd => ?_,
    fun hb q i rest hq hd => ?_⟩
  · have hstep : step s = withFlag (flagrAGet s) .tokenA := (step_of_decA hb ho).trans (decATurn_of_lt hlt)
    refine ⟨fun f t hgo => step_of_flag hstep (flagrAGet_works (.refl s)) (fun _ => .inl rfl) hgo,
      fun hrem hend => ⟨_, ?_, raised_raiseFault _ (.refl s)⟩⟩
    rw [hstep, flagrAGet_of_end hrem hend, withFlag]
  · have hstep : step s = withFlag (flagrBGet s) .tokenB := step_of_decB hb ho
    refine ⟨fun f t hgo => step_of_flag hstep (flagrBGet_works (.refl s)) (fun _ => .inr rfl) hgo,
      fun hreg hend => ⟨_, ?_, raised_raiseFault _ (u := { s with fbReg := s.fbReg >>> 1 }) rfl⟩⟩
    rw [hstep, flagrBGet_of_end hreg hend, withFlag]
  · rw [step_of_host hb hq]
    rfl
  · rw [step_of_host hb hq, hostAct, unwrap]
    simp only [hd]
  · rw [step_of_host hb hq, hostAct, unwrap]
    simp only [hd]

end Sys2Proof.Machine
end

section
/-! SUPPORT. The format A tokens (spec 44 R224 to R227, R232 to R234). A.MATCH is characterised once, as bytes appended
that repeat the history at its distance (`exec_aMatch_repeats`); the statements about distance field 0 and about
distances beyond the bytes emitted read it. -/

namespace Sys2Proof.Machine

variable {s t u : State} {h l : BitVec 4} {lo : Byte} {n : Nat}

/-! ## A.LIT -/

theorem exec_aLit_of_lt (b : Byte) (hroom : s.op < cap s) :
    exec (.aLit b) s = .next (ringPut b (appendOut b (consume 1 s))) := by
  have hput := putOut_eq_appendOut (v := b) (s := consume 1 s) hroom
  rw [exec, execALit, hput, bind_go, result_go]

/-- Settles O18: PUT_OUT with room and RING_PUT; the token is the byte at IP. -/
theorem aLitToken : Obligations.ALitToken := by
  unfold Obligations.ALitToken
  refine fun s => ⟨fun b hroom => ?_, fun b hlt hread => ?_, fun hend => ?_⟩
  · exact ⟨_, exec_aLit_of_lt b hroom, rfl, outAppends_appendOut (s := consume 1 s) rfl, ringAppends_ringPut b _⟩
  · exact runToken_of_encoding (i := .aLit b) rfl (inRun_cons hlt hread)
  · exact ⟨_, runToken_of_end (.inl rfl) hend, raised_raiseFault _ (.refl s)⟩

/-! ## The distance and the bytes of A.MATCH -/

/-- The distance of a match, field 0 standing for 4096 (spec 44 R225, R233). -/
theorem aDistance_aDist (h : BitVec 4) (lo : Byte) :
    aDistance (aDist h lo) = if h = 0 ∧ lo = 0 then 4096 else h.toNat * 256 + lo.toNat := by
  have hzero : aDist h lo = 0 ↔ h = 0 ∧ lo = 0 := by
    rw [← BitVec.toNat_inj, toNat_aDist]
    bv_omega
  rw [aDistance, toNat_aDist]
  simp only [hzero]

theorem aDistance_aDist_bounds (h : BitVec 4) (lo : Byte) :
    1 ≤ aDistance (aDist h lo) ∧ aDistance (aDist h lo) ≤ 4096 := by
  rw [aDistance_aDist]
  split
  · decide
  · bv_omega

/-- The last `d` bytes of history, repeated, are what COPY_A appends (spec 44 R232). -/
theorem repeatsHistory_repeatedHistory (s : State) (d n : Nat) : RepeatsHistory s d n (repeatedHistory s d) := by
  intro k _
  rw [repeatedHistory, repeatedHistory]
  split
  · next hlt => rw [Nat.mod_eq_of_lt hlt]
  · next hge => rw [Nat.mod_eq_sub_mod (Nat.not_lt.1 hge)]

/-- A.MATCH with room: DIST, LEN and RD are set, the cursors advance by LEN, and the repeated history is appended to OUT
and RING alike (spec 44 R225, R226). -/
theorem exec_aMatch_repeats (h l : BitVec 4) (lo : Byte) (hwf : s.cfg.wf = true) (hn : n = l.toNat + s.cfg.aMinMatch)
    (hroom : s.op.toNat + n ≤ (cap s).toNat) :
    ∃ t, exec (.aMatch h l lo) s = .next t ∧
      t = { setMatchA h l lo (consume 2 s) with
        ring := t.ring
        out := t.out
        wr := s.wr + BitVec.ofNat 16 n
        rd := aReadIndex s.wr (aDist h lo) + BitVec.ofNat 12 n
        op := s.op + BitVec.ofNat 32 n } ∧
      OutAppends s t n (fun k => some (repeatedHistory s (aDistance (aDist h lo)) k)) ∧
      RingAppends s t n (repeatedHistory s (aDistance (aDist h lo))) := by
  obtain ⟨h1, hd⟩ := aDistance_aDist_bounds h lo
  have hlen : (aLen s.cfg l).toNat = n := (toNat_aLen hwf l).trans hn.symm
  have hmax : n ≤ 4096 := by
    have := (aLen s.cfg l).isLt
    omega
  obtain ⟨t, ht, hout, hring⟩ := copyA_appends (s := setMatchA h l lo (consume 2 s)) h1 hd hmax
    (repeatsHistory_repeatedHistory _ _ n) (aReadIndex_eq _ _) hroom
  refine ⟨t, ?_, copyA_go ht, hout, hring⟩
  rw [exec_aMatch, hlen, ht, result_go]

/-- Settles O19: the match is `exec_aMatch_repeats`; the token is the two bytes at IP. -/
theorem aMatchToken : Obligations.AMatchToken := by
  unfold Obligations.AMatchToken
  refine fun s hwf => ⟨?_, fun b1 b2 hlt hb1 hb2 => ?_, fun hplaced hend => ?_⟩
  · rintro h l lo d n hn hd hroom
    rw [← aDistance_aDist] at hd
    obtain ⟨t, ht, hframe, hout, hring⟩ := exec_aMatch_repeats h l lo hwf hn hroom
    have hdist : aDist h lo = BitVec.ofNat 13 (h.toNat * 256 + lo.toNat) := by
      rw [← toNat_aDist, BitVec.ofNat_toNat, BitVec.setWidth_eq]
    rw [aReadIndex_eq, ← hd] at hframe
    rw [← hd] at hout hring
    refine ⟨t, ht, ?_, hout, hring⟩
    subst hn
    rw [← hdist]
    exact hframe
  · have hrun : inRun s 3 s.ip.toNat = b1 :: b2 :: inRun s 1 (s.ip.toNat + 1 + 1) := by
      rw [inRun_cons (by omega) hb1, inRun_cons hlt hb2]
    refine runToken_of_encoding (i := .aMatch (b1.extractLsb' 4 4) (b1.extractLsb' 0 4) b2) rfl
      (rest := inRun s 1 (s.ip.toNat + 1 + 1)) ?_
    rw [hrun, encode, append_nibbles]
    rfl
  · have hlen := inRun_length_of_placed hplaced 3 s.ip.toNat
    have herr : decode s.cfg (.tokenA (!s.cfg.aLitFlag)) (inRun s 3 s.ip.toNat) = .error .truncated := by
      match inRun s 3 s.ip.toNat, hlen with
      | [], _ => rfl
      | [b], _ => simp [decode, decodeTokenA]
      | _ :: _ :: r, hlen =>
        simp only [List.length_cons] at hlen
        omega
    exact ⟨_, runToken_of_error (.inl rfl) hplaced herr, raised_raiseFault _ (.refl s)⟩

/-! ## A match longer than the room -/

/-- COPY_A without room for its bytes raises OUTPUT_OVERRUN at the step at which OUT is full (spec 44 R227). -/
theorem copyA_of_no_room (hn : 0 < n) (hfull : (cap s).toNat < s.op.toNat + n) :
    ∃ t, copyA n s = .halt (.next (raiseFault .outputOverrun t)) ∧ Working s t := by
  induction n generalizing s with
  | zero => exact absurd hn (Nat.lt_irrefl 0)
  | succ n ih =>
    by_cases hlt : s.op < cap s
    · have hop : (copyStep s).op.toNat = s.op.toNat + 1 := succ_toNat_of_lt hlt
      have hroom := BitVec.lt_def.1 hlt
      have hcap : cap (copyStep s) = cap s := rfl
      obtain ⟨t, ht, hw⟩ := ih (s := copyStep s) (by omega) (by rw [hop, hcap]; omega)
      exact ⟨t, (copyA_succ_of_lt n hlt).trans ht, hw⟩
    · exact ⟨s, by rw [copyA, putOut_of_not_lt hlt, bind_halt], .refl s⟩

/-- Settles O20: the match is at least one byte long, so its copy starts and fails (`copyA_of_no_room`). -/
theorem aMatchOverrun : Obligations.AMatchOverrun := by
  unfold Obligations.AMatchOverrun
  intro s h l lo hwf hfull
  obtain ⟨hmin, -⟩ := matchRanges_of_wf hwf
  rw [← toNat_aLen hwf] at hfull
  obtain ⟨t, ht, hw⟩ := copyA_of_no_room (s := setMatchA h l lo (consume 2 s)) (n := (aLen s.cfg l).toNat)
    (by rw [toNat_aLen hwf]; omega) hfull
  refine ⟨_, ?_, raised_raiseFault _ hw⟩
  rw [exec_aMatch, ht, result_halt]

/-! ## Distance 4096, and distances beyond the bytes emitted -/

/-- The byte 4096 back is the one in the cell about to be written (spec 44 R233). -/
theorem repeatedHistory_of_ringSize (s : State) {k : Nat} (hk : k < 4096) :
    repeatedHistory s 4096 k = ringGet s (ringIndex (s.wr + BitVec.ofNat 16 k)) := by
  have hcell : ringIndex (s.wr - BitVec.ofNat 16 (4096 - k)) = ringIndex (s.wr + BitVec.ofNat 16 k) := by
    rw [ringIndex_eq_iff]
    bv_omega
  rw [repeatedHistory, Nat.mod_eq_of_lt hk, historyByte, hcell]

/-- Settles O21: each of the cells from WR on is given the byte it held. -/
theorem aMatchDistanceZero : Obligations.AMatchDistanceZero := by
  unfold Obligations.AMatchDistanceZero
  intro s l hwf hroom
  have hlen := toNat_aLen hwf l
  have hmax := (aLen s.cfg l).isLt
  have hsame (k : Nat) (hk : k < l.toNat + s.cfg.aMinMatch) := repeatedHistory_of_ringSize s (k := k) (by omega)
  obtain ⟨t, ht, -, hout, hnew, hkeep⟩ := exec_aMatch_repeats 0 l 0 hwf rfl hroom
  rw [aDistance_aDist, if_pos ⟨rfl, rfl⟩] at hout hnew
  refine ⟨t, ht, fun i => ?_, hout.congr fun k hk => congrArg some (hsame k hk)⟩
  by_cases hi : ∃ k, k < l.toNat + s.cfg.aMinMatch ∧ i = ringIndex (s.wr + BitVec.ofNat 16 k)
  · obtain ⟨k, hk, rfl⟩ := hi
    rw [hnew k hk, hsame k hk]
  · exact hkeep i fun k hk e => hi ⟨k, hk, e⟩

/-- Settles O22: the history at each distance back is what the ring invariant says it is. -/
theorem aMatchBeyondEmittedReadsFill : Obligations.AMatchBeyondEmittedReadsFill := by
  unfold Obligations.AMatchBeyondEmittedReadsFill
  rintro s e d n emitted h l lo hwf ⟨-, hhist⟩ hn hd hroom
  rw [← aDistance_aDist] at hd
  obtain ⟨h1, hmax⟩ := aDistance_aDist_bounds h lo
  rw [← hd] at h1 hmax
  obtain ⟨t, ht, -, hout, -⟩ := exec_aMatch_repeats h l lo hwf hn hroom
  rw [← hd] at hout
  refine ⟨t, ht, hout.congr fun k _ => ?_⟩
  have hback : k % d < d := Nat.mod_lt k h1
  rw [repeatedHistory, hhist _ (by omega) (by omega)]
  by_cases hle : d - k % d ≤ e
  · rw [if_pos hle, if_neg (Nat.not_lt.2 hle)]
  · rw [if_neg hle, if_pos (Nat.lt_of_not_le hle)]

end Sys2Proof.Machine
end

section
/-! SUPPORT. The format B tokens (spec 45 R244 to R253). COPY_B is characterised once, by its two faults and by the bytes
it appends; the three match tokens share the outcome of their common end (`matchB_outcome`). -/

namespace Sys2Proof.Machine

variable {s t : State} {n d l : Nat}

/-! ## COPY_B -/

/-- DIST reaches back to a byte of the output, all of which is written: what COPY_B's reads need (spec 45 R252). -/
structure BackRef (s : State) : Prop where
  written : OutWritten s s.op.toNat
  pos : 1 ≤ s.dist.toNat
  le : s.dist.toNat ≤ s.op.toNat

theorem BackRef.read (h : BackRef s) : ∃ b, readOut s (s.op.toNat - s.dist.toNat) = some b :=
  have hpos := h.pos
  have hle := h.le
  Option.isSome_iff_exists.1 (h.written _ (by omega))

theorem toNat_op_appendOut (b : Byte) (hlt : s.op < cap s) : (appendOut b s).op.toNat = s.op.toNat + 1 :=
  succ_toNat_of_lt hlt

theorem readOut_appendOut_op (b : Byte) (s : State) : readOut (appendOut b s) s.op.toNat = some b :=
  readOut_writeOut_same _ b s

theorem readOut_appendOut_of_lt (b : Byte) {a : Nat} (ha : a < s.op.toNat) :
    readOut (appendOut b s) a = readOut s a :=
  readOut_writeOut_other b s (by omega)

theorem BackRef.of_appendOut (h : BackRef s) (b : Byte) (hlt : s.op < cap s) : BackRef (appendOut b s) where
  written a ha := by
    rw [toNat_op_appendOut b hlt] at ha
    rcases Nat.lt_succ_iff_lt_or_eq.1 ha with hlt' | rfl
    · rw [readOut_appendOut_of_lt b hlt']
      exact h.written a hlt'
    · rw [readOut_appendOut_op]
      rfl
  pos := h.pos
  le := by
    rw [toNat_op_appendOut b hlt]
    exact Nat.le_succ_of_le h.le

/-- One step of COPY_B with room: the read-back comes first, then the byte read is appended (spec 45 R252). -/
theorem copyB_succ_of_lt {b : Byte} (hle : s.dist.toNat ≤ s.op.toNat)
    (hb : readOut s (s.op.toNat - s.dist.toNat) = some b) (hlt : s.op < cap s) (n : Nat) :
    copyB (n + 1) s = copyB n (appendOut b s) := by
  rw [copyB, getOut_of_le hle hb, bind_go, putOut_eq_appendOut hlt, bind_go]

/-- A distance beyond the output is found at the first step, before there is any question of room (spec 45 R252). -/
theorem copyB_of_underflow (hn : 0 < n) (hfar : s.op.toNat < s.dist.toNat) :
    copyB n s = .halt (.next (raiseFault .backrefUnderflow s)) := by
  obtain ⟨n, rfl⟩ := Nat.exists_eq_add_one.2 hn
  rw [copyB, getOut_of_lt hfar, bind_halt]

/-- COPY_B without room for its bytes raises OUTPUT_OVERRUN at the step at which OUT is full. -/
theorem copyB_of_no_room (h : BackRef s) (hn : 0 < n) (hfull : (cap s).toNat < s.op.toNat + n) :
    ∃ t, copyB n s = .halt (.next (raiseFault .outputOverrun t)) ∧ Working s t := by
  induction n generalizing s with
  | zero => exact absurd hn (Nat.lt_irrefl 0)
  | succ n ih =>
    obtain ⟨b, hb⟩ := h.read
    by_cases hlt : s.op < cap s
    · have hop := toNat_op_appendOut b hlt
      have hcap : cap (appendOut b s) = cap s := rfl
      have hroom := BitVec.lt_def.1 hlt
      obtain ⟨t, ht, hw⟩ := ih (h.of_appendOut b hlt) (by omega) (by rw [hop, hcap]; omega)
      exact ⟨t, (copyB_succ_of_lt h.le hb hlt n).trans ht, hw⟩
    · exact ⟨s, by rw [copyB, getOut_of_le h.le hb, bind_go, putOut_of_not_lt hlt, bind_halt], .refl s⟩

/-- Byte `k` of a copy at distance DIST: the last DIST bytes of the output, repeated (spec 45 R252). -/
def repeatedOutput (s : State) (k : Nat) : Option Byte := readOut s (s.op.toNat - s.dist.toNat + k % s.dist.toNat)

/-- Once the byte DIST back is appended, the last DIST bytes repeat from the next one on. -/
theorem repeatedOutput_appendOut {b : Byte} (h : BackRef s) (hb : readOut s (s.op.toNat - s.dist.toNat) = some b)
    (hlt : s.op < cap s) (k : Nat) : repeatedOutput (appendOut b s) k = repeatedOutput s (k + 1) := by
  have hpos := h.pos
  have hle := h.le
  have hmod : k % s.dist.toNat < s.dist.toNat := Nat.mod_lt k hpos
  have hdist : (appendOut b s).dist = s.dist := rfl
  rw [repeatedOutput, repeatedOutput, toNat_op_appendOut b hlt, hdist, ← Nat.mod_add_mod]
  by_cases hlast : k % s.dist.toNat + 1 = s.dist.toNat
  · rw [hlast, Nat.mod_self, Nat.add_zero (s.op.toNat - _), hb,
      show s.op.toNat + 1 - s.dist.toNat + k % s.dist.toNat = s.op.toNat by omega, readOut_appendOut_op]
  · rw [Nat.mod_eq_of_lt (a := k % s.dist.toNat + 1) (by omega), readOut_appendOut_of_lt b (by omega)]
    congr 1
    omega

/-- COPY_B with room appends the last DIST bytes of the output, repeated. -/
theorem copyB_appends (h : BackRef s) (hroom : s.op.toNat + n ≤ (cap s).toNat) :
    ∃ t, copyB n s = .go () t ∧ OutAppends s t n (repeatedOutput s) := by
  induction n generalizing s with
  | zero => exact ⟨s, rfl, fun _ hk => absurd hk (Nat.not_lt_zero _), fun _ _ => rfl⟩
  | succ n ih =>
    obtain ⟨b, hb⟩ := h.read
    have hlt : s.op < cap s := BitVec.lt_def.2 (by omega)
    have hop := toNat_op_appendOut b hlt
    have hcap : cap (appendOut b s) = cap s := rfl
    obtain ⟨t, ht, hout⟩ := ih (h.of_appendOut b hlt) (by rw [hop, hcap]; omega)
    exact ⟨t, (copyB_succ_of_lt h.le hb hlt n).trans ht,
      .cons (outAppends_appendOut hb) hop (hout.congr fun k _ => repeatedOutput_appendOut h hb hlt k)⟩

/-! ## The match tokens -/

/-- The registers a match token sets before its copy (spec 45 R246 to R249). -/
def setMatchB (x : BitVec 13) (y : BitVec 9) (s : State) : State := { s with dist := x, len := y }

theorem matchB_eq (x : BitVec 13) (y : BitVec 9) (s : State) :
    matchB x y s = copyB (bCopyCount s.cfg y) (setMatchB x y s) := rfl

/-- The common end of the match tokens, for registers that hold the distance and the length (spec 45 R246 to R252). -/
theorem matchB_outcome {x : BitVec 13} {y : BitVec 9} (n : Nat) (hd : x.toNat = d) (hl : y.toNat = l) :
    MatchBOutcome (matchB x y (consume n s)).result s n d l := by
  subst hd hl
  have href (hw : OutWritten s s.op.toNat) (h1 : 1 ≤ x.toNat) (hle : x.toNat ≤ s.op.toNat) :
      BackRef (setMatchB x y (consume n s)) := ⟨hw, h1, hle⟩
  rw [matchB_eq]
  refine ⟨fun hfar hn => ?_, fun hw h1 hle hn hfull => ?_, fun hw h1 hle hroom => ?_⟩
  · have hcopy := copyB_of_underflow (s := setMatchB x y (consume n s)) hn hfar
    exact ⟨_, congrArg Flow.result hcopy, raised_raiseFault _ rfl⟩
  · obtain ⟨t, hcopy, hwork⟩ := copyB_of_no_room (href hw h1 hle) hn hfull
    exact ⟨_, congrArg Flow.result hcopy, raised_raiseFault _ hwork⟩
  · obtain ⟨t, hcopy, hout⟩ := copyB_appends (href hw h1 hle) hroom
    refine ⟨t, congrArg Flow.result hcopy, ?_, hout⟩
    rw [BitVec.ofNat_toNat, BitVec.ofNat_toNat, BitVec.setWidth_eq, BitVec.setWidth_eq]
    exact copyB_go hcopy

/-- A token cut short by IN_LEN after the bytes `bs` raises INPUT_UNDERRUN, whatever they would begin (spec 45 R254). -/
theorem runToken_of_cut {sp : Space} {bs : List Byte} (hrun : inRun s 3 s.ip.toNat = bs)
    (hend : s.ip.toNat + bs.length = s.inLen.toNat) (herr : decode s.cfg sp bs = .error .truncated) :
    ∃ t, runToken sp s = .next t ∧ Raised .inputUnderrun s t := by
  subst hrun
  exact ⟨_, runToken_of_short herr hend.ge, raised_raiseFault _ (.refl s)⟩

theorem decodeTokenB_of_cut {c : Config} {ctl : Byte} (h : ctl < c.bShortMin) :
    decodeTokenB c c.bMatchFlag [ctl] = .error .truncated := by
  simp [decodeTokenB, BitVec.not_le.2 h]

theorem decodeLongB_super_of_cut {c : Config} {h : BitVec 4} {lo : Byte} (hdist : distField h lo ≠ 0) :
    decodeLongB c (longControl c.bSuperCode h) lo [] = .error .truncated := by
  simp only [decodeLongB, lowNibble_longControl, highNibble_longControl, if_neg hdist, if_true]

/-- Settles O24: the outcome is `matchB_outcome`; the token is the byte at IP. -/
theorem bShortToken : Obligations.BShortToken := by
  unfold Obligations.BShortToken
  refine ⟨rfl, rfl, fun s c hcfg hwf => ⟨?_, fun hlt hread => ?_, fun hend => ?_⟩⟩
  · exact matchB_outcome 1 (toNat_bShortDist c) (toNat_bShortLength hcfg)
  · exact runToken_of_encoding (i := .bShort c) hwf (inRun_cons hlt hread)
  · exact ⟨_, runToken_of_end (.inr rfl) hend, raised_raiseFault _ (.refl s)⟩

/-- Settles O25: the outcome is `matchB_outcome`; the token is the two bytes at IP, and a control byte alone is cut. -/
theorem bLongToken : Obligations.BLongToken := by
  unfold Obligations.BLongToken
  refine ⟨rfl, fun s sel h lo hcfg hwf => ⟨?_, fun hlt hctl hlo => ?_, fun hend hctl => ?_⟩⟩
  · exact matchB_outcome 2 (toNat_bLongDist h lo) (toNat_bLongLength hcfg sel)
  · refine runToken_of_encoding (i := .bLong sel h lo) (rest := inRun s 1 (s.ip.toNat + 1 + 1)) hwf ?_
    rw [inRun_cons (by omega) hctl, inRun_cons hlt hlo]
    rfl
  · have hrun : inRun s 3 s.ip.toNat = [longControl sel h] := by
      rw [inRun_cons (by omega) hctl, inRun_of_ge hend.ge]
    obtain ⟨hlong, -⟩ := wf_bLong.1 hwf
    exact runToken_of_cut hrun hend (decodeTokenB_of_cut hlong)

/-- Settles O26: the outcome is `matchB_outcome`; the token is the three bytes at IP, and the first two alone are cut. -/
theorem bSuperToken : Obligations.BSuperToken := by
  unfold Obligations.BSuperToken
  refine ⟨rfl, fun s h lo e hcfg hwf => ⟨?_, fun hlt hctl hlo he => ?_, fun hend hctl hlo => ?_⟩⟩
  · exact matchB_outcome 3 (toNat_bLongDist h lo) (toNat_bSuperLength hcfg e)
  · refine runToken_of_encoding (i := .bSuper h lo e) (rest := []) hwf ?_
    rw [inRun_cons (by omega) hctl, inRun_cons (by omega) hlo, inRun_cons hlt he]
    rfl
  · have hrun : inRun s 3 s.ip.toNat = [longControl s.cfg.bSuperCode h, lo] := by
      rw [inRun_cons (by omega) hctl, inRun_cons (by omega) hlo, inRun_of_ge hend.ge]
    obtain ⟨hlong, hdist⟩ := wf_bSuper.1 hwf
    exact runToken_of_cut hrun hend ((decodeTokenB_of_lt hlong).trans (decodeLongB_super_of_cut hdist))

/-! ## B.LIT -/

theorem exec_bLit (b : Byte) (s : State) : exec (.bLit b) s = (putOut b (consume 1 s)).result := rfl

/-- Settles O23: the two branches of PUT_OUT; the token is the byte at IP. -/
theorem bLitToken : Obligations.BLitToken := by
  unfold Obligations.BLitToken
  refine fun s => ⟨fun b hroom => ?_, fun b hfull => ?_, fun b hlt hread => ?_, fun hend => ?_⟩
  · have hput := putOut_eq_appendOut (v := b) (s := consume 1 s) hroom
    exact ⟨appendOut b (consume 1 s), by rw [exec_bLit, hput, result_go], rfl,
      outAppends_appendOut (s := consume 1 s) rfl⟩
  · have hput := putOut_of_not_lt (v := b) (s := consume 1 s) (BitVec.not_lt.2 hfull)
    exact ⟨_, by rw [exec_bLit, hput, result_halt], raised_raiseFault _ (u := consume 1 s) rfl⟩
  · exact runToken_of_encoding (i := .bLit b) rfl (inRun_cons hlt hread)
  · exact ⟨_, runToken_of_end (.inr rfl) hend, raised_raiseFault _ (.refl s)⟩

/-! ## B.END -/

theorem exec_bEnd (sel : BitVec 4) (s : State) :
    exec (.bEnd sel) s = .next (endB { consume 2 s with dist := 0 }) := rfl

theorem endB_of_eq (h : s.op = s.decl) : endB s = finish s := if_pos h

theorem endB_of_ne (h : s.op ≠ s.decl) : endB s = raiseFault .sizeMismatch s := if_neg h

/-- Settles O27: the two ends of DEC_B, which compare OP with DECL; the token is its two bytes at IP. -/
theorem bEndToken : Obligations.BEndToken := by
  unfold Obligations.BEndToken
  refine fun s sel => ⟨fun heq => ?_, fun hne => ?_, fun hwf hlt hctl hlo => ?_⟩
  · rw [exec_bEnd, endB_of_eq (s := { consume 2 s with dist := 0 }) heq]
    rfl
  · rw [exec_bEnd, endB_of_ne (s := { consume 2 s with dist := 0 }) hne]
    exact ⟨_, rfl, raised_raiseFault _ rfl⟩
  · refine runToken_of_encoding (i := .bEnd sel) (rest := inRun s 1 (s.ip.toNat + 1 + 1)) hwf ?_
    rw [inRun_cons (by omega) hctl, inRun_cons hlt hlo]
    rfl

end Sys2Proof.Machine
end

section
/-! SUPPORT. The containers (spec 46 R271 to R274). That an UNWRAP executes the header its file begins with, and fails on
a file that begins with no header, is the decoder's agreement with the encoder (O2, O3), said once for both formats;
WRAP_A's file is such an encoding. -/

namespace Sys2Proof

variable {c : Config} {i : Instr} {bs rest : List Byte}

/-! ## The bytes of the headers -/

theorem toNat_le32 (b0 b1 b2 b3 : Byte) :
    (le32 b0 b1 b2 b3).toNat = b0.toNat + 256 * b1.toNat + 65536 * b2.toNat + 16777216 * b3.toNat := by
  rw [le32_eq_be32, toNat_be32]
  omega

theorem toNat_be32_sum (b0 b1 b2 b3 : Byte) :
    (be32 b0 b1 b2 b3).toNat = 16777216 * b0.toNat + 65536 * b1.toNat + 256 * b2.toNat + b3.toNat := by
  rw [toNat_be32]
  omega

theorem spaceOf_eq_headerA (h : spaceOf c i = .headerA) : ∃ cs os, i = .hdrA cs os := by
  cases i with
  | hdrA cs os => exact ⟨cs, os, rfl⟩
  | _ => cases h

theorem spaceOf_eq_headerB (h : spaceOf c i = .headerB) : ∃ ds, i = .hdrB ds := by
  cases i with
  | hdrB ds => exact ⟨ds, rfl⟩
  | _ => cases h

/-- A file of format A has its 16 header bytes, the magic first (spec 30 R110). -/
theorem EncodedIn.headerA (h : EncodedIn c .headerA bs i rest) : 16 ≤ bs.length ∧ bs.take 8 = be64Bytes c.aMagic := by
  obtain ⟨-, hsp, rfl⟩ := h
  obtain ⟨cs, os, rfl⟩ := spaceOf_eq_headerA hsp.symm
  exact ⟨by rw [List.length_append, Machine.encode_length]; exact Nat.le_add_right 16 _, rfl⟩

/-- A file of format B has its 8 header bytes, the magic first (spec 30 R111). -/
theorem EncodedIn.headerB (h : EncodedIn c .headerB bs i rest) : 8 ≤ bs.length ∧ bs.take 4 = be32Bytes c.bMagic := by
  obtain ⟨-, hsp, rfl⟩ := h
  obtain ⟨ds, rfl⟩ := spaceOf_eq_headerB hsp.symm
  exact ⟨by rw [List.length_append, Machine.encode_length]; exact Nat.le_add_right 8 _, rfl⟩

end Sys2Proof

namespace Sys2Proof.Machine

variable {s : State} {sp : Space} {i : Instr} {p : List Byte} {cs os ds : Size}

/-! ## An UNWRAP and the header of its file -/

theorem raised_formatError (s : State) : Raised .formatError s (formatError s) := ⟨rfl, rfl, rfl, rfl, rfl, rfl, rfl⟩

theorem unwrap_of_encoding (hwf : i.wf s.cfg = true) (hfile : s.file = encode s.cfg i ++ p) :
    unwrap (spaceOf s.cfg i) s = exec i s := by
  rw [unwrap, hfile, decodeOfEncode _ _ _ hwf]

theorem unwrap_of_not_encoding (h : ∀ i rest, ¬ EncodedIn s.cfg sp s.file i rest) :
    ∃ t, unwrap sp s = .next t ∧ Raised .formatError s t := by
  refine ⟨_, ?_, raised_formatError s⟩
  rw [unwrap]
  split
  · next i rest hd => exact absurd (decodedBytesAreAnEncoding.1 _ _ _ _ _ hd) (h i rest)
  · rfl

/-! ## The headers -/

/-- A file accepted: IN holds its payload from index 0, IN_LEN and DECL are written (spec 46 R272, R273). -/
def unwrapped (p : List Byte) (n d : Size) (s : State) : State :=
  { s with inp := s.inp.placeBytes p, inLen := n, decl := d }

theorem placedIn_unwrapped (p : List Byte) (n d : Size) (s : State) : PlacedIn p s (unwrapped p n d s) :=
  placedIn_of_placeBytes rfl

theorem exec_hdrA_of_length (hb : s.status ≠ .busy) (hfile : s.file = encode s.cfg (.hdrA cs os) ++ p)
    (hlen : s.file.length = 16 + cs.toNat) : exec (.hdrA cs os) s = .next (unwrapped p cs os s) := by
  have hdrop : s.file.drop 16 = p := by
    rw [hfile]
    rfl
  rw [exec, execHdrA, if_neg hb, if_pos hlen, hdrop]
  rfl

theorem exec_hdrA_of_length_ne (hb : s.status ≠ .busy) (hlen : s.file.length ≠ 16 + cs.toNat) :
    exec (.hdrA cs os) s = .next (formatError s) := by
  rw [exec, execHdrA, if_neg hb, if_neg hlen]

theorem length_of_encoding_hdrB (hfile : s.file = encode s.cfg (.hdrB ds) ++ p) : s.file.length = 8 + p.length := by
  rw [hfile, List.length_append, encode_length]
  rfl

theorem exec_hdrB_of_le (hb : s.status ≠ .busy) (hfile : s.file = encode s.cfg (.hdrB ds) ++ p)
    (hle : ds ≤ s.cfg.bMaxDeclared) (hp : p.length < sizeLimit) :
    exec (.hdrB ds) s = .next (unwrapped p (BitVec.ofNat 32 p.length) ds s) := by
  have hlen := length_of_encoding_hdrB hfile
  have hdrop : s.file.drop 8 = p := by
    rw [hfile]
    rfl
  have hmeets : ¬ (s.file.length < 8 ∨ s.cfg.bMaxDeclared < ds) := not_or.2 ⟨by omega, BitVec.not_lt.2 hle⟩
  have hrest : s.file.length - 8 = p.length := by omega
  rw [exec, execHdrB, if_neg hb, if_neg hmeets, hrest, if_neg (Nat.not_le.2 hp), hdrop]
  rfl

theorem exec_hdrB_of_lt (hb : s.status ≠ .busy) (hlt : s.cfg.bMaxDeclared < ds) :
    exec (.hdrB ds) s = .next (formatError s) := by
  rw [exec, execHdrB, if_neg hb, if_pos (.inr hlt)]

/-- Settles O33: a file that begins with the magic is a header's encoding, which `exec_hdrA_of_length` reads; a file that
is short or begins otherwise is none. -/
theorem unwrapAToken : Obligations.UnwrapAToken := by
  unfold Obligations.UnwrapAToken
  refine ⟨rfl, fun s hb => ⟨fun hshort => ?_, fun m p c0 c1 c2 c3 o0 o1 o2 o3 csize osize hm hfile hcs hos => ?_⟩⟩
  · exact unwrap_of_not_encoding fun i rest henc => absurd henc.headerA.1 (Nat.not_le.2 hshort)
  rw [← toNat_le32] at hcs hos
  subst hcs hos
  have hheader (hmagic : m = be64Bytes s.cfg.aMagic) :
      s.file = encode s.cfg (.hdrA (le32 c0 c1 c2 c3) (le32 o0 o1 o2 o3)) ++ p := by
    rw [hfile, hmagic, encode, le32Bytes_le32, le32Bytes_le32, List.append_assoc (be64Bytes _)]
    rfl
  refine ⟨fun hmagic hlen => ?_, fun hbad => ?_⟩
  · have hexec := exec_hdrA_of_length hb (hheader hmagic) hlen
    rw [BitVec.ofNat_toNat, BitVec.ofNat_toNat, BitVec.setWidth_eq, BitVec.setWidth_eq]
    exact ⟨_, (unwrap_of_encoding rfl (hheader hmagic)).trans hexec, hexec, rfl, placedIn_unwrapped p _ _ s⟩
  · by_cases hmagic : m = be64Bytes s.cfg.aMagic
    · have hexec := exec_hdrA_of_length_ne (os := le32 o0 o1 o2 o3) hb (hbad.resolve_left (not_not.2 hmagic))
      exact ⟨_, (unwrap_of_encoding rfl (hheader hmagic)).trans hexec, raised_formatError s⟩
    · refine unwrap_of_not_encoding fun i rest henc => hmagic ?_
      rw [← henc.headerA.2, hfile, List.append_assoc, List.take_left' hm]

/-- Settles O34: as O33, with the bound on the declared size in place of the length. -/
theorem unwrapBToken : Obligations.UnwrapBToken := by
  unfold Obligations.UnwrapBToken
  refine ⟨rfl, fun s hb => ⟨fun hshort => ?_, fun m p d0 d1 d2 d3 dsize hm hfile hds => ?_⟩⟩
  · exact unwrap_of_not_encoding fun i rest henc => absurd henc.headerB.1 (Nat.not_le.2 hshort)
  rw [← toNat_be32_sum] at hds
  subst hds
  have hheader (hmagic : m = be32Bytes s.cfg.bMagic) : s.file = encode s.cfg (.hdrB (be32 d0 d1 d2 d3)) ++ p := by
    rw [hfile, hmagic, encode, be32Bytes_be32]
  refine ⟨fun hmagic hle hp => ?_, fun hbad => ?_⟩
  · have hexec := exec_hdrB_of_le hb (hheader hmagic) (BitVec.le_def.2 hle) hp
    rw [BitVec.ofNat_toNat, BitVec.setWidth_eq]
    exact ⟨_, (unwrap_of_encoding rfl (hheader hmagic)).trans hexec, hexec, rfl, placedIn_unwrapped p _ _ s⟩
  · by_cases hmagic : m = be32Bytes s.cfg.bMagic
    · have hexec := exec_hdrB_of_lt hb (BitVec.lt_def.2 (hbad.resolve_left (not_not.2 hmagic)))
      exact ⟨_, (unwrap_of_encoding rfl (hheader hmagic)).trans hexec, raised_formatError s⟩
    · refine unwrap_of_not_encoding fun i rest henc => hmagic ?_
      rw [← henc.headerB.2, hfile, List.append_assoc, List.take_left' hm]

/-! ## WRAP_A -/

theorem length_wrapA (c : Config) (p : List Byte) (n : Size) : (wrapA c p n).length = 16 + p.length := by
  rw [wrapA, List.length_append, encode_length]
  rfl

/-- The result of a command is the list of its length whose bytes are OUT's. -/
theorem outBytes_eq_some (hlen : p.length = s.outLen.toNat) (hbytes : ∀ k, k < p.length → readOut s k = p[k]?) :
    outBytes s = some p := by
  have hwritten (k : Nat) (hk : k < s.outLen.toNat) : (readOut s (0 + k)).isSome = true := by
    rw [← hlen] at hk
    rw [Nat.zero_add, hbytes k hk, List.getElem?_eq_getElem hk]
    rfl
  obtain ⟨r, hr, hrlen⟩ := outRun_of_written hwritten
  obtain ⟨-, hread⟩ := outRun_getElem? hr
  have hrp : r = p := List.ext_getElem? fun k => by
    by_cases hk : k < p.length
    · rw [hread k (hlen ▸ hk), Nat.zero_add, hbytes k hk]
    · rw [List.getElem?_eq_none (by omega), List.getElem?_eq_none (by omega)]
  exact hrp ▸ hr

theorem wrapFile_of_done (hd : s.status = .done) (hp : outBytes s = some p) :
    wrapFile s = .next { s with file := wrapA s.cfg p s.inLen } := by
  simp only [wrapFile, if_pos hd, hp]

theorem wrapFile_of_not_done (hd : s.status ≠ .done) : wrapFile s = .refused .noResult := by
  rw [wrapFile, if_neg hd]

/-- Settles O35: WRAP_A's file is the encoding of a header that holds the payload's length, and so UNWRAP_A accepts it. -/
theorem wrapThenUnwrap : Obligations.WrapThenUnwrap := by
  unfold Obligations.WrapThenUnwrap
  refine ⟨fun s p n hb hp hfile => ?_, fun s q hb hq => ⟨fun p hd hlen hbytes => ?_, fun hd => ?_⟩⟩
  · have hsize : (BitVec.ofNat 32 p.length).toNat = p.length := (BitVec.toNat_ofNat _ _).trans (Nat.mod_eq_of_lt hp)
    have hlen : s.file.length = 16 + p.length := by rw [hfile, length_wrapA]
    have hexec := exec_hdrA_of_length hb hfile (by rw [hsize, hlen])
    refine ⟨hlen, ?_, ?_, ?_, ?_, _, (unwrap_of_encoding rfl hfile).trans hexec, hsize, rfl, placedIn_unwrapped p _ _ s⟩
    all_goals
      rw [hfile]
      rfl
  · rw [step_of_host hb hq]
    exact wrapFile_of_done (s := { s with host := q }) hd (outBytes_eq_some hlen hbytes)
  · rw [step_of_host hb hq]
    exact wrapFile_of_not_done (s := { s with host := q }) hd

end Sys2Proof.Machine
end

section
/-! SUPPORT. That the engine never stops the model (spec 60 R313): with its input placed, the pseudocode of a running
command goes on or raises a fault. -/

namespace Sys2Proof.Machine

variable {α β : Type} {P Q : State → Prop} {s t u : State} {m n : Nat}

/-! ## Pseudocode and steps the model does not stop -/

/-- The pseudocode goes on in a state of `P`, or halts by raising a fault (spec 60 R298). -/
def Flow.Runs (P : State → Prop) : Flow α → Prop
  | .go _ t => P t
  | .halt r => ∃ f u, r = .next (raiseFault f u)

/-- The step ends the command, or goes on with it in a state of `P`. -/
def Advances (P : State → Prop) (r : Result) : Prop :=
  ∃ t, r = .next t ∧ ((t.status = .done ∨ t.status = .fault) ∨ P t)

theorem runs_raise (f : Cause) (u : State) : (Flow.halt (.next (raiseFault f u)) : Flow α).Runs P := ⟨f, u, rfl⟩

theorem Flow.Runs.bind {x : Flow α} {f : α → State → Flow β} (hx : x.Runs P) (hf : ∀ a t, P t → (f a t).Runs Q) :
    (x.bind f).Runs Q := by
  cases x with
  | go a t => exact hf a t hx
  | halt r => exact hx

theorem Flow.Runs.mono {x : Flow α} (hx : x.Runs P) (h : ∀ t, P t → Q t) : x.Runs Q := by
  cases x with
  | go a t => exact h t hx
  | halt r => exact hx

/-- Where pseudocode goes on may be said apart from that it is not stopped. -/
theorem Flow.Runs.of_go {x : Flow α} (hx : x.Runs P) (h : ∀ a t, x = .go a t → Q t) : x.Runs Q := by
  cases x with
  | go a t => exact h a t rfl
  | halt r => exact hx

theorem advances_raise (f : Cause) (u : State) : Advances P (.next (raiseFault f u)) := ⟨_, rfl, .inl (.inr rfl)⟩

theorem advances_finish (u : State) : Advances P (.next (finish u)) := ⟨_, rfl, .inl (.inl rfl)⟩

theorem Flow.Runs.result {x : Flow α} (hx : x.Runs P) : Advances P x.result := by
  cases x with
  | go a t => exact ⟨t, rfl, .inr hx⟩
  | halt r =>
    obtain ⟨f, u, rfl⟩ := hx
    exact advances_raise f u

theorem Advances.mono {r : Result} (h : Advances P r) (hPQ : ∀ t, r = .next t → P t → Q t) : Advances Q r := by
  obtain ⟨t, ht, hend | hP⟩ := h
  · exact ⟨t, ht, .inl hend⟩
  · exact ⟨t, ht, .inr (hPQ t ht hP)⟩

theorem Advances.exists_next {r : Result} (h : Advances P r) : ∃ t, r = .next t := by
  obtain ⟨t, ht, -⟩ := h
  exact ⟨t, ht⟩

/-! ## Output written and read back -/

/-- From `s` to `t` `n` bytes were appended to the output, all of which is written, and IP was left alone. -/
structure Wrote (s : State) (n : Nat) (t : State) : Prop where
  ip_eq : t.ip = s.ip
  written : OutWritten t t.op.toNat
  op_eq : t.op.toNat = s.op.toNat + n

theorem wrote_zero (hw : OutWritten s s.op.toNat) : Wrote s 0 s := ⟨rfl, hw, rfl⟩

theorem Wrote.trans (h : Wrote s m u) (h' : Wrote u n t) : Wrote s (n + m) t where
  ip_eq := h'.ip_eq.trans h.ip_eq
  written := h'.written
  op_eq := by rw [h'.op_eq, h.op_eq, Nat.add_assoc, Nat.add_comm m]

theorem wrote_appendOut (v : Byte) (hw : OutWritten s s.op.toNat) (hlt : s.op < cap s) : Wrote s 1 (appendOut v s) where
  ip_eq := rfl
  written a ha := by
    rw [toNat_op_appendOut v hlt] at ha
    exact readOut_writeOut_isSome fun hne => hw a (Nat.lt_of_le_of_ne (Nat.le_of_lt_succ ha) hne)
  op_eq := toNat_op_appendOut v hlt

theorem putOut_runs (v : Byte) (hw : OutWritten s s.op.toNat) : (putOut v s).Runs (Wrote s 1) := by
  by_cases hlt : s.op < cap s
  · rw [putOut_eq_appendOut hlt]
    exact wrote_appendOut v hw hlt
  · rw [putOut_of_not_lt hlt]
    exact runs_raise _ _

theorem copyA_runs (n : Nat) (hw : OutWritten s s.op.toNat) : (copyA n s).Runs (Wrote s n) := by
  induction n generalizing s with
  | zero => exact wrote_zero hw
  | succ n ih =>
    refine (putOut_runs (ringGet s s.rd) hw).bind fun _ t ht => ?_
    have hstep : Wrote s 1 { ringPut (ringGet s s.rd) t with rd := t.rd + 1 } := ⟨ht.ip_eq, ht.written, ht.op_eq⟩
    exact (ih hstep.written).mono fun _ => hstep.trans

/-- COPY_B reads back only what the output holds: the distance is not 0 and a longer one is a fault (spec 45 R252). -/
theorem copyB_runs (n : Nat) (hw : OutWritten s s.op.toNat) (hd : 1 ≤ s.dist.toNat) : (copyB n s).Runs (Wrote s n) := by
  induction n generalizing s with
  | zero => exact wrote_zero hw
  | succ n ih =>
    by_cases hle : s.dist.toNat ≤ s.op.toNat
    · obtain ⟨b, hb⟩ := BackRef.read ⟨hw, hd, hle⟩
      by_cases hlt : s.op < cap s
      · have hput := wrote_appendOut b hw hlt
        rw [copyB_succ_of_lt hle hb hlt]
        exact (ih hput.written hd).mono fun _ => hput.trans
      · rw [copyB, getOut_of_le hle hb, bind_go, putOut_of_not_lt hlt]
        exact runs_raise _ _
    · rw [copyB_of_underflow n.succ_pos (Nat.lt_of_not_le hle)]
      exact runs_raise _ _

/-! ## The decoders' tokens -/

/-- How many bytes of output a token expands to (spec 44 R224, R225, 45 R244, R251). -/
def tokenOutput (c : Config) : Instr → Nat
  | .aLit _ | .bLit _ => 1
  | .aMatch _ l _ => (aLen c l).toNat
  | .bShort _ => bCopyCount c (bShortLength c)
  | .bLong sel _ _ => bCopyCount c (bLongLength c sel)
  | .bSuper _ _ e => bCopyCount c (bSuperLength c e)
  | .bEnd _ | .encA | .decA | .decB | .noCommand | .hdrA _ _ | .hdrB _ => 0

/-- A format A token expands to at least one byte where `A_MIN_MATCH` is at least 1. -/
theorem one_le_tokenOutput {c : Config} {i : Instr} {f : Bool} (hwf : c.wf = true) (hsp : spaceOf c i = .tokenA f) :
    1 ≤ tokenOutput c i := by
  cases i with
  | aLit b => exact Nat.le_refl 1
  | aMatch h l lo =>
    obtain ⟨hmin, -⟩ := matchRanges_of_wf hwf
    rw [tokenOutput, toNat_aLen hwf]
    omega
  | _ => cases hsp

theorem matchB_runs {x : BitVec 13} {y : BitVec 9} (hw : OutWritten s s.op.toNat) (hx : 1 ≤ x.toNat) :
    (matchB x y s).Runs (Wrote s (bCopyCount s.cfg y)) :=
  (copyB_runs (s := setMatchB x y s) _ hw hx).mono fun _ h => ⟨h.ip_eq, h.written, h.op_eq⟩

theorem one_le_bLongDist {h : BitVec 4} {lo : Byte} (hd : distField h lo ≠ 0) : 1 ≤ (bLongDist h lo).toNat := by
  rw [toNat_bLongDist, ← toNat_distField]
  bv_omega

/-- A token passes its bytes and writes what it expands to, or ends the command. -/
theorem exec_token_advances {i : Instr} {sp : Space} {f : Bool} (hsp : sp = .tokenA f ∨ sp = .tokenB f)
    (hi : sp = spaceOf s.cfg i) (hwf : i.wf s.cfg = true) (hw : OutWritten s s.op.toNat) :
    Advances (Wrote (consume i.bytes s) (tokenOutput s.cfg i)) (exec i s) := by
  cases i with
  | aLit b =>
    refine Flow.Runs.result ((putOut_runs (s := consume 1 s) b hw).bind fun _ t ht => ?_)
    exact ⟨ht.ip_eq, ht.written, ht.op_eq⟩
  | aMatch h l lo =>
    rw [exec_aMatch]
    exact ((copyA_runs (s := setMatchA h l lo (consume 2 s)) _ hw).mono fun _ ht =>
      ⟨ht.ip_eq, ht.written, ht.op_eq⟩).result
  | bLit b => exact (putOut_runs (s := consume 1 s) b hw).result
  | bShort x =>
    have hx : 1 ≤ (bShortDist x).toNat := by
      rw [toNat_bShortDist]
      exact Nat.sub_pos_of_lt x.isLt
    exact (matchB_runs (s := consume 1 s) hw hx).result
  | bLong sel h lo =>
    obtain ⟨-, -, hd⟩ := wf_bLong.1 hwf
    exact (matchB_runs (s := consume 2 s) hw (one_le_bLongDist hd)).result
  | bSuper h lo e =>
    obtain ⟨-, hd⟩ := wf_bSuper.1 hwf
    exact (matchB_runs (s := consume 3 s) hw (one_le_bLongDist hd)).result
  | bEnd sel =>
    rw [exec_bEnd, endB]
    split
    · exact advances_finish _
    · exact advances_raise _ _
  | _ =>
    subst hi
    rcases hsp with hsp | hsp <;> cases hsp

/-- What a running decoder rests on: its input is placed, IP has not passed IN_LEN, and the output it can read back is
written. -/
structure Fed (s : State) : Prop where
  placed : InputPlaced s
  ip_le : s.ip ≤ s.inLen
  written : OutWritten s s.op.toNat

/-- A decoder has gone on from `s` to `t` past the token `i`. -/
structure TokenPassed (i : Instr) (s t : State) : Prop where
  ip_lt : s.ip < t.ip
  ip_le : t.ip ≤ s.inLen
  op_eq : t.op.toNat = s.op.toNat + tokenOutput s.cfg i
  written : OutWritten t t.op.toNat

theorem instr_bytes_pos (i : Instr) : 1 ≤ i.bytes := by
  cases i <;> simp [Instr.bytes]

theorem tokenPassed_of_wrote {i : Instr} (hle : s.ip.toNat + i.bytes ≤ s.inLen.toNat)
    (h : Wrote (consume i.bytes s) (tokenOutput s.cfg i) t) : TokenPassed i s t := by
  have hip : t.ip.toNat = s.ip.toNat + i.bytes := by
    have := s.inLen.isLt
    rw [h.ip_eq, consume_ip, BitVec.toNat_add, BitVec.toNat_ofNat]
    omega
  refine ⟨BitVec.lt_def.2 ?_, BitVec.le_def.2 (hip.trans_le hle), h.op_eq, h.written⟩
  rw [hip]
  exact Nat.lt_add_of_pos_right (instr_bytes_pos i)

/-- The token of a space at IP is passed, or ends the command. -/
theorem Fed.runToken_advances {sp : Space} {f : Bool} (h : Fed s) (hsp : sp = .tokenA f ∨ sp = .tokenB f) :
    Advances (fun t => ∃ i, spaceOf s.cfg i = sp ∧ TokenPassed i s t) (runToken sp s) := by
  cases hd : decode s.cfg sp (inRun s 3 s.ip.toNat) with
  | ok r =>
    obtain ⟨i, rest⟩ := r
    obtain ⟨hwf, hi, -⟩ := decodedBytesAreAnEncoding.1 _ _ _ _ _ hd
    rw [runToken_of_ok hd]
    exact (exec_token_advances hsp hi hwf h.written).mono fun t _ ht =>
      ⟨i, hi.symm, tokenPassed_of_wrote (decode_bytes_le hsp h.ip_le hd) ht⟩
  | error e =>
    rw [runToken_of_error hsp h.placed hd]
    exact advances_raise _ _

/-! ## The decoders' turns -/

theorem InputPlaced.congr (h : InputPlaced s) (hinp : t.inp = s.inp) (hlen : t.inLen = s.inLen) : InputPlaced t :=
  fun a ha => by
    rw [readIn_congr hinp]
    exact h a (hlen ▸ ha)

theorem fetch_runs (h : InputPlaced s) : (fetch s).Runs fun _ => True := by
  rcases fetch_cases s with ⟨_, b, _, e⟩ | ⟨hlt, hnone, _⟩ | ⟨_, e⟩
  · rw [e]
    trivial
  · have hsome := h _ (BitVec.lt_def.1 hlt)
    rw [hnone] at hsome
    cases hsome
  · rw [e]
    exact runs_raise _ _

/-- From `s` to `t` a flag was read: IP may have moved past a flag byte, and the output was left alone. -/
structure FlagPassed (s t : State) : Prop where
  cfg_eq : t.cfg = s.cfg
  inLen_eq : t.inLen = s.inLen
  ip_le : s.ip ≤ t.ip
  op_eq : t.op = s.op
  fed : Fed t

theorem Fed.flagPassed_of_fetched (h : Fed s) (hlt : s.ip < s.inLen) (e : t = { s with
    ip := s.ip + 1, frRem := t.frRem, frByte := t.frByte, fbReg := t.fbReg }) : FlagPassed s t := by
  rw [e]
  refine ⟨rfl, rfl, BitVec.le_def.2 ?_, rfl, h.placed.congr rfl rfl, succ_le_of_lt hlt, h.written⟩
  exact succ_toNat_of_lt hlt ▸ Nat.le_succ _

theorem Fed.flagPassed_of_kept (h : Fed s) (e : t = { s with
    frRem := t.frRem, frByte := t.frByte, fbReg := t.fbReg }) : FlagPassed s t := by
  rw [e]
  exact ⟨rfl, rfl, BitVec.le_refl _, rfl, h.placed.congr rfl rfl, h.ip_le, h.written⟩

theorem Fed.flagrAGet_runs (h : Fed s) : (flagrAGet s).Runs (FlagPassed s) := by
  have hrefill : (frRefill s).Runs fun _ => True := by
    rw [frRefill]
    split
    · exact (fetch_runs h.placed).bind fun _ _ _ => trivial
    · trivial
  have hget : (flagrAGet s).Runs fun _ => True := hrefill.bind fun _ _ _ => trivial
  refine hget.of_go fun f t hf => ?_
  rcases flagrAGet_go hf with ⟨_, e⟩ | ⟨hlt, e⟩
  · exact h.flagPassed_of_kept (by rw [e])
  · exact h.flagPassed_of_fetched hlt (by rw [e])

theorem Fed.flagrBGet_runs (h : Fed s) : (flagrBGet s).Runs (FlagPassed s) := by
  have hshift : InputPlaced { s with fbReg := s.fbReg >>> 1 } := h.placed.congr rfl rfl
  have hget : (flagrBGet s).Runs fun _ => True := by
    simp only [flagrBGet]
    split
    · exact (fetch_runs hshift).bind fun _ _ _ => trivial
    · trivial
  refine hget.of_go fun f t hf => ?_
  rcases flagrBGet_go hf with e | ⟨hlt, e⟩
  · exact h.flagPassed_of_kept (by rw [e])
  · exact h.flagPassed_of_fetched hlt (by rw [e])

theorem TokenPassed.of_flag {i : Instr} (hf : FlagPassed s u) (h : TokenPassed i u t) : TokenPassed i s t where
  ip_lt := BitVec.lt_def.2 (Nat.lt_of_le_of_lt (BitVec.le_def.1 hf.ip_le) (BitVec.lt_def.1 h.ip_lt))
  ip_le := hf.inLen_eq ▸ h.ip_le
  op_eq := by rw [h.op_eq, hf.op_eq, hf.cfg_eq]
  written := h.written

/-- A flag and the token of its space are passed, or end the command. -/
theorem withFlag_advances {x : Flow Bool} {sp : Bool → Space} (hsp : ∀ f, sp f = .tokenA f ∨ sp f = .tokenB f)
    (hx : x.Runs (FlagPassed s)) :
    Advances (fun t => ∃ i f, spaceOf s.cfg i = sp f ∧ TokenPassed i s t) (withFlag x sp) := by
  cases x with
  | go f u =>
    have hflag : FlagPassed s u := hx
    refine (hflag.fed.runToken_advances (hsp f)).mono fun t _ ⟨i, hi, ht⟩ => ?_
    exact ⟨i, f, hflag.cfg_eq ▸ hi, ht.of_flag hflag⟩
  | halt r =>
    obtain ⟨f, u, rfl⟩ := hx
    exact advances_raise f u

theorem Fed.decATurn_advances (h : Fed s) :
    Advances (fun t => s.op < s.decl ∧ ∃ i f, spaceOf s.cfg i = .tokenA f ∧ TokenPassed i s t) (decATurn s) := by
  rw [decATurn]
  split
  · next hlt => exact (withFlag_advances (fun _ => .inl rfl) h.flagrAGet_runs).mono fun _ _ ht => ⟨hlt, ht⟩
  · exact advances_finish s

theorem Fed.decBTurn_advances (h : Fed s) :
    Advances (fun t => ∃ i f, spaceOf s.cfg i = .tokenB f ∧ TokenPassed i s t) (decBTurn s) :=
  withFlag_advances (fun _ => .inr rfl) h.flagrBGet_runs

/-! ## The encoder's turn -/

theorem InputPlaced.readIn_eq {a : Nat} (h : InputPlaced s) (ha : a < s.inLen.toNat) :
    readIn s a = some ((readIn s a).getD 0) := by
  obtain ⟨b, hb⟩ := Option.isSome_iff_exists.1 (h a ha)
  rw [hb, Option.getD_some]

theorem emitToken_runs (hplaced : InputPlaced s) (hip : s.ip < s.inLen) : (emitToken (found s)).Runs fun _ => True := by
  have hplaced' : InputPlaced (found s) := hplaced.congr rfl rfl
  have hlt : (found s).ip.toNat < (found s).inLen.toNat := hip
  have hleft : (found s).bestLen.toNat ≤ (found s).inLen.toNat - (found s).ip.toNat := findMatch_bestLen_le s
  have hlen := (found s).inLen.isLt
  rw [emitToken]
  split
  · by_cases hroom : (found s).op.toNat + 2 ≤ (cap (found s)).toNat
    · obtain ⟨t, ht, -⟩ := emitMatch_of_room (fun k hk => hplaced'.readIn_eq (by omega)) (by rw [sizeLimit]; omega) hroom
      rw [ht]
      trivial
    · obtain ⟨u, hu, -⟩ := emitMatch_of_no_room (Nat.lt_of_not_le hroom)
      rw [hu]
      exact runs_raise _ _
  · have hb := hplaced'.readIn_eq hlt
    by_cases hroom : (found s).op < cap (found s)
    · obtain ⟨t, ht, -⟩ := emitLiteral_of_lt hb hroom
      rw [ht]
      trivial
    · rw [emitLiteral_of_not_lt hb hroom]
      exact runs_raise _ _

theorem closeIfFull_runs (s : State) : (closeIfFull s).Runs fun _ => True := by
  cases hc : closeIfFull s with
  | go a t => trivial
  | halt r =>
    obtain ⟨-, -, w, rfl⟩ := closeIfFull_halt hc
    exact runs_raise _ w

theorem encTurn_advances (hplaced : InputPlaced s) : Advances (fun _ => True) (encTurn s) := by
  by_cases hip : s.ip < s.inLen
  · rw [encTurn_of_lt hip (lookAhead_length_of_placed hplaced)]
    exact ((emitToken_runs hplaced hip).bind fun _ t _ => closeIfFull_runs t).result
  · rw [encTurn_of_not_lt hip]
    exact advances_finish _

/-! ## The step -/

theorem EngineInv.fed (h : EngineInv s) (hplaced : InputPlaced s) (hb : s.status = .busy) : Fed s :=
  ⟨hplaced, h.ip_le hb, (h.outputOk hb).written⟩

/-- The three commands there are (spec 30 R115). -/
theorem opsel_cases (h : s.opsel ≠ 0) : s.opsel = 1 ∨ s.opsel = 2 ∨ s.opsel = 3 := by
  rcases commandOf_cases s.opsel with ⟨ho, -⟩ | ⟨ho, -⟩ | ⟨ho, -⟩ | ⟨ho, -⟩
  · exact absurd ho h
  · exact .inl ho
  · exact .inr (.inl ho)
  · exact .inr (.inr ho)

/-- Settles O56: the turn of each command advances, on input placed and output written. -/
theorem runningCommandHasANextState : Obligations.RunningCommandHasANextState := by
  unfold Obligations.RunningCommandHasANextState
  intro s h hplaced hb
  have hfed := h.fed hplaced hb
  rcases opsel_cases (h.opsel_ne_zero hb) with ho | ho | ho
  · rw [step_of_enc hb ho]
    exact (encTurn_advances hplaced).exists_next
  · rw [step_of_decA hb ho]
    exact hfed.decATurn_advances.exists_next
  · rw [step_of_decB hb ho]
    exact hfed.decBTurn_advances.exists_next

end Sys2Proof.Machine
end

section
/-! SUPPORT. That every command ends (spec 60 R313). For ENC_A that is `runCommand_encA_ends`; a decoder's token moves
the cursor its bound counts, OP for DEC_A and IP for DEC_B. -/

namespace Sys2Proof.Machine

variable {s t : State} {n : Nat}

/-! ## A decoder's run -/

/-- A state in the run of a decoder. -/
structure Decoding (s : State) : Prop extends Fed s where
  busy : s.status = .busy
  decoder : s.opsel = 2 ∨ s.opsel = 3
  wf : s.cfg.wf = true

theorem stepBound_of_decA (ho : s.opsel = 2) : stepBound s = s.decl.toNat - s.op.toNat + 1 := if_pos ho

theorem stepBound_of_ne (ho : s.opsel ≠ 2) : stepBound s = s.inLen.toNat - s.ip.toNat + 1 := if_neg ho

theorem stepBound_pos (s : State) : 0 < stepBound s := by
  by_cases ho : s.opsel = 2
  · rw [stepBound_of_decA ho]
    exact Nat.succ_pos _
  · rw [stepBound_of_ne ho]
    exact Nat.succ_pos _

/-- A running decoder past a token, with the input of the same command. -/
theorem Decoding.of_tokenPassed {i : Instr} (h : Decoding s) (hp : TokenPassed i s t) (hw : Working s t) :
    Decoding t := by
  obtain ⟨hcfg, hopsel, hinLen, -, -, hinp⟩ := hw.sameCommand
  exact ⟨⟨h.placed.congr hinp hinLen, hinLen ▸ hp.ip_le, hp.written⟩, hw.status.trans h.busy,
    by rw [hopsel]; exact h.decoder, by rw [hcfg]; exact h.wf⟩

/-- A token of format A brings OP nearer to DECL (spec 44 R222). -/
theorem TokenPassed.stepBound_lt_of_decA {i : Instr} {f : Bool} (hp : TokenPassed i s t) (hw : Working s t)
    (ho : s.opsel = 2) (hwf : s.cfg.wf = true) (hi : spaceOf s.cfg i = .tokenA f) (hlt : s.op < s.decl) :
    stepBound t < stepBound s := by
  obtain ⟨-, hopsel, -, -, hdecl, -⟩ := hw.sameCommand
  have hpos := one_le_tokenOutput hwf hi
  have hop := hp.op_eq
  have hlt' := BitVec.lt_def.1 hlt
  rw [stepBound_of_decA ho, stepBound_of_decA (hopsel.trans ho), hdecl]
  omega

/-- A token of format B brings IP nearer to IN_LEN (spec 45 R242). -/
theorem TokenPassed.stepBound_lt_of_decB {i : Instr} (hp : TokenPassed i s t) (hw : Working s t) (ho : s.opsel = 3) :
    stepBound t < stepBound s := by
  obtain ⟨-, hopsel, hinLen, -⟩ := hw.sameCommand
  have hlt := BitVec.lt_def.1 hp.ip_lt
  have hle := BitVec.le_def.1 hp.ip_le
  have hne : s.opsel ≠ 2 := by rw [ho]; decide
  rw [stepBound_of_ne hne, stepBound_of_ne (hopsel ▸ hne), hinLen]
  omega

/-- Where a step of a running command does not end it, the command is still running. -/
theorem Advances.working {P : State → Prop} (hb : s.status = .busy) (h : Advances P (step s)) :
    Advances (fun t => Working s t ∧ P t) (step s) := by
  obtain ⟨t, ht, hend | hP⟩ := h
  · exact ⟨t, ht, .inl hend⟩
  · rcases step_moved hb t ht with hw | ⟨u, -, rfl, -⟩ | hf
    · exact ⟨t, ht, .inr ⟨hw, hP⟩⟩
    · exact ⟨_, ht, .inl (.inl rfl)⟩
    · exact ⟨t, ht, .inl (.inr hf.status)⟩

/-- A step of a decoder ends the command, or leaves fewer steps to do (spec 60 R313). -/
theorem Decoding.step_advances (h : Decoding s) :
    Advances (fun t => Decoding t ∧ stepBound t < stepBound s) (step s) := by
  rcases h.decoder with ho | ho
  · have hstep := Advances.working h.busy (step_of_decA h.busy ho ▸ h.decATurn_advances)
    exact hstep.mono fun t _ ⟨hw, hlt, i, f, hi, hp⟩ =>
      ⟨h.of_tokenPassed hp hw, hp.stepBound_lt_of_decA hw ho h.wf hi hlt⟩
  · have hstep := Advances.working h.busy (step_of_decB h.busy ho ▸ h.decBTurn_advances)
    exact hstep.mono fun t _ ⟨hw, i, f, _, hp⟩ => ⟨h.of_tokenPassed hp hw, hp.stepBound_lt_of_decB hw ho⟩

theorem not_busy_of_ended (h : t.status = .done ∨ t.status = .fault) : t.status ≠ .busy := by
  rcases h with h | h <;> rw [h] <;> decide

theorem Decoding.ends (h : Decoding s) (hn : stepBound s ≤ n) :
    ∃ t, runToEnd n s = .next t ∧ (t.status = .done ∨ t.status = .fault) := by
  induction n generalizing s with
  | zero => exact absurd (stepBound_pos s) (Nat.not_lt.2 hn)
  | succ n ih =>
    obtain ⟨t, ht, hend | ⟨hdec, hlt⟩⟩ := h.step_advances
    · rw [runToEnd_succ h.busy ht]
      exact ⟨t, runToEnd_of_not_busy (not_busy_of_ended hend), hend⟩
    · rw [runToEnd_succ h.busy ht]
      exact ih hdec (Nat.le_of_lt_succ (Nat.lt_of_lt_of_le hlt hn))

/-! ## The command -/

theorem fed_of_zero (hplaced : InputPlaced s) (hip : s.ip = 0) (hop : s.op = 0) : Fed s where
  placed := hplaced
  ip_le := hip ▸ size_zero_le _
  written a ha := by
    rw [hop] at ha
    exact absurd ha (Nat.not_lt_zero a)

theorem decoding_decAStart (hwf : s.cfg.wf = true) (hplaced : InputPlaced s) (ho : s.opsel = 2) :
    Decoding (decAStart s) :=
  ⟨fed_of_zero (hplaced.congr rfl rfl) rfl rfl, rfl, .inl ho, hwf⟩

theorem decoding_decBStart (hwf : s.cfg.wf = true) (hplaced : InputPlaced s) (ho : s.opsel = 3) :
    Decoding (decBStart s) :=
  ⟨fed_of_zero (hplaced.congr rfl rfl) rfl rfl, rfl, .inr ho, hwf⟩

theorem runCommand_decB (hl : Launchable s) (ho : s.opsel = 3) :
    runCommand s = runToEnd (stepBound (decBStart s)) (decBStart s) := by
  have hstart : startCommand s = exec .decB s := by
    rw [startCommand, ho]
    rfl
  rw [runCommand, hstart, exec_decB hl]

theorem runCommand_noCommand (hl : Launchable s) (ho : s.opsel = 0) :
    runCommand s = .next (raiseFault .badCommand s) := by
  rw [runCommand, startCommand_of_noCommand hl ho]
  exact runToEnd_of_not_busy (fun hb => by cases hb)

/-- Settles O57: OPSEL 0 faults at once, ENC_A ends by O58's run, and a decoder by the steps its bound counts
(`Decoding.ends`). -/
theorem everyCommandEnds : Obligations.EveryCommandEnds := by
  unfold Obligations.EveryCommandEnds
  intro s hwf hl hplaced
  by_cases h0 : s.opsel = 0
  · exact ⟨_, runCommand_noCommand hl h0, .inr rfl⟩
  · rcases opsel_cases h0 with ho | ho | ho
    · obtain ⟨t, ht, ⟨hd, -⟩ | ⟨hf, -⟩⟩ := runCommand_encA_ends hwf hl hplaced ho
      · exact ⟨t, ht, .inl hd⟩
      · exact ⟨t, ht, .inr hf⟩
    · rw [runCommand_decA hl ho]
      exact (decoding_decAStart hwf hplaced ho).ends (Nat.le_refl _)
    · rw [runCommand_decB hl ho]
      exact (decoding_decBStart hwf hplaced ho).ends (Nat.le_refl _)

end Sys2Proof.Machine
end

section
/-! SUPPORT. The causes of spec 60: which a running command can raise (R307), when CAUSE is NONE (R304), and what a raise
and a RESET leave (R298, R299, 70 R330). -/

namespace Sys2Proof.Machine

variable {s t : State} {C : Cause → Prop}

/-! ## The causes pseudocode can raise -/

/-- If a fault was raised, its cause is one of `C`. -/
def FaultIn (C : Cause → Prop) (s : State) : Prop := s.status = .fault → C s.cause

theorem faultIn_of_ne_fault (h : s.status ≠ .fault) : FaultIn C s := fun hf => absurd hf h

theorem faultIn_raiseFault {f : Cause} (hC : C f) (s : State) : FaultIn C (raiseFault f s) := fun _ => hC

theorem fetch_faultIn (hC : C .inputUnderrun) (h : FaultIn C s) : (fetch s).Sat (FaultIn C) := by
  rcases fetch_cases s with ⟨_, b, _, e⟩ | ⟨_, _, e⟩ | ⟨_, e⟩ <;> rw [e]
  · exact h
  · exact nextSat_fault _
  · exact nextSat_next.2 (faultIn_raiseFault hC s)

theorem putOut_faultIn {v : Byte} (hC : C .outputOverrun) (h : FaultIn C s) : (putOut v s).Sat (FaultIn C) := by
  by_cases hc : s.op < cap s
  · rw [putOut_of_lt hc]
    exact h
  · rw [putOut_of_not_lt hc]
    exact nextSat_next.2 (faultIn_raiseFault hC s)

theorem getOut_faultIn {d : Nat} (hC : C .backrefUnderflow) (h : FaultIn C s) : (getOut d s).Sat (FaultIn C) := by
  rcases getOut_cases d s with ⟨_, e⟩ | ⟨_, b, _, e⟩ | ⟨_, _, e⟩ <;> rw [e]
  · exact nextSat_next.2 (faultIn_raiseFault hC s)
  · exact h
  · exact nextSat_fault _

theorem flagrAGet_faultIn (hC : C .inputUnderrun) (h : FaultIn C s) : (flagrAGet s).Sat (FaultIn C) := by
  have hrefill : (frRefill s).Sat (FaultIn C) := by
    rw [frRefill]
    split
    · exact (fetch_faultIn hC h).bind fun _ _ ht => ht
    · exact h
  exact hrefill.bind fun _ _ ht => ht

theorem flagrBGet_faultIn (hC : C .inputUnderrun) (h : FaultIn C s) : (flagrBGet s).Sat (FaultIn C) := by
  have hshift : FaultIn C { s with fbReg := s.fbReg >>> 1 } := h
  simp only [flagrBGet]
  split
  · exact (fetch_faultIn hC hshift).bind fun _ _ ht => ht
  · exact hshift

theorem copyA_faultIn {n : Nat} (hC : C .outputOverrun) (h : FaultIn C s) : (copyA n s).Sat (FaultIn C) := by
  induction n generalizing s with
  | zero => exact h
  | succ n ih => exact (putOut_faultIn hC h).bind fun _ _ ht => ih ht

theorem copyB_faultIn {n : Nat} (hput : C .outputOverrun) (hget : C .backrefUnderflow) (h : FaultIn C s) :
    (copyB n s).Sat (FaultIn C) := by
  induction n generalizing s with
  | zero => exact h
  | succ n ih =>
    exact (getOut_faultIn hget h).bind fun _ _ ht => (putOut_faultIn hput ht).bind fun _ _ hu => ih hu

/-! ## The encoder -/

theorem ringPutInput_faultIn {n : Nat} (h : FaultIn C s) : (ringPutInput n s).Sat (FaultIn C) := by
  induction n generalizing s with
  | zero => exact h
  | succ n ih =>
    rw [ringPutInput]
    split
    · exact ih h
    · exact nextSat_fault _

theorem emitToken_faultIn (hC : C .outputOverrun) (h : FaultIn C s) : (emitToken s).Sat (FaultIn C) := by
  have hflag (f : Bool) : FaultIn C (flagwPut f s) := h
  rw [emitToken]
  split
  · exact (putOut_faultIn hC (hflag _)).bind fun _ _ ht =>
      (putOut_faultIn hC ht).bind fun _ _ hu => ringPutInput_faultIn hu
  · rw [emitLiteral]
    split
    · exact (putOut_faultIn hC (hflag _)).bind fun _ _ ht => ht
    · exact nextSat_fault _

theorem closeIfFull_faultIn (hC : C .outputOverrun) (h : FaultIn C s) : (closeIfFull s).Sat (FaultIn C) := by
  have hslot : FaultIn C { fillSlot s.faAcc s with faSlot := s.op } := h
  rw [closeIfFull]
  split
  · exact (putOut_faultIn hC hslot).bind fun _ _ ht => ht
  · exact h

theorem encTurn_faultIn (hC : C .outputOverrun) (h : s.status = .busy) : NextSat (FaultIn C) (encTurn s) := by
  have hfound : FaultIn C (findMatch (lookAhead s) s) := faultIn_of_ne_fault (by rw [findMatch_status, h]; decide)
  rw [encTurn]
  split
  · split
    · exact ((emitToken_faultIn hC hfound).bind fun _ _ ht => closeIfFull_faultIn hC ht).result
    · exact nextSat_fault _
  · exact nextSat_next.2 (faultIn_of_ne_fault (s := encFinish s) (fun hf => by cases hf))

/-! ## The decoders -/

theorem exec_tokenA_faultIn {c : Config} {i : Instr} {f : Bool} (hC : C .outputOverrun) (hi : spaceOf c i = .tokenA f)
    (h : FaultIn C s) : NextSat (FaultIn C) (exec i s) := by
  cases i with
  | aLit b =>
    refine Flow.Sat.result ((putOut_faultIn (s := consume 1 s) hC h).bind fun _ _ ht => ?_)
    exact ht
  | aMatch x y lo => exact (copyA_faultIn (s := setMatchA x y lo (consume 2 s)) hC h).result
  | _ => cases hi

theorem exec_tokenB_faultIn {c : Config} {i : Instr} {f : Bool} (hput : C .outputOverrun) (hget : C .backrefUnderflow)
    (hsize : C .sizeMismatch) (hi : spaceOf c i = .tokenB f) (h : FaultIn C s) : NextSat (FaultIn C) (exec i s) := by
  have hmatch (n : Nat) (x : BitVec 13) (y : BitVec 9) : (matchB x y (consume n s)).Sat (FaultIn C) :=
    copyB_faultIn (s := setMatchB x y (consume n s)) hput hget h
  cases i with
  | bLit b => exact (putOut_faultIn (s := consume 1 s) hput h).result
  | bShort x => exact (hmatch 1 _ _).result
  | bLong sel hi lo => exact (hmatch 2 _ _).result
  | bSuper hi lo e => exact (hmatch 3 _ _).result
  | bEnd sel =>
    rw [exec_bEnd, endB]
    split
    · exact nextSat_next.2 (faultIn_of_ne_fault (by rw [finish_status]; decide))
    · exact nextSat_next.2 (faultIn_raiseFault hsize _)
  | _ => cases hi

/-- The token at IP raises INPUT_UNDERRUN, or what the tokens of its space raise. -/
theorem runToken_faultIn {sp : Space} (hC : C .inputUnderrun)
    (hexec : ∀ i, spaceOf s.cfg i = sp → NextSat (FaultIn C) (exec i s)) : NextSat (FaultIn C) (runToken sp s) := by
  rw [runToken]
  split
  · next i rest hd =>
    obtain ⟨-, hi, -⟩ := decodedBytesAreAnEncoding.1 _ _ _ _ _ hd
    exact hexec i hi.symm
  · rw [missingByte]
    split
    · exact nextSat_fault _
    · exact nextSat_next.2 (faultIn_raiseFault hC s)

theorem withFlag_faultIn {x : Flow Bool} {sp : Bool → Space} (hC : C .inputUnderrun) (hx : x.Sat (FaultIn C))
    (hexec : ∀ f i t, spaceOf t.cfg i = sp f → FaultIn C t → NextSat (FaultIn C) (exec i t)) :
    NextSat (FaultIn C) (withFlag x sp) := by
  cases x with
  | go f t => exact runToken_faultIn hC fun i hi => hexec f i t hi hx
  | halt r => exact hx

theorem decATurn_faultIn (hin : C .inputUnderrun) (hput : C .outputOverrun) (h : s.status = .busy) :
    NextSat (FaultIn C) (decATurn s) := by
  rw [decATurn]
  split
  · exact withFlag_faultIn hin (flagrAGet_faultIn hin (faultIn_of_ne_fault (by rw [h]; decide)))
      fun _ _ _ hi => exec_tokenA_faultIn hput hi
  · exact nextSat_next.2 (faultIn_of_ne_fault (by rw [finish_status]; decide))

theorem decBTurn_faultIn (hin : C .inputUnderrun) (hput : C .outputOverrun) (hget : C .backrefUnderflow)
    (hsize : C .sizeMismatch) (h : s.status = .busy) : NextSat (FaultIn C) (decBTurn s) :=
  withFlag_faultIn hin (flagrBGet_faultIn hin (faultIn_of_ne_fault (by rw [h]; decide)))
    fun _ _ _ hi => exec_tokenB_faultIn hput hget hsize hi

/-- Settles O52: the causes of each command's turn. -/
theorem causesOfEachCommand : Obligations.CausesOfEachCommand := by
  unfold Obligations.CausesOfEachCommand
  refine fun s t hb hs hf => ⟨fun ho => ?_, fun ho => ?_, fun ho => ?_⟩
  · rw [step_of_enc hb ho] at hs
    exact encTurn_faultIn (C := fun f => f = .outputOverrun) rfl hb t hs hf
  · rw [step_of_decA hb ho] at hs
    exact decATurn_faultIn (C := fun f => f = .inputUnderrun ∨ f = .outputOverrun) (.inl rfl) (.inr rfl) hb t hs hf
  · rw [step_of_decB hb ho] at hs
    exact decBTurn_faultIn
      (C := fun f => f = .inputUnderrun ∨ f = .outputOverrun ∨ f = .backrefUnderflow ∨ f = .sizeMismatch)
      (.inl rfl) (.inr (.inl rfl)) (.inr (.inr (.inl rfl))) (.inr (.inr (.inr rfl))) hb t hs hf

/-! ## CAUSE outside FAULT -/

/-- CAUSE is NONE unless STATE is FAULT (spec 60 R304). -/
def NoCause (s : State) : Prop := s.status ≠ .fault → s.cause = .none

theorem NoCause.of_moved (h : NoCause s) (hb : s.status = .busy) (hm : MovedFrom s t) : NoCause t := by
  have hs : s.cause = .none := h (by rw [hb]; decide)
  rcases hm with hw | ⟨u, hu, rfl, -⟩ | hf
  · exact fun _ => hw.cause.trans hs
  · exact fun _ => hu.cause.trans hs
  · exact fun hne => absurd hf.status hne

theorem NoCause.of_hostMoved (h : NoCause s) (hm : HostMovedFrom s t) : NoCause t := by
  have hkept (e : resultSide t = resultSide s) : NoCause t := by
    simp only [resultSide, Prod.mk.injEq] at e
    obtain ⟨-, -, -, hstatus, hcause, -⟩ := e
    rw [NoCause, hstatus, hcause]
    exact h
  cases hm with
  | started hs => cases hs <;> exact fun _ => rfl
  | kept e _ => exact hkept e
  | placed e _ _ _ => exact hkept e
  | raised f u _ _ q e => exact e ▸ fun hne => absurd rfl hne
  | reset e => exact e ▸ fun _ => rfl

/-- Settles O51: the launched states have CAUSE NONE; a move of the engine or of the host keeps CAUSE, launches, resets or
raises. -/
theorem causeIsNoneOutsideFault : Obligations.CauseIsNoneOutsideFault := by
  unfold Obligations.CauseIsNoneOutsideFault
  refine ⟨rfl, fun s t h hb => ?_, fun s t h => ?_, fun s t hnone hs => ?_⟩
  · have hl := launchable_of_next (.inl rfl) h
    by_cases hcap : 0 < cap s
    · rw [exec_encA_of_lt hl hcap] at h
      cases h
      rfl
    · rw [exec_encA_of_not_lt hl hcap] at h
      cases h
      cases hb
  · rcases h with h | h
    · rw [exec_decA (launchable_of_next (.inr (.inl rfl)) h)] at h
      cases h
      rfl
    · rw [exec_decB (launchable_of_next (.inr (.inr rfl)) h)] at h
      cases h
      rfl
  · by_cases hb : s.status = .busy
    · exact NoCause.of_moved hnone hb (step_moved hb t hs)
    · rcases step_hostMoved hb hs with rfl | ⟨a, q, -, hm⟩
      · exact hnone
      · exact NoCause.of_hostMoved (s := { s with host := q }) hnone hm

/-! ## START, raises and RESET -/

theorem exec_noCommand (h : s.status ≠ .busy) : exec .noCommand s = .next (raiseFault .badCommand s) := if_neg h

theorem startCommand_of_zero (ho : s.opsel = 0) : startCommand s = exec .noCommand s := by
  rw [startCommand, ho]
  rfl

/-- Settles O31: the command of each code (spec 30 R115). -/
theorem noCommandIsBad : Obligations.NoCommandIsBad := by
  unfold Obligations.NoCommandIsBad
  refine fun s hb => ⟨startCommand_of_zero, fun hne => ?_, _, exec_noCommand hb, raised_raiseFault _ (.refl s)⟩
  rw [startCommand]
  rcases commandOf_cases s.opsel with ⟨ho, -⟩ | ⟨-, e⟩ | ⟨-, e⟩ | ⟨-, e⟩
  · exact absurd ho hne
  · exact .inl (by rw [e])
  · exact .inr (.inl (by rw [e]))
  · exact .inr (.inr (by rw [e]))

/-- Settles O53: what a raise writes and keeps; with no action pending the host's turn is a step to the same state. -/
theorem raiseStopsTheCommand : Obligations.RaiseStopsTheCommand := by
  unfold Obligations.RaiseStopsTheCommand
  refine fun f s => ⟨raised_raiseFault f (.refl s), fun a => ?_, fun _ => rfl, fun hh => ?_⟩
  · rw [readOut_eq, raiseFault_out, Memory.read?_nil]
  · exact step_of_no_host (by rw [raiseFault_status]; decide) hh

theorem launch_of_busy (k : State → Result) (h : s.status = .busy) : launch s k = .refused .hostWhileBusy := if_pos h

theorem launch_of_overlap (k : State → Result) (hb : s.status ≠ .busy) (ho : s.overlap = true) :
    launch s k = .refused .inOutOverlap := by
  rw [launch, if_neg hb, if_pos ho]

/-- Settles O32: the three codec commands share `launch`, and NO_COMMAND and the headers test STATE first. -/
theorem launchRefusals : Obligations.LaunchRefusals := by
  unfold Obligations.LaunchRefusals
  simp only [exec, execEncA, execDecA, execDecB]
  refine fun s => ⟨fun hb cs os ds => ?_, fun hb ho => ?_⟩
  · exact ⟨launch_of_busy _ hb, launch_of_busy _ hb, launch_of_busy _ hb, if_pos hb, if_pos hb, if_pos hb⟩
  · exact ⟨launch_of_overlap _ hb ho, launch_of_overlap _ hb ho, launch_of_overlap _ hb ho⟩

/-- Settles O54: RESET leaves a state that is not BUSY with OPSEL 0, from which START is NO_COMMAND (O31). -/
theorem resetAction : Obligations.ResetAction := by
  unfold Obligations.ResetAction
  intro s q hb hq
  have hidle : (powerOnReset { s with host := q }).status ≠ .busy := by rw [powerOnReset_status]; decide
  refine ⟨powerOnReset { s with host := q }, step_of_host hb hq, rfl, rfl, rfl, rfl, rfl, rfl, rfl, rfl, ?_⟩
  obtain ⟨hstart, -, u, hu, hraised⟩ := noCommandIsBad _ hidle
  exact ⟨u, (hstart rfl).trans hu, hraised⟩

end Sys2Proof.Machine
end
